-- ==== Sys2Proof/Word.lean ====
section
/-! DEFINITION. The words of the block: 64-bit values, bytes, register ids (00_scope.md R11, R12; 10_state.md R20). -/

namespace Sys2Proof

/-- A u64: a general register, an address, a program counter (00_scope.md R11). -/
abbrev Word := BitVec 64

/-- A u8: one byte of the program stream or of the data memory (00_scope.md R11). -/
abbrev Byte := BitVec 8

/-- The 4-bit register id of an encoding; 0 to 10 name registers, 11 to 15 name none (10_state.md R20). -/
abbrev RegId := BitVec 4

end Sys2Proof
end

