-- ==== Sys2Proof/Config.lean ====
section
/-! DEFINITION. The implementation parameters of 00_scope.md R9 and their reference defaults. The spec says that
they are fixed for the block's lifetime and are arguments of the step relation (10_state.md R50); the model carries
them in the state's params field, which no step changes, so every statement about every state holds for every value
of them. -/

namespace Sys2Proof

/-- The account state: one value the block stores, snapshots and restores but never interprets (10_state.md R43,
46_checkpoint.md R325). DESIGN CHOICE (log 11): held as the host's byte blob. -/
structure AccountState where
  blob : List Byte
deriving DecidableEq, Repr

/-- The meter configuration registers, 32 bits each (10_state.md R35); mult holds MULT[0] to MULT[7]. -/
structure MeterConfig where
  baseRate : BitVec 32
  mult : Vector (BitVec 32) 8
  cyclesPerCu : BitVec 32
  invokeUnits : BitVec 32
  logUnits : BitVec 32
  returnUnits : BitVec 32
  checkpointUnits : BitVec 32
deriving DecidableEq, Repr

/-- The power-on values of the meter configuration registers (40_compute_meter.md R113). -/
def MeterConfig.reference : MeterConfig where
  baseRate := 1
  mult := #v[1000, 1200, 1000, 50000, 200000, 20000, 10000, 1000]
  cyclesPerCu := 1
  invokeUnits := 1
  logUnits := 1
  returnUnits := 1
  checkpointUnits := 10

/-- The parameters of 00_scope.md R9. NREGS (11) and XLEN (64) are fixed by the source and stand in the types. -/
structure Params where
  /-- MEM_CAPACITY, in bytes -/
  memCapacity : Nat
  /-- MAX_CALL_DEPTH -/
  maxCallDepth : Nat
  /-- MAX_CPI_DEPTH -/
  maxCpiDepth : Nat
  /-- MAX_STEPS -/
  maxSteps : Nat
  /-- MAX_CHECKPOINTS -/
  maxCheckpoints : Nat
  /-- REG_INIT[0..10] -/
  regInit : Vector Word 11
  /-- EXT_INVOKE -/
  extInvoke : Byte
  /-- EXT_LOG -/
  extLog : Byte
  /-- EXT_RETURN -/
  extReturn : Byte
  /-- ACCOUNTS_INIT -/
  accountsInit : AccountState
  /-- the power-on values of the meter configuration registers -/
  meterInit : MeterConfig
deriving DecidableEq, Repr

/-- The reference defaults of 00_scope.md R9. -/
def Params.reference : Params where
  memCapacity := 65536
  maxCallDepth := 64
  maxCpiDepth := 4
  maxSteps := 1000000
  maxCheckpoints := 64
  regInit := Vector.replicate 11 0
  extInvoke := 0xe0
  extLog := 0xe1
  extReturn := 0xe2
  accountsInit := ⟨[]⟩
  meterInit := MeterConfig.reference

end Sys2Proof
end

