-- ==== Sys2Proof/Syntax.lean ====
section
/-! DEFINITION. The instructions: one constructor per row of the opcode map (30_encoding.md R92), in the map's
order, holding the fields the row's format uses (R93) at the widths of their encodings (R81, R85). -/

namespace Sys2Proof

/-- A decoded instruction. Fields a format does not use are don't-care (30_encoding.md R95) and are not held. -/
inductive Instr where
  | add64Imm (dst : RegId) (imm : BitVec 32)
  | add64Reg (dst src : RegId)
  | sub64Imm (dst : RegId) (imm : BitVec 32)
  | sub64Reg (dst src : RegId)
  | mul64Imm (dst : RegId) (imm : BitVec 32)
  | mul64Reg (dst src : RegId)
  | div64Imm (dst : RegId) (imm : BitVec 32)
  | div64Reg (dst src : RegId)
  | or64Imm (dst : RegId) (imm : BitVec 32)
  | or64Reg (dst src : RegId)
  | and64Imm (dst : RegId) (imm : BitVec 32)
  | and64Reg (dst src : RegId)
  | lsh64Imm (dst : RegId) (imm : BitVec 32)
  | lsh64Reg (dst src : RegId)
  | rsh64Imm (dst : RegId) (imm : BitVec 32)
  | rsh64Reg (dst src : RegId)
  | neg64 (dst : RegId)
  | mod64Imm (dst : RegId) (imm : BitVec 32)
  | mod64Reg (dst src : RegId)
  | xor64Imm (dst : RegId) (imm : BitVec 32)
  | xor64Reg (dst src : RegId)
  | mov64Imm (dst : RegId) (imm : BitVec 32)
  | mov64Reg (dst src : RegId)
  | arsh64Imm (dst : RegId) (imm : BitVec 32)
  | arsh64Reg (dst src : RegId)
  | lddw (dst : RegId) (imm64 : BitVec 64)
  | ldabsb (dst : RegId) (imm : BitVec 32)
  | ldabsh (dst : RegId) (imm : BitVec 32)
  | ldabsw (dst : RegId) (imm : BitVec 32)
  | ldabsdw (dst : RegId) (imm : BitVec 32)
  | ldxb (dst src : RegId) (off : BitVec 16)
  | ldxh (dst src : RegId) (off : BitVec 16)
  | ldxw (dst src : RegId) (off : BitVec 16)
  | ldxdw (dst src : RegId) (off : BitVec 16)
  | stxb (dst src : RegId) (off : BitVec 16)
  | stxh (dst src : RegId) (off : BitVec 16)
  | stxw (dst src : RegId) (off : BitVec 16)
  | stxdw (dst src : RegId) (off : BitVec 16)
  | ja (off : BitVec 16)
  | jeqImm (dst : RegId) (imm : BitVec 32) (off : BitVec 16)
  | jeqReg (dst src : RegId) (off : BitVec 16)
  | jgtImm (dst : RegId) (imm : BitVec 32) (off : BitVec 16)
  | jgtReg (dst src : RegId) (off : BitVec 16)
  | jgeImm (dst : RegId) (imm : BitVec 32) (off : BitVec 16)
  | jgeReg (dst src : RegId) (off : BitVec 16)
  | jltImm (dst : RegId) (imm : BitVec 32) (off : BitVec 16)
  | jltReg (dst src : RegId) (off : BitVec 16)
  | jleImm (dst : RegId) (imm : BitVec 32) (off : BitVec 16)
  | jleReg (dst src : RegId) (off : BitVec 16)
  | jneImm (dst : RegId) (imm : BitVec 32) (off : BitVec 16)
  | jneReg (dst src : RegId) (off : BitVec 16)
  | jsgtImm (dst : RegId) (imm : BitVec 32) (off : BitVec 16)
  | jsgtReg (dst src : RegId) (off : BitVec 16)
  | jsgeImm (dst : RegId) (imm : BitVec 32) (off : BitVec 16)
  | jsgeReg (dst src : RegId) (off : BitVec 16)
  | jsltImm (dst : RegId) (imm : BitVec 32) (off : BitVec 16)
  | jsltReg (dst src : RegId) (off : BitVec 16)
  | jsleImm (dst : RegId) (imm : BitVec 32) (off : BitVec 16)
  | jsleReg (dst src : RegId) (off : BitVec 16)
  | call (imm : BitVec 32)
  | exit
  | invoke
  | log
  | cpiReturn
deriving DecidableEq, Repr

end Sys2Proof
end

