-- ==== Sys2Proof/WellFormed.lean ====
section
/-! DEFINITION. Which instructions are well formed: every register id is 0 to 10 (30_encoding.md R89). The widths of
the immediate and offset fields stand in the types of Instr. -/

namespace Sys2Proof

/-- A register id names a register: 0 to 10 (10_state.md R20). -/
def regIdOk (r : RegId) : Bool := r.toNat < 11

/-- The check of the destination nibble (30_encoding.md R89). -/
def Instr.dstOk : Instr → Bool
  | .add64Imm dst _ => regIdOk dst
  | .add64Reg dst _ => regIdOk dst
  | .sub64Imm dst _ => regIdOk dst
  | .sub64Reg dst _ => regIdOk dst
  | .mul64Imm dst _ => regIdOk dst
  | .mul64Reg dst _ => regIdOk dst
  | .div64Imm dst _ => regIdOk dst
  | .div64Reg dst _ => regIdOk dst
  | .or64Imm dst _ => regIdOk dst
  | .or64Reg dst _ => regIdOk dst
  | .and64Imm dst _ => regIdOk dst
  | .and64Reg dst _ => regIdOk dst
  | .lsh64Imm dst _ => regIdOk dst
  | .lsh64Reg dst _ => regIdOk dst
  | .rsh64Imm dst _ => regIdOk dst
  | .rsh64Reg dst _ => regIdOk dst
  | .neg64 dst => regIdOk dst
  | .mod64Imm dst _ => regIdOk dst
  | .mod64Reg dst _ => regIdOk dst
  | .xor64Imm dst _ => regIdOk dst
  | .xor64Reg dst _ => regIdOk dst
  | .mov64Imm dst _ => regIdOk dst
  | .mov64Reg dst _ => regIdOk dst
  | .arsh64Imm dst _ => regIdOk dst
  | .arsh64Reg dst _ => regIdOk dst
  | .lddw dst _ => regIdOk dst
  | .ldabsb dst _ => regIdOk dst
  | .ldabsh dst _ => regIdOk dst
  | .ldabsw dst _ => regIdOk dst
  | .ldabsdw dst _ => regIdOk dst
  | .ldxb dst _ _ => regIdOk dst
  | .ldxh dst _ _ => regIdOk dst
  | .ldxw dst _ _ => regIdOk dst
  | .ldxdw dst _ _ => regIdOk dst
  | .stxb dst _ _ => regIdOk dst
  | .stxh dst _ _ => regIdOk dst
  | .stxw dst _ _ => regIdOk dst
  | .stxdw dst _ _ => regIdOk dst
  | .ja _ => true
  | .jeqImm dst _ _ => regIdOk dst
  | .jeqReg dst _ _ => regIdOk dst
  | .jgtImm dst _ _ => regIdOk dst
  | .jgtReg dst _ _ => regIdOk dst
  | .jgeImm dst _ _ => regIdOk dst
  | .jgeReg dst _ _ => regIdOk dst
  | .jltImm dst _ _ => regIdOk dst
  | .jltReg dst _ _ => regIdOk dst
  | .jleImm dst _ _ => regIdOk dst
  | .jleReg dst _ _ => regIdOk dst
  | .jneImm dst _ _ => regIdOk dst
  | .jneReg dst _ _ => regIdOk dst
  | .jsgtImm dst _ _ => regIdOk dst
  | .jsgtReg dst _ _ => regIdOk dst
  | .jsgeImm dst _ _ => regIdOk dst
  | .jsgeReg dst _ _ => regIdOk dst
  | .jsltImm dst _ _ => regIdOk dst
  | .jsltReg dst _ _ => regIdOk dst
  | .jsleImm dst _ _ => regIdOk dst
  | .jsleReg dst _ _ => regIdOk dst
  | .call _ => true
  | .exit => true
  | .invoke => true
  | .log => true
  | .cpiReturn => true

/-- The check of the source nibble (30_encoding.md R89). -/
def Instr.srcOk : Instr → Bool
  | .add64Imm _ _ => true
  | .add64Reg _ src => regIdOk src
  | .sub64Imm _ _ => true
  | .sub64Reg _ src => regIdOk src
  | .mul64Imm _ _ => true
  | .mul64Reg _ src => regIdOk src
  | .div64Imm _ _ => true
  | .div64Reg _ src => regIdOk src
  | .or64Imm _ _ => true
  | .or64Reg _ src => regIdOk src
  | .and64Imm _ _ => true
  | .and64Reg _ src => regIdOk src
  | .lsh64Imm _ _ => true
  | .lsh64Reg _ src => regIdOk src
  | .rsh64Imm _ _ => true
  | .rsh64Reg _ src => regIdOk src
  | .neg64 _ => true
  | .mod64Imm _ _ => true
  | .mod64Reg _ src => regIdOk src
  | .xor64Imm _ _ => true
  | .xor64Reg _ src => regIdOk src
  | .mov64Imm _ _ => true
  | .mov64Reg _ src => regIdOk src
  | .arsh64Imm _ _ => true
  | .arsh64Reg _ src => regIdOk src
  | .lddw _ _ => true
  | .ldabsb _ _ => true
  | .ldabsh _ _ => true
  | .ldabsw _ _ => true
  | .ldabsdw _ _ => true
  | .ldxb _ src _ => regIdOk src
  | .ldxh _ src _ => regIdOk src
  | .ldxw _ src _ => regIdOk src
  | .ldxdw _ src _ => regIdOk src
  | .stxb _ src _ => regIdOk src
  | .stxh _ src _ => regIdOk src
  | .stxw _ src _ => regIdOk src
  | .stxdw _ src _ => regIdOk src
  | .ja _ => true
  | .jeqImm _ _ _ => true
  | .jeqReg _ src _ => regIdOk src
  | .jgtImm _ _ _ => true
  | .jgtReg _ src _ => regIdOk src
  | .jgeImm _ _ _ => true
  | .jgeReg _ src _ => regIdOk src
  | .jltImm _ _ _ => true
  | .jltReg _ src _ => regIdOk src
  | .jleImm _ _ _ => true
  | .jleReg _ src _ => regIdOk src
  | .jneImm _ _ _ => true
  | .jneReg _ src _ => regIdOk src
  | .jsgtImm _ _ _ => true
  | .jsgtReg _ src _ => regIdOk src
  | .jsgeImm _ _ _ => true
  | .jsgeReg _ src _ => regIdOk src
  | .jsltImm _ _ _ => true
  | .jsltReg _ src _ => regIdOk src
  | .jsleImm _ _ _ => true
  | .jsleReg _ src _ => regIdOk src
  | .call _ => true
  | .exit => true
  | .invoke => true
  | .log => true
  | .cpiReturn => true

/-- An instruction is well formed when both of its register ids name registers. -/
def Instr.wellFormed (i : Instr) : Bool := i.dstOk && i.srcOk

end Sys2Proof
end

