-- ==== Sys2Proof/Decode.lean ====
section
/-! DEFINITION. The decoder (30_encoding.md R80 to R103) and, after it, the encoder written from the same tables.

A byte stream is decoded slot by slot into the records of R91; a record names its instruction through the opcode map
of R92. decodeTableWord is the host's view of one table row. -/

namespace Sys2Proof

/-! ## The decoded record and the formats -/

/-- A decoded instruction as the program store holds it (30_encoding.md R91): off and imm sign-extended, imm the whole
64-bit immediate for lddw. -/
structure Decoded where
  opc : Byte
  dst : RegId
  src : RegId
  off : Word
  imm : Word
deriving DecidableEq, Repr

/-- The only opcode of the wide form, lddw (30_encoding.md R85, R98). -/
def wideOpcode : Byte := 0x18

/-- The length in bytes of an instruction, told by its opcode byte alone (30_encoding.md R98). -/
def opcodeLength (opc : Byte) : Nat := if opc = wideOpcode then 16 else 8

/-- The 16-bit displacement field of a record (30_encoding.md R83). -/
def Decoded.off16 (d : Decoded) : BitVec 16 := d.off.setWidth 16

/-- The 32-bit immediate field of a record of an 8-byte instruction (30_encoding.md R84). -/
def Decoded.imm32 (d : Decoded) : BitVec 32 := d.imm.setWidth 32

/-! The formats of 30_encoding.md R93: which fields of a record an instruction uses. -/

def formatAluImm (k : RegId → BitVec 32 → Instr) (d : Decoded) : Instr := k d.dst d.imm32
def formatAluReg (k : RegId → RegId → Instr) (d : Decoded) : Instr := k d.dst d.src
def formatAluUnary (k : RegId → Instr) (d : Decoded) : Instr := k d.dst
def formatLdImm64 (k : RegId → BitVec 64 → Instr) (d : Decoded) : Instr := k d.dst d.imm
def formatLdAbs (k : RegId → BitVec 32 → Instr) (d : Decoded) : Instr := k d.dst d.imm32
def formatLdx (k : RegId → RegId → BitVec 16 → Instr) (d : Decoded) : Instr := k d.dst d.src d.off16
def formatStx (k : RegId → RegId → BitVec 16 → Instr) (d : Decoded) : Instr := k d.dst d.src d.off16
def formatJa (k : BitVec 16 → Instr) (d : Decoded) : Instr := k d.off16
def formatJmpImm (k : RegId → BitVec 32 → BitVec 16 → Instr) (d : Decoded) : Instr := k d.dst d.imm32 d.off16
def formatJmpReg (k : RegId → RegId → BitVec 16 → Instr) (d : Decoded) : Instr := k d.dst d.src d.off16
def formatCall (k : BitVec 32 → Instr) (d : Decoded) : Instr := k d.imm32
def formatExit (k : Instr) (_ : Decoded) : Instr := k
def formatExt (k : Instr) (_ : Decoded) : Instr := k

/-! ## The opcode map -/

/-- The 61 base rows of the opcode map (30_encoding.md R92), in the map's order. -/
def baseOpcodeRows : List (Byte × (Decoded → Instr)) :=
  [
    (0x07, formatAluImm .add64Imm),
    (0x0f, formatAluReg .add64Reg),
    (0x17, formatAluImm .sub64Imm),
    (0x1f, formatAluReg .sub64Reg),
    (0x27, formatAluImm .mul64Imm),
    (0x2f, formatAluReg .mul64Reg),
    (0x37, formatAluImm .div64Imm),
    (0x3f, formatAluReg .div64Reg),
    (0x47, formatAluImm .or64Imm),
    (0x4f, formatAluReg .or64Reg),
    (0x57, formatAluImm .and64Imm),
    (0x5f, formatAluReg .and64Reg),
    (0x67, formatAluImm .lsh64Imm),
    (0x6f, formatAluReg .lsh64Reg),
    (0x77, formatAluImm .rsh64Imm),
    (0x7f, formatAluReg .rsh64Reg),
    (0x87, formatAluUnary .neg64),
    (0x97, formatAluImm .mod64Imm),
    (0x9f, formatAluReg .mod64Reg),
    (0xa7, formatAluImm .xor64Imm),
    (0xaf, formatAluReg .xor64Reg),
    (0xb7, formatAluImm .mov64Imm),
    (0xbf, formatAluReg .mov64Reg),
    (0xc7, formatAluImm .arsh64Imm),
    (0xcf, formatAluReg .arsh64Reg),
    (0x18, formatLdImm64 .lddw),
    (0x30, formatLdAbs .ldabsb),
    (0x28, formatLdAbs .ldabsh),
    (0x20, formatLdAbs .ldabsw),
    (0x38, formatLdAbs .ldabsdw),
    (0x71, formatLdx .ldxb),
    (0x69, formatLdx .ldxh),
    (0x61, formatLdx .ldxw),
    (0x79, formatLdx .ldxdw),
    (0x73, formatStx .stxb),
    (0x6b, formatStx .stxh),
    (0x63, formatStx .stxw),
    (0x7b, formatStx .stxdw),
    (0x05, formatJa .ja),
    (0x15, formatJmpImm .jeqImm),
    (0x1d, formatJmpReg .jeqReg),
    (0x25, formatJmpImm .jgtImm),
    (0x2d, formatJmpReg .jgtReg),
    (0x35, formatJmpImm .jgeImm),
    (0x3d, formatJmpReg .jgeReg),
    (0xa5, formatJmpImm .jltImm),
    (0xad, formatJmpReg .jltReg),
    (0xb5, formatJmpImm .jleImm),
    (0xbd, formatJmpReg .jleReg),
    (0x55, formatJmpImm .jneImm),
    (0x5d, formatJmpReg .jneReg),
    (0x65, formatJmpImm .jsgtImm),
    (0x6d, formatJmpReg .jsgtReg),
    (0x75, formatJmpImm .jsgeImm),
    (0x7d, formatJmpReg .jsgeReg),
    (0xc5, formatJmpImm .jsltImm),
    (0xcd, formatJmpReg .jsltReg),
    (0xd5, formatJmpImm .jsleImm),
    (0xdd, formatJmpReg .jsleReg),
    (0x85, formatCall .call),
    (0x95, formatExit .exit)
  ]

/-- The three extension rows, whose opcode bytes are parameters (30_encoding.md R92, 00_scope.md R9). -/
def extOpcodeRows (p : Params) : List (Byte × (Decoded → Instr)) :=
  [
    (p.extInvoke, formatExt .invoke),
    (p.extLog, formatExt .log),
    (p.extReturn, formatExt .cpiReturn)
  ]

/-- The opcode map of 30_encoding.md R92: 64 rows, each selected by the whole opcode byte. -/
def opcodeMap (p : Params) : List (Byte × (Decoded → Instr)) := baseOpcodeRows ++ extOpcodeRows p

/-- The constraints on the parameters that a model must assume (00_scope.md R10), with the two bounds that keep the
64-bit STEP_COUNT and CPI_DEPTH from wrapping (60_exceptions.md R362; DEDUCED, log 19). -/
abbrev Params.Valid (p : Params) : Prop :=
  p.maxCallDepth < 1000 ∧ p.maxCallDepth < p.maxSteps ∧ 4 ≤ p.memCapacity ∧ p.memCapacity ≤ 2 ^ 64 ∧
  p.maxSteps < 2 ^ 64 ∧ p.maxCpiDepth < 2 ^ 64 ∧
  p.extInvoke ≠ p.extLog ∧ p.extInvoke ≠ p.extReturn ∧ p.extLog ≠ p.extReturn ∧
  p.extInvoke ∉ baseOpcodeRows.map Prod.fst ∧ p.extLog ∉ baseOpcodeRows.map Prod.fst ∧
  p.extReturn ∉ baseOpcodeRows.map Prod.fst

/-- The instruction a record stands for, or none when its opcode byte has no row (30_encoding.md R90, R92). -/
def Decoded.instr? (p : Params) (d : Decoded) : Option Instr :=
  ((opcodeMap p).lookup d.opc).map fun make => make d

/-! ## The decoder -/

/-- Why a stream is rejected (30_encoding.md R86). -/
inductive DecodeFailure where
  /-- the stream ends inside the instruction (R88) -/
  | truncatedInstruction
  /-- a register nibble is 11 to 15 (R89) -/
  | invalidRegister
  /-- the opcode byte has no row in the map (R90) -/
  | invalidOpcode
deriving DecidableEq, Repr

/-- A decode failure with the byte offset and the index of the failing instruction (30_encoding.md R102). -/
structure DecodeError where
  kind : DecodeFailure
  offset : Nat
  index : Nat
deriving DecidableEq, Repr

/-- The fields of the instruction at the head of a stream, or none when the stream ends inside it: the register byte
split low nibble first (30_encoding.md R82), off and the 4-byte immediate sign-extended (R83, R84, R91), bytes 8 to 15
as the immediate of the wide form, whose bytes 4 to 7 are ignored (R85). -/
def decodeFields : List Byte → Option Decoded
  | b0 :: b1 :: b2 :: b3 :: b4 :: b5 :: b6 :: b7 :: rest =>
    let dst := b1.extractLsb' 0 4
    let src := b1.extractLsb' 4 4
    let off := (b3 ++ b2).signExtend 64
    if b0 = wideOpcode then
      match rest with
      | b8 :: b9 :: b10 :: b11 :: b12 :: b13 :: b14 :: b15 :: _ =>
        some { opc := b0, dst, src, off, imm := b15 ++ b14 ++ b13 ++ b12 ++ b11 ++ b10 ++ b9 ++ b8 }
      | _ => none
    else some { opc := b0, dst, src, off, imm := (b7 ++ b6 ++ b5 ++ b4).signExtend 64 }
  | _ => none

/-- DecodeOne at the head of a stream: truncation, then the register check on both nibbles, then the opcode
(30_encoding.md R86, R89, R90; 60_exceptions.md R354). Answers the record and the length taken. -/
def decodeOne (p : Params) (bytes : List Byte) : Except DecodeFailure (Decoded × Nat) :=
  match decodeFields bytes with
  | none => .error .truncatedInstruction
  | some d =>
    if !(regIdOk d.dst && regIdOk d.src) then .error .invalidRegister
    else if (d.instr? p).isNone then .error .invalidOpcode
    else .ok (d, opcodeLength d.opc)

/-- DecodeProgram's loop (30_encoding.md R87) at byte offset c and index i; fuel bounds the instructions left. -/
def decodeLoop (p : Params) : (fuel : Nat) → List Byte → (c i : Nat) → Except DecodeError (List Decoded)
  | _, [], _, _ => .ok []
  | 0, _ :: _, c, i => .error ⟨.truncatedInstruction, c, i⟩
  | fuel + 1, bytes, c, i =>
    match decodeOne p bytes with
    | .error e => .error ⟨e, c, i⟩
    | .ok (d, n) =>
      match decodeLoop p fuel (bytes.drop n) (c + n) (i + 1) with
      | .error e => .error e
      | .ok ds => .ok (d :: ds)

/-- DecodeProgram (30_encoding.md R87). Every instruction takes at least 8 bytes, so the stream's length is fuel
enough. -/
def decodeProgram (p : Params) (bytes : List Byte) : Except DecodeError (List Decoded) :=
  decodeLoop p bytes.length bytes 0 0

/-! ## One row of the opcode table -/

/-- The k lowest bytes of a number, lowest first: the order in which the stream stores them (30_encoding.md R81). -/
def tableBytes : Nat → Nat → List Byte
  | 0, _ => []
  | k + 1, w => BitVec.ofNat 8 w :: tableBytes k (w / 256)

/-- The 16 bytes of an instruction whose lowest nbits bits are those of w and whose other bits are 0. -/
def tableStream (nbits w : Nat) : List Byte := tableBytes 16 (w % 2 ^ nbits)

/-- The instruction the decoder reads from a table word, with the reference extension bytes (log 2). -/
def decodeTableWord (nbits w : Nat) : Option Instr :=
  match decodeOne Params.reference (tableStream nbits w) with
  | .ok (d, _) => d.instr? Params.reference
  | .error _ => none

/-! ## The encoder -/

/-- The four bytes of a 32-bit immediate, little-endian (30_encoding.md R84). -/
def imm32Bytes (v : BitVec 32) : List Byte :=
  [v.extractLsb' 0 8, v.extractLsb' 8 8, v.extractLsb' 16 8, v.extractLsb' 24 8]

/-- Bytes 0 to 3 of an instruction: opcode, registers, displacement (30_encoding.md R81 to R83). -/
def headBytes (opc : Byte) (dst src : RegId) (off : BitVec 16) : List Byte :=
  [opc, src ++ dst, off.extractLsb' 0 8, off.extractLsb' 8 8]

/-- An 8-byte instruction (30_encoding.md R81). -/
def encodeSlot (opc : Byte) (dst src : RegId) (off : BitVec 16) (imm : BitVec 32) : List Byte :=
  headBytes opc dst src off ++ imm32Bytes imm

/-- The 16-byte wide form, bytes 4 to 7 written 0 (30_encoding.md R85). -/
def encodeWide (opc : Byte) (dst : RegId) (imm : BitVec 64) : List Byte :=
  headBytes opc dst 0 0 ++ imm32Bytes 0 ++ imm32Bytes (imm.extractLsb' 0 32) ++ imm32Bytes (imm.extractLsb' 32 32)

/-- The bytes of an instruction, every unused field written 0 (30_encoding.md R81, R92, R93). -/
def encode (p : Params) : Instr → List Byte
  | .add64Imm dst imm => encodeSlot 0x07 dst 0 0 imm
  | .add64Reg dst src => encodeSlot 0x0f dst src 0 0
  | .sub64Imm dst imm => encodeSlot 0x17 dst 0 0 imm
  | .sub64Reg dst src => encodeSlot 0x1f dst src 0 0
  | .mul64Imm dst imm => encodeSlot 0x27 dst 0 0 imm
  | .mul64Reg dst src => encodeSlot 0x2f dst src 0 0
  | .div64Imm dst imm => encodeSlot 0x37 dst 0 0 imm
  | .div64Reg dst src => encodeSlot 0x3f dst src 0 0
  | .or64Imm dst imm => encodeSlot 0x47 dst 0 0 imm
  | .or64Reg dst src => encodeSlot 0x4f dst src 0 0
  | .and64Imm dst imm => encodeSlot 0x57 dst 0 0 imm
  | .and64Reg dst src => encodeSlot 0x5f dst src 0 0
  | .lsh64Imm dst imm => encodeSlot 0x67 dst 0 0 imm
  | .lsh64Reg dst src => encodeSlot 0x6f dst src 0 0
  | .rsh64Imm dst imm => encodeSlot 0x77 dst 0 0 imm
  | .rsh64Reg dst src => encodeSlot 0x7f dst src 0 0
  | .neg64 dst => encodeSlot 0x87 dst 0 0 0
  | .mod64Imm dst imm => encodeSlot 0x97 dst 0 0 imm
  | .mod64Reg dst src => encodeSlot 0x9f dst src 0 0
  | .xor64Imm dst imm => encodeSlot 0xa7 dst 0 0 imm
  | .xor64Reg dst src => encodeSlot 0xaf dst src 0 0
  | .mov64Imm dst imm => encodeSlot 0xb7 dst 0 0 imm
  | .mov64Reg dst src => encodeSlot 0xbf dst src 0 0
  | .arsh64Imm dst imm => encodeSlot 0xc7 dst 0 0 imm
  | .arsh64Reg dst src => encodeSlot 0xcf dst src 0 0
  | .lddw dst imm64 => encodeWide 0x18 dst imm64
  | .ldabsb dst imm => encodeSlot 0x30 dst 0 0 imm
  | .ldabsh dst imm => encodeSlot 0x28 dst 0 0 imm
  | .ldabsw dst imm => encodeSlot 0x20 dst 0 0 imm
  | .ldabsdw dst imm => encodeSlot 0x38 dst 0 0 imm
  | .ldxb dst src off => encodeSlot 0x71 dst src off 0
  | .ldxh dst src off => encodeSlot 0x69 dst src off 0
  | .ldxw dst src off => encodeSlot 0x61 dst src off 0
  | .ldxdw dst src off => encodeSlot 0x79 dst src off 0
  | .stxb dst src off => encodeSlot 0x73 dst src off 0
  | .stxh dst src off => encodeSlot 0x6b dst src off 0
  | .stxw dst src off => encodeSlot 0x63 dst src off 0
  | .stxdw dst src off => encodeSlot 0x7b dst src off 0
  | .ja off => encodeSlot 0x05 0 0 off 0
  | .jeqImm dst imm off => encodeSlot 0x15 dst 0 off imm
  | .jeqReg dst src off => encodeSlot 0x1d dst src off 0
  | .jgtImm dst imm off => encodeSlot 0x25 dst 0 off imm
  | .jgtReg dst src off => encodeSlot 0x2d dst src off 0
  | .jgeImm dst imm off => encodeSlot 0x35 dst 0 off imm
  | .jgeReg dst src off => encodeSlot 0x3d dst src off 0
  | .jltImm dst imm off => encodeSlot 0xa5 dst 0 off imm
  | .jltReg dst src off => encodeSlot 0xad dst src off 0
  | .jleImm dst imm off => encodeSlot 0xb5 dst 0 off imm
  | .jleReg dst src off => encodeSlot 0xbd dst src off 0
  | .jneImm dst imm off => encodeSlot 0x55 dst 0 off imm
  | .jneReg dst src off => encodeSlot 0x5d dst src off 0
  | .jsgtImm dst imm off => encodeSlot 0x65 dst 0 off imm
  | .jsgtReg dst src off => encodeSlot 0x6d dst src off 0
  | .jsgeImm dst imm off => encodeSlot 0x75 dst 0 off imm
  | .jsgeReg dst src off => encodeSlot 0x7d dst src off 0
  | .jsltImm dst imm off => encodeSlot 0xc5 dst 0 off imm
  | .jsltReg dst src off => encodeSlot 0xcd dst src off 0
  | .jsleImm dst imm off => encodeSlot 0xd5 dst 0 off imm
  | .jsleReg dst src off => encodeSlot 0xdd dst src off 0
  | .call imm => encodeSlot 0x85 0 0 0 imm
  | .exit => encodeSlot 0x95 0 0 0 0
  | .invoke => encodeSlot p.extInvoke 0 0 0 0
  | .log => encodeSlot p.extLog 0 0 0 0
  | .cpiReturn => encodeSlot p.extReturn 0 0 0 0

/-- The length in bytes of an instruction (30_encoding.md R98). -/
def Instr.length : Instr → Nat
  | .add64Imm _ _ => 8
  | .add64Reg _ _ => 8
  | .sub64Imm _ _ => 8
  | .sub64Reg _ _ => 8
  | .mul64Imm _ _ => 8
  | .mul64Reg _ _ => 8
  | .div64Imm _ _ => 8
  | .div64Reg _ _ => 8
  | .or64Imm _ _ => 8
  | .or64Reg _ _ => 8
  | .and64Imm _ _ => 8
  | .and64Reg _ _ => 8
  | .lsh64Imm _ _ => 8
  | .lsh64Reg _ _ => 8
  | .rsh64Imm _ _ => 8
  | .rsh64Reg _ _ => 8
  | .neg64 _ => 8
  | .mod64Imm _ _ => 8
  | .mod64Reg _ _ => 8
  | .xor64Imm _ _ => 8
  | .xor64Reg _ _ => 8
  | .mov64Imm _ _ => 8
  | .mov64Reg _ _ => 8
  | .arsh64Imm _ _ => 8
  | .arsh64Reg _ _ => 8
  | .lddw _ _ => 16
  | .ldabsb _ _ => 8
  | .ldabsh _ _ => 8
  | .ldabsw _ _ => 8
  | .ldabsdw _ _ => 8
  | .ldxb _ _ _ => 8
  | .ldxh _ _ _ => 8
  | .ldxw _ _ _ => 8
  | .ldxdw _ _ _ => 8
  | .stxb _ _ _ => 8
  | .stxh _ _ _ => 8
  | .stxw _ _ _ => 8
  | .stxdw _ _ _ => 8
  | .ja _ => 8
  | .jeqImm _ _ _ => 8
  | .jeqReg _ _ _ => 8
  | .jgtImm _ _ _ => 8
  | .jgtReg _ _ _ => 8
  | .jgeImm _ _ _ => 8
  | .jgeReg _ _ _ => 8
  | .jltImm _ _ _ => 8
  | .jltReg _ _ _ => 8
  | .jleImm _ _ _ => 8
  | .jleReg _ _ _ => 8
  | .jneImm _ _ _ => 8
  | .jneReg _ _ _ => 8
  | .jsgtImm _ _ _ => 8
  | .jsgtReg _ _ _ => 8
  | .jsgeImm _ _ _ => 8
  | .jsgeReg _ _ _ => 8
  | .jsltImm _ _ _ => 8
  | .jsltReg _ _ _ => 8
  | .jsleImm _ _ _ => 8
  | .jsleReg _ _ _ => 8
  | .call _ => 8
  | .exit => 8
  | .invoke => 8
  | .log => 8
  | .cpiReturn => 8

end Sys2Proof
end

