-- ==== Sys2Proof/Machine/State.lean ====
section
/-! DEFINITION. The state of the block (10_state.md R20 to R50), the host's commands and answers (70_reset_and_hazards.md
R396) as plain data, the reasons a step can stop, and the state after power-on. -/

namespace Sys2Proof.Machine

/-! ## Kinds -/

/-- ENG_STATE (10_state.md R28). -/
inductive EngState where
  | idle
  | running
  | haltedSuccess
  | haltedFailure
deriving DecidableEq, Repr

/-- The failure kinds of 60_exceptions.md R350, in the order of their codes 1 to 11. -/
inductive FailKind where
  | insufficientBudget
  | memoryOutOfBounds
  | invalidOpcode
  | invalidRegister
  | stackOverflow
  | stackUnderflow
  | divisionByZero
  | noCheckpointAvailable
  | truncatedInstruction
  | pcOutOfBounds
  | stepLimitExceeded
deriving DecidableEq, Repr

/-- A failure with the info it records (00_scope.md R15, 41_engine.md R150). Only memoryOutOfBounds has an address and
a width; both are 0 for every other kind. -/
structure Raised where
  kind : FailKind
  addr : Word
  width : BitVec 4
deriving DecidableEq, Repr

/-- The access widths 1, 2, 4 and 8 bytes (20_memory.md R64), named as 43_load_store.md R220 names them. -/
inductive Width where
  | b
  | h
  | w
  | dw
deriving DecidableEq, Repr

/-- The cost categories, in the order of their numbers 0 to 7 (40_compute_meter.md R112). -/
inductive Category where
  | arith
  | memory
  | control
  | hash
  | sigverify
  | cpi
  | syscall
  | checkpoint
deriving DecidableEq, Repr

/-- One entry of the log, opaque to the block (10_state.md R42). DESIGN CHOICE (log 11): held as bytes. -/
structure LogEntry where
  bytes : List Byte
deriving DecidableEq, Repr

/-- The data memory as a sparse list of cells; an address not listed reads as Memory.unlisted (Machine/Memory.lean).
Its canonical form is Memory.wf. -/
abbrev Memory := List Host.Cell

/-- The register file R0 to R10 (10_state.md R20). -/
abbrev RegFile := Vector Word 11

/-! ## The parts of the state -/

/-- The result latches (10_state.md R33). RES_LOG_LEN is the length of resLog (log 3). -/
structure Latches where
  exitCode : Word
  failCode : BitVec 8
  failPc : Word
  failAddr : Word
  failWidth : BitVec 4
  resCuUsed : Word
  resCycUsed : Word
  resLog : List LogEntry
deriving DecidableEq, Repr

/-- The compute meter: budget registers, configuration registers, dynamic factors (10_state.md R34 to R36). -/
structure Meter where
  cuLimit : Word
  cycLimit : Word
  cuUsed : Word
  cycUsed : Word
  cfg : MeterConfig
  memPressure : BitVec 32
  proofComplexity : BitVec 32
deriving DecidableEq, Repr

/-- A snapshot (46_checkpoint.md R310). -/
structure Snapshot where
  regs : RegFile
  pc : Word
  mem : Memory
  cuUsed : Word
  cycUsed : Word
  logLen : Nat
  accounts : AccountState
  dirty : Bool
deriving DecidableEq, Repr

/-- An entry of the checkpoint stack (10_state.md R38). -/
structure Checkpoint where
  id : Word
  snap : Snapshot
deriving DecidableEq, Repr

/-- The checkpoint manager (10_state.md R38 to R41). The head of stack is the top. TXN_OPEN is whether txnBase holds a
snapshot; CKPT_DEPTH and CKPT_TOP_ID are read off stack (log 3). -/
structure CkptManager where
  stack : List Checkpoint
  txnBase : Option Snapshot
  nextId : Word
  dirty : Bool
deriving DecidableEq, Repr

/-! ## The host's commands and answers -/

/-- The host commands (70_reset_and_hazards.md R396). -/
inductive HostCommand where
  | run (bytes : List Byte)
  | csrRead (index : BitVec 8)
  | csrWrite (index : BitVec 8) (v : Word)
  | regRead (id : RegId)
  | regWrite (id : RegId) (v : Word)
  | memRead (addr : Word) (n : Width)
  | memWrite (addr : Word) (n : Width) (v : Word)
  | charge (category units : Word)
  | updateFactors (mp cl : BitVec 32)
  | beginTransaction (cuLimit cycLimit : Word)
  | commitTransaction
  | rollbackTransaction
  | createCheckpoint
  | commitCheckpoint (id : Word)
  | rollbackCheckpoint (id : Word)
  | logAppend (entry : LogEntry)
  | logRead (index : Word)
  | accountWrite (accounts : AccountState)
  | accountRead
deriving DecidableEq, Repr

/-- What a host command returns (70_reset_and_hazards.md R396). -/
inductive HostResponse where
  /-- the command succeeded and returns nothing -/
  | done
  /-- the command returns a u64 -/
  | value (v : Word)
  /-- the command returns a log entry -/
  | entry (e : LogEntry)
  /-- the command returns the account state -/
  | accounts (a : AccountState)
  /-- the command error of 60_exceptions.md R351 -/
  | error (kind : FailKind)
deriving DecidableEq, Repr

/-! ## The state -/

/-- The state of the block. -/
structure State where
  /-- the parameters of 00_scope.md R9; no step changes them (10_state.md R50, log 1) -/
  params : Params
  /-- R0 to R10 (10_state.md R20) -/
  regs : RegFile
  /-- the program counter, an instruction index (10_state.md R24) -/
  pc : Word
  /-- ENG_STATE (10_state.md R28) -/
  engState : EngState
  /-- the call stack, top first; CALL_DEPTH is its length (10_state.md R29, log 3) -/
  callStack : List Word
  /-- CPI_DEPTH (10_state.md R30) -/
  cpiDepth : Word
  /-- STEP_COUNT (10_state.md R31) -/
  stepCount : Word
  /-- the program store; PROG_LEN is its length (10_state.md R32, log 3) -/
  prog : List Decoded
  /-- PROG_BYTES (10_state.md R32) -/
  progBytes : Word
  /-- the result latches (10_state.md R33) -/
  latches : Latches
  /-- the compute meter (10_state.md R34 to R36) -/
  meter : Meter
  /-- the checkpoint manager (10_state.md R38 to R41) -/
  ckpt : CkptManager
  /-- the data memory (10_state.md R44, 20_memory.md R60) -/
  mem : Memory
  /-- the log; LOG_LEN is its length (10_state.md R42, log 3) -/
  log : List LogEntry
  /-- the account state (10_state.md R43) -/
  accounts : AccountState
  /-- the model's own: host commands issued and not yet taken, oldest first (log 5) -/
  hostIn : List HostCommand
  /-- the model's own: the answers given to host commands, oldest first (log 5) -/
  hostOut : List HostResponse
  /-- the model's own: a RUN has been taken and has not returned yet (41_engine.md R144, log 5) -/
  runPending : Bool
deriving DecidableEq, Repr

/-- The power-on state under given parameters: every value of 10_state.md R48 and 40_compute_meter.md R113. The two
host queues are empty and no RUN is pending (DESIGN CHOICE, log 5). -/
def State.powerOn (p : Params) : State where
  params := p
  regs := Vector.replicate 11 0
  pc := 0
  engState := .idle
  callStack := []
  cpiDepth := 0
  stepCount := 0
  prog := []
  progBytes := 0
  latches :=
    { exitCode := 0, failCode := 0, failPc := 0, failAddr := 0, failWidth := 0, resCuUsed := 0, resCycUsed := 0,
      resLog := [] }
  meter :=
    { cuLimit := 0, cycLimit := 0, cuUsed := 0, cycUsed := 0, cfg := p.meterInit, memPressure := 1000,
      proofComplexity := 1000 }
  ckpt := { stack := [], txnBase := none, nextId := 1, dirty := false }
  mem := []
  log := []
  accounts := p.accountsInit
  hostIn := []
  hostOut := []
  runPending := false

/-- The machine right after power-on reset (70_reset_and_hazards.md R390), with the reference parameters. -/
def State.reset : State := State.powerOn Params.reference

/-! ## Why a step can stop -/

/-- The faults. There is none: the spec describes every failure to its end, as an engine halt (41_engine.md R150) or as
a command error (60_exceptions.md R351), and both are next states (log 6). -/
inductive Fault
deriving DecidableEq, Repr

/-- The refusals. -/
inductive Refusal where
  /-- Raised by an arm of exec whose instruction has no meaning yet; no arm is left. Safe: the model stops. -/
  | notModelled (mnemonic : String)
deriving DecidableEq, Repr

end Sys2Proof.Machine
end

