-- ==== Sys2Proof/Machine/Memory.lean ====
section
/-! DEFINITION. The data memory's bytes (20_memory.md R60): a canonical sparse list, read and written a byte at a time,
and the little-endian values built from bytes (R62, R63, R65). Bounds are checked in Machine/Ops.lean. -/

namespace Sys2Proof.Machine

/-- What an address not listed reads as: 0, the power-on contents (10_state.md R48; log 12). -/
def Memory.unlisted : Byte := 0

/-- The byte at an address. -/
def Memory.get : Memory → Nat → Byte
  | [], _ => Memory.unlisted
  | (k, v) :: m, a => if k < a then Memory.get m a else if k = a then v else Memory.unlisted

/-- Write one byte, keeping the canonical form: writing what an unlisted address reads as removes the cell. -/
def Memory.set : Memory → Nat → Byte → Memory
  | [], a, v => if v = Memory.unlisted then [] else [(a, v)]
  | (k, w) :: m, a, v =>
    if k < a then (k, w) :: Memory.set m a v
    else if k = a then if v = Memory.unlisted then m else (a, v) :: m
    else if v = Memory.unlisted then (k, w) :: m else (a, v) :: (k, w) :: m

/-- The canonical form from an address on: addresses strictly rising and no cell that holds the unlisted value. -/
def Memory.wfFrom : Nat → Memory → Bool
  | _, [] => true
  | lo, (k, v) :: m => decide (lo ≤ k) && v != Memory.unlisted && Memory.wfFrom (k + 1) m

/-- The canonical form of the memory. -/
def Memory.wf (m : Memory) : Bool := Memory.wfFrom 0 m

/-- Every listed address is below a capacity (20_memory.md R60). -/
def Memory.below (cap : Nat) (m : Memory) : Bool := m.all fun c => decide (c.1 < cap)

/-- The u(8n) value of the n bytes from an address, lowest byte first, zero-extended to 64 bits (20_memory.md R62,
R65). -/
def Memory.readLE (m : Memory) (a : Nat) : (n : Nat) → Word
  | 0 => 0
  | n + 1 => (Memory.get m a).setWidth 64 ||| (Memory.readLE m (a + 1) n <<< 8)

/-- Write the low n bytes of a value from an address on, lowest byte first (20_memory.md R63, R65). -/
def Memory.writeLE (m : Memory) (a : Nat) : (n : Nat) → Word → Memory
  | 0, _ => m
  | n + 1, v => Memory.writeLE (Memory.set m a (v.setWidth 8)) (a + 1) n (v >>> 8)

end Sys2Proof.Machine
end

