-- ==== Sys2Proof/Machine/Ops.lean ====
section
/-! DEFINITION. The named operations over registers, memory, the program counter and the stacks, and the two halts: the
block's whole exception entry (60_exceptions.md R356). There is no return from a halt (R358). -/

namespace Sys2Proof.Machine

/-! ## Failure kinds -/

/-- The 8-bit code of a failure kind (60_exceptions.md R350). -/
def FailKind.code : FailKind → BitVec 8
  | .insufficientBudget => 1
  | .memoryOutOfBounds => 2
  | .invalidOpcode => 3
  | .invalidRegister => 4
  | .stackOverflow => 5
  | .stackUnderflow => 6
  | .divisionByZero => 7
  | .noCheckpointAvailable => 8
  | .truncatedInstruction => 9
  | .pcOutOfBounds => 10
  | .stepLimitExceeded => 11

/-- A failure that records no address and no width. -/
def Raised.plain (k : FailKind) : Raised := { kind := k, addr := 0, width := 0 }

/-- The number of bytes of an access width (20_memory.md R64). -/
def Width.bytes : Width → Nat
  | .b => 1
  | .h => 2
  | .w => 4
  | .dw => 8

/-- MemoryOutOfBounds(addr, n) (20_memory.md R62). -/
def Raised.outOfBounds (addr : Word) (n : Width) : Raised :=
  { kind := .memoryOutOfBounds, addr, width := BitVec.ofNat 4 n.bytes }

/-! ## Single-field updates -/

/-- The state with another program counter. -/
def State.withPc (s : State) (v : Word) : State := { s with pc := v }

/-- The state with another register file. -/
def State.withRegs (s : State) (v : RegFile) : State := { s with regs := v }

/-- The state with another memory image. -/
def State.withMem (s : State) (v : Memory) : State := { s with mem := v }

/-- The state with another call stack. -/
def State.withCallStack (s : State) (v : List Word) : State := { s with callStack := v }

/-- The state with another CPI_DEPTH. -/
def State.withCpiDepth (s : State) (v : Word) : State := { s with cpiDepth := v }

/-- The state with another STEP_COUNT. -/
def State.withStepCount (s : State) (v : Word) : State := { s with stepCount := v }

/-- The state with another compute meter. -/
def State.withMeter (s : State) (v : Meter) : State := { s with meter := v }

/-- The state with another checkpoint manager. -/
def State.withCkpt (s : State) (v : CkptManager) : State := { s with ckpt := v }

/-! ## Registers -/

/-- The word a register file holds under an id that names a register. -/
def RegFile.get (r : RegFile) (id : RegId) : Word := r[id.toNat]?.getD 0

/-- The register file with one register written. -/
def RegFile.set (r : RegFile) (id : RegId) (v : Word) : RegFile := r.setIfInBounds id.toNat v

/-- get(id): InvalidRegister when the id is above 10 (10_state.md R21). -/
def readReg (id : RegId) (s : State) : Except Raised Word :=
  if regIdOk id then .ok (RegFile.get s.regs id) else .error (.plain .invalidRegister)

/-- set(id, v): InvalidRegister when the id is above 10, no side effect beyond the store (10_state.md R21). No register
is hardwired (R22). -/
def writeReg (id : RegId) (v : Word) (s : State) : Except Raised State :=
  if regIdOk id then .ok (s.withRegs (RegFile.set s.regs id v)) else .error (.plain .invalidRegister)

/-! ## Memory -/

/-- The access is inside the memory image: the exact sum of address and width is at most MEM_CAPACITY (20_memory.md
R62, R67). -/
def inBounds (addr : Word) (n : Width) (s : State) : Bool := decide (addr.toNat + n.bytes ≤ s.params.memCapacity)

/-- MemRead(addr, n), zero-extended to 64 bits (20_memory.md R62). -/
def memRead (addr : Word) (n : Width) (s : State) : Except Raised Word :=
  if inBounds addr n s then .ok (Memory.readLE s.mem addr.toNat n.bytes) else .error (.outOfBounds addr n)

/-- MemWrite(addr, n, v), the low n bytes of v; out of bounds no byte is written (20_memory.md R63). -/
def memWrite (addr : Word) (n : Width) (v : Word) (s : State) : Except Raised State :=
  if inBounds addr n s then .ok (s.withMem (Memory.writeLE s.mem addr.toNat n.bytes v))
  else .error (.outOfBounds addr n)

/-! ## The program counter -/

/-- The default advance by one instruction index (41_engine.md R152). -/
def State.advance (s : State) : State := s.withPc (s.pc + 1)

/-- Add a displacement in instructions to the program counter, with wrap and no implicit +1 (44_branch.md R250). -/
def State.jumpBy (d : Word) (s : State) : State := s.withPc (s.pc + d)

/-! ## Halts -/

/-- Write ENG_STATE and every result latch; the budget and log latches copy the live values (41_engine.md R142, R150,
R151). -/
def State.latchHalt (s : State) (eng : EngState) (exitCode : Word) (failCode : BitVec 8) (failPc failAddr : Word)
    (failWidth : BitVec 4) : State :=
  { s with
    engState := eng
    latches :=
      { exitCode, failCode, failPc, failAddr, failWidth, resCuUsed := s.meter.cuUsed, resCycUsed := s.meter.cycUsed,
        resLog := s.log } }

/-- halt failure E(info): the block's exception entry (41_engine.md R150, 60_exceptions.md R356). pc keeps the index of
the failing instruction; no register, memory byte or stack entry is written. -/
def haltFailure (e : Raised) (s : State) : State :=
  s.latchHalt .haltedFailure 0 e.kind.code s.pc
    (if e.kind = .memoryOutOfBounds then e.addr else 0)
    (if e.kind = .memoryOutOfBounds then e.width else 0)

/-- halt success(code) (41_engine.md R151). -/
def haltSuccess (code : Word) (s : State) : State := s.latchHalt .haltedSuccess code 0 0 0 0

/-- The end of an instruction's dispatch: it completes, or its failure halts the engine in the state the instruction
found (41_engine.md R149, R153). -/
def finish (s : State) : Except Raised State → Host.Outcome State Fault Refusal
  | .ok t => .next t
  | .error e => .next (haltFailure e s)

end Sys2Proof.Machine
end

