-- ==== Sys2Proof/Machine/Operands.lean ====
section
/-! DEFINITION. Operand assembly (30_encoding.md R94) and the three addressing modes (43_load_store.md R220, R234). -/

namespace Sys2Proof.Machine

/-- An immediate operand of an 8-byte instruction: the 32-bit immediate sign-extended (30_encoding.md R94). -/
def immOperand (imm : BitVec 32) : Word := imm.signExtend 64

/-- A displacement: the 16-bit offset sign-extended (30_encoding.md R94). -/
def displacement (off : BitVec 16) : Word := off.signExtend 64

/-- The second operand B of an ALU or jump instruction (42_alu.md R170, 44_branch.md R250). -/
inductive Operand where
  | imm (v : BitVec 32)
  | reg (r : RegId)
deriving DecidableEq, Repr

/-- The value of a second operand: the extended immediate, or the register (30_encoding.md R94). -/
def Operand.value : Operand → State → Except Raised Word
  | .imm v, _ => .ok (immOperand v)
  | .reg r, s => readReg r s

/-- The effective address of an absolute load (43_load_store.md R220). -/
def absAddress (imm : BitVec 32) : Word := immOperand imm

/-- The effective address base plus displacement, wrapping modulo 2^64 (43_load_store.md R220, 20_memory.md R67). -/
def indAddress (base : Word) (off : BitVec 16) : Word := base + displacement off

end Sys2Proof.Machine
end

