-- ==== Sys2Proof/Machine/Alu.lean ====
section
/-! DEFINITION. The arithmetic and bitwise instructions (42_alu.md R170 to R197). Every result is 64 bits and no flag is
written (R196). -/

namespace Sys2Proof.Machine

/-! ## Results -/

/-- a +w b (42_alu.md R171). -/
def addResult (a b : Word) : Except Raised Word := .ok (a + b)

/-- a -w b (42_alu.md R173). -/
def subResult (a b : Word) : Except Raised Word := .ok (a - b)

/-- The low 64 bits of the product (42_alu.md R175). -/
def mulResult (a b : Word) : Except Raised Word := .ok (a * b)

/-- The unsigned quotient, DivisionByZero on a zero divisor (42_alu.md R177). -/
def divResult (a b : Word) : Except Raised Word :=
  if b = 0 then .error (.plain .divisionByZero) else .ok (a.udiv b)

/-- The unsigned remainder, DivisionByZero on a zero divisor (42_alu.md R179). -/
def modResult (a b : Word) : Except Raised Word :=
  if b = 0 then .error (.plain .divisionByZero) else .ok (a.umod b)

/-- a | b (42_alu.md R181). -/
def orResult (a b : Word) : Except Raised Word := .ok (a ||| b)

/-- a & b (42_alu.md R183). -/
def andResult (a b : Word) : Except Raised Word := .ok (a &&& b)

/-- a ^ b (42_alu.md R185). -/
def xorResult (a b : Word) : Except Raised Word := .ok (a ^^^ b)

/-- A shift amount: the operand modulo 64, its low 6 bits (42_alu.md R196). -/
def shiftAmount (b : Word) : Nat := (b &&& 63).toNat

/-- Shift left, vacated bits 0 (42_alu.md R187). -/
def lshResult (a b : Word) : Except Raised Word := .ok (a <<< shiftAmount b)

/-- Logical shift right, vacated bits 0 (42_alu.md R189). -/
def rshResult (a b : Word) : Except Raised Word := .ok (a >>> shiftAmount b)

/-- Arithmetic shift right, vacated bits copy bit 63 (42_alu.md R191). -/
def arshResult (a b : Word) : Except Raised Word := .ok (a.sshiftRight (shiftAmount b))

/-! ## The template -/

/-- Write the destination and advance (42_alu.md R170). -/
def writeAdvance (dst : RegId) (v : Word) (s : State) : Except Raised State := do
  let t ← writeReg dst v s
  return t.advance

/-- The template of 42_alu.md R170 for an instruction with operands A = x[dst] and B: both are read before the
destination is written. -/
def aluBinary (f : Word → Word → Except Raised Word) (dst : RegId) (b : Operand) (s : State) :
    Except Raised State := do
  let x ← readReg dst s
  let y ← b.value s
  let r ← f x y
  writeAdvance dst r s

/-- A move: dst is written, not read (42_alu.md R194, R195). -/
def aluMove (dst : RegId) (b : Operand) (s : State) : Except Raised State := do
  let y ← b.value s
  writeAdvance dst y s

/-- The one unary operation, 0 -w x[dst] (42_alu.md R193). -/
def aluNegate (dst : RegId) (s : State) : Except Raised State := do
  let x ← readReg dst s
  writeAdvance dst (0 - x) s

/-! ## The instructions -/

/-- `add64 (imm)` (42_alu.md R171). -/
def execAdd64Imm (dst : RegId) (imm : BitVec 32) (s : State) : Host.Outcome State Fault Refusal :=
  finish s (aluBinary addResult dst (.imm imm) s)

/-- `add64 (reg)` (42_alu.md R172). -/
def execAdd64Reg (dst src : RegId) (s : State) : Host.Outcome State Fault Refusal :=
  finish s (aluBinary addResult dst (.reg src) s)

/-- `sub64 (imm)` (42_alu.md R173). -/
def execSub64Imm (dst : RegId) (imm : BitVec 32) (s : State) : Host.Outcome State Fault Refusal :=
  finish s (aluBinary subResult dst (.imm imm) s)

/-- `sub64 (reg)` (42_alu.md R174). -/
def execSub64Reg (dst src : RegId) (s : State) : Host.Outcome State Fault Refusal :=
  finish s (aluBinary subResult dst (.reg src) s)

/-- `mul64 (imm)` (42_alu.md R175). -/
def execMul64Imm (dst : RegId) (imm : BitVec 32) (s : State) : Host.Outcome State Fault Refusal :=
  finish s (aluBinary mulResult dst (.imm imm) s)

/-- `mul64 (reg)` (42_alu.md R176). -/
def execMul64Reg (dst src : RegId) (s : State) : Host.Outcome State Fault Refusal :=
  finish s (aluBinary mulResult dst (.reg src) s)

/-- `div64 (imm)` (42_alu.md R177). -/
def execDiv64Imm (dst : RegId) (imm : BitVec 32) (s : State) : Host.Outcome State Fault Refusal :=
  finish s (aluBinary divResult dst (.imm imm) s)

/-- `div64 (reg)` (42_alu.md R178). -/
def execDiv64Reg (dst src : RegId) (s : State) : Host.Outcome State Fault Refusal :=
  finish s (aluBinary divResult dst (.reg src) s)

/-- `mod64 (imm)` (42_alu.md R179). -/
def execMod64Imm (dst : RegId) (imm : BitVec 32) (s : State) : Host.Outcome State Fault Refusal :=
  finish s (aluBinary modResult dst (.imm imm) s)

/-- `mod64 (reg)` (42_alu.md R180). -/
def execMod64Reg (dst src : RegId) (s : State) : Host.Outcome State Fault Refusal :=
  finish s (aluBinary modResult dst (.reg src) s)

/-- `or64 (imm)` (42_alu.md R181). -/
def execOr64Imm (dst : RegId) (imm : BitVec 32) (s : State) : Host.Outcome State Fault Refusal :=
  finish s (aluBinary orResult dst (.imm imm) s)

/-- `or64 (reg)` (42_alu.md R182). -/
def execOr64Reg (dst src : RegId) (s : State) : Host.Outcome State Fault Refusal :=
  finish s (aluBinary orResult dst (.reg src) s)

/-- `and64 (imm)` (42_alu.md R183). -/
def execAnd64Imm (dst : RegId) (imm : BitVec 32) (s : State) : Host.Outcome State Fault Refusal :=
  finish s (aluBinary andResult dst (.imm imm) s)

/-- `and64 (reg)` (42_alu.md R184). -/
def execAnd64Reg (dst src : RegId) (s : State) : Host.Outcome State Fault Refusal :=
  finish s (aluBinary andResult dst (.reg src) s)

/-- `xor64 (imm)` (42_alu.md R185). -/
def execXor64Imm (dst : RegId) (imm : BitVec 32) (s : State) : Host.Outcome State Fault Refusal :=
  finish s (aluBinary xorResult dst (.imm imm) s)

/-- `xor64 (reg)` (42_alu.md R186). -/
def execXor64Reg (dst src : RegId) (s : State) : Host.Outcome State Fault Refusal :=
  finish s (aluBinary xorResult dst (.reg src) s)

/-- `lsh64 (imm)` (42_alu.md R187). -/
def execLsh64Imm (dst : RegId) (imm : BitVec 32) (s : State) : Host.Outcome State Fault Refusal :=
  finish s (aluBinary lshResult dst (.imm imm) s)

/-- `lsh64 (reg)` (42_alu.md R188). -/
def execLsh64Reg (dst src : RegId) (s : State) : Host.Outcome State Fault Refusal :=
  finish s (aluBinary lshResult dst (.reg src) s)

/-- `rsh64 (imm)` (42_alu.md R189). -/
def execRsh64Imm (dst : RegId) (imm : BitVec 32) (s : State) : Host.Outcome State Fault Refusal :=
  finish s (aluBinary rshResult dst (.imm imm) s)

/-- `rsh64 (reg)` (42_alu.md R190). -/
def execRsh64Reg (dst src : RegId) (s : State) : Host.Outcome State Fault Refusal :=
  finish s (aluBinary rshResult dst (.reg src) s)

/-- `arsh64 (imm)` (42_alu.md R191). -/
def execArsh64Imm (dst : RegId) (imm : BitVec 32) (s : State) : Host.Outcome State Fault Refusal :=
  finish s (aluBinary arshResult dst (.imm imm) s)

/-- `arsh64 (reg)` (42_alu.md R192). -/
def execArsh64Reg (dst src : RegId) (s : State) : Host.Outcome State Fault Refusal :=
  finish s (aluBinary arshResult dst (.reg src) s)

/-- `neg64` (42_alu.md R193). -/
def execNeg64 (dst : RegId) (s : State) : Host.Outcome State Fault Refusal :=
  finish s (aluNegate dst s)

/-- `mov64 (imm)` (42_alu.md R194). -/
def execMov64Imm (dst : RegId) (imm : BitVec 32) (s : State) : Host.Outcome State Fault Refusal :=
  finish s (aluMove dst (.imm imm) s)

/-- `mov64 (reg)` (42_alu.md R195). -/
def execMov64Reg (dst src : RegId) (s : State) : Host.Outcome State Fault Refusal :=
  finish s (aluMove dst (.reg src) s)

end Sys2Proof.Machine
end

