-- ==== Sys2Proof/Machine/Flags.lean ====
section
/-! DEFINITION. The block has no flags (10_state.md R27): a conditional jump computes its comparison and uses it in the
same step. This file holds the ten comparisons (44_branch.md R250), A the first operand and B the second. -/

namespace Sys2Proof.Machine

/-- A = B (44_branch.md R252). -/
def condEq (a b : Word) : Bool := a == b

/-- A ≠ B (44_branch.md R262). -/
def condNe (a b : Word) : Bool := a != b

/-- A > B unsigned (44_branch.md R254). -/
def condGt (a b : Word) : Bool := b.ult a

/-- A ≥ B unsigned (44_branch.md R256). -/
def condGe (a b : Word) : Bool := b.ule a

/-- A < B unsigned (44_branch.md R258). -/
def condLt (a b : Word) : Bool := a.ult b

/-- A ≤ B unsigned (44_branch.md R260). -/
def condLe (a b : Word) : Bool := a.ule b

/-- A > B signed (44_branch.md R264). -/
def condSgt (a b : Word) : Bool := b.slt a

/-- A ≥ B signed (44_branch.md R266). -/
def condSge (a b : Word) : Bool := b.sle a

/-- A < B signed (44_branch.md R268). -/
def condSlt (a b : Word) : Bool := a.slt b

/-- A ≤ B signed (44_branch.md R270). -/
def condSle (a b : Word) : Bool := a.sle b

end Sys2Proof.Machine
end

