-- ==== Sys2Proof/Machine/Branch.lean ====
section
/-! DEFINITION. Jumps and conditional branches (44_branch.md R250 to R273). No register is written and a jump itself
never fails: a target outside the program halts at the next fetch (R273). -/

namespace Sys2Proof.Machine

/-- The template of 44_branch.md R250: on a true comparison pc moves by the displacement, else to the next index. -/
def condJump (cond : Word → Word → Bool) (dst : RegId) (b : Operand) (off : BitVec 16) (s : State) :
    Except Raised State := do
  let x ← readReg dst s
  let y ← b.value s
  return if cond x y then s.jumpBy (displacement off) else s.advance

/-- `ja` (44_branch.md R251). -/
def execJa (off : BitVec 16) (s : State) : Host.Outcome State Fault Refusal :=
  finish s (.ok (s.jumpBy (displacement off)))

/-- `jeq (imm)` (44_branch.md R252). -/
def execJeqImm (dst : RegId) (imm : BitVec 32) (off : BitVec 16) (s : State) : Host.Outcome State Fault Refusal :=
  finish s (condJump condEq dst (.imm imm) off s)

/-- `jeq (reg)` (44_branch.md R253). -/
def execJeqReg (dst src : RegId) (off : BitVec 16) (s : State) : Host.Outcome State Fault Refusal :=
  finish s (condJump condEq dst (.reg src) off s)

/-- `jne (imm)` (44_branch.md R262). -/
def execJneImm (dst : RegId) (imm : BitVec 32) (off : BitVec 16) (s : State) : Host.Outcome State Fault Refusal :=
  finish s (condJump condNe dst (.imm imm) off s)

/-- `jne (reg)` (44_branch.md R263). -/
def execJneReg (dst src : RegId) (off : BitVec 16) (s : State) : Host.Outcome State Fault Refusal :=
  finish s (condJump condNe dst (.reg src) off s)

/-- `jgt (imm)` (44_branch.md R254). -/
def execJgtImm (dst : RegId) (imm : BitVec 32) (off : BitVec 16) (s : State) : Host.Outcome State Fault Refusal :=
  finish s (condJump condGt dst (.imm imm) off s)

/-- `jgt (reg)` (44_branch.md R255). -/
def execJgtReg (dst src : RegId) (off : BitVec 16) (s : State) : Host.Outcome State Fault Refusal :=
  finish s (condJump condGt dst (.reg src) off s)

/-- `jge (imm)` (44_branch.md R256). -/
def execJgeImm (dst : RegId) (imm : BitVec 32) (off : BitVec 16) (s : State) : Host.Outcome State Fault Refusal :=
  finish s (condJump condGe dst (.imm imm) off s)

/-- `jge (reg)` (44_branch.md R257). -/
def execJgeReg (dst src : RegId) (off : BitVec 16) (s : State) : Host.Outcome State Fault Refusal :=
  finish s (condJump condGe dst (.reg src) off s)

/-- `jlt (imm)` (44_branch.md R258). -/
def execJltImm (dst : RegId) (imm : BitVec 32) (off : BitVec 16) (s : State) : Host.Outcome State Fault Refusal :=
  finish s (condJump condLt dst (.imm imm) off s)

/-- `jlt (reg)` (44_branch.md R259). -/
def execJltReg (dst src : RegId) (off : BitVec 16) (s : State) : Host.Outcome State Fault Refusal :=
  finish s (condJump condLt dst (.reg src) off s)

/-- `jle (imm)` (44_branch.md R260). -/
def execJleImm (dst : RegId) (imm : BitVec 32) (off : BitVec 16) (s : State) : Host.Outcome State Fault Refusal :=
  finish s (condJump condLe dst (.imm imm) off s)

/-- `jle (reg)` (44_branch.md R261). -/
def execJleReg (dst src : RegId) (off : BitVec 16) (s : State) : Host.Outcome State Fault Refusal :=
  finish s (condJump condLe dst (.reg src) off s)

/-- `jsgt (imm)` (44_branch.md R264). -/
def execJsgtImm (dst : RegId) (imm : BitVec 32) (off : BitVec 16) (s : State) : Host.Outcome State Fault Refusal :=
  finish s (condJump condSgt dst (.imm imm) off s)

/-- `jsgt (reg)` (44_branch.md R265). -/
def execJsgtReg (dst src : RegId) (off : BitVec 16) (s : State) : Host.Outcome State Fault Refusal :=
  finish s (condJump condSgt dst (.reg src) off s)

/-- `jsge (imm)` (44_branch.md R266). -/
def execJsgeImm (dst : RegId) (imm : BitVec 32) (off : BitVec 16) (s : State) : Host.Outcome State Fault Refusal :=
  finish s (condJump condSge dst (.imm imm) off s)

/-- `jsge (reg)` (44_branch.md R267). -/
def execJsgeReg (dst src : RegId) (off : BitVec 16) (s : State) : Host.Outcome State Fault Refusal :=
  finish s (condJump condSge dst (.reg src) off s)

/-- `jslt (imm)` (44_branch.md R268). -/
def execJsltImm (dst : RegId) (imm : BitVec 32) (off : BitVec 16) (s : State) : Host.Outcome State Fault Refusal :=
  finish s (condJump condSlt dst (.imm imm) off s)

/-- `jslt (reg)` (44_branch.md R269). -/
def execJsltReg (dst src : RegId) (off : BitVec 16) (s : State) : Host.Outcome State Fault Refusal :=
  finish s (condJump condSlt dst (.reg src) off s)

/-- `jsle (imm)` (44_branch.md R270). -/
def execJsleImm (dst : RegId) (imm : BitVec 32) (off : BitVec 16) (s : State) : Host.Outcome State Fault Refusal :=
  finish s (condJump condSle dst (.imm imm) off s)

/-- `jsle (reg)` (44_branch.md R271). -/
def execJsleReg (dst src : RegId) (off : BitVec 16) (s : State) : Host.Outcome State Fault Refusal :=
  finish s (condJump condSle dst (.reg src) off s)

end Sys2Proof.Machine
end

