-- ==== Sys2Proof/Machine/CallExit.lean ====
section
/-! DEFINITION. Call, exit and the extension instructions (45_call_exit_ext.md R290 to R297). -/

namespace Sys2Proof.Machine

/-- Push the call's own index and jump; StackOverflow when CALL_DEPTH is MAX_CALL_DEPTH (45_call_exit_ext.md R290,
R297). -/
def callBy (d : Word) (s : State) : Except Raised State :=
  if s.callStack.length = s.params.maxCallDepth then .error (.plain .stackOverflow)
  else .ok ((s.withCallStack (s.pc :: s.callStack)).jumpBy d)

/-- Pop and resume after the call, or end the program with x[0] as the exit code (45_call_exit_ext.md R291). -/
def returnOrHalt (s : State) : State :=
  match s.callStack with
  | p :: rest => (s.withCallStack rest).withPc (p + 1)
  | [] => haltSuccess (RegFile.get s.regs 0) s

/-- Open one cross-program invocation level; StackOverflow at MAX_CPI_DEPTH (45_call_exit_ext.md R293). -/
def openInvocation (s : State) : Except Raised State :=
  if s.cpiDepth.toNat = s.params.maxCpiDepth then .error (.plain .stackOverflow)
  else .ok (s.withCpiDepth (s.cpiDepth + 1)).advance

/-- Close one cross-program invocation level; StackUnderflow at depth 0 (45_call_exit_ext.md R295). -/
def closeInvocation (s : State) : Except Raised State :=
  if s.cpiDepth = 0 then .error (.plain .stackUnderflow)
  else .ok (s.withCpiDepth (s.cpiDepth - 1)).advance

/-- `call` (45_call_exit_ext.md R290). -/
def execCall (imm : BitVec 32) (s : State) : Host.Outcome State Fault Refusal :=
  finish s (callBy (immOperand imm) s)

/-- `exit` (45_call_exit_ext.md R291). -/
def execExit (s : State) : Host.Outcome State Fault Refusal :=
  finish s (.ok (returnOrHalt s))

/-- `invoke` (45_call_exit_ext.md R293). -/
def execInvoke (s : State) : Host.Outcome State Fault Refusal :=
  finish s (openInvocation s)

/-- `log`: a no-op at this layer; it appends nothing to the log (45_call_exit_ext.md R294). -/
def execLog (s : State) : Host.Outcome State Fault Refusal :=
  finish s (.ok s.advance)

/-- `return` (45_call_exit_ext.md R295). -/
def execCpiReturn (s : State) : Host.Outcome State Fault Refusal :=
  finish s (closeInvocation s)

end Sys2Proof.Machine
end

