-- ==== Sys2Proof/Machine/LoadStore.lean ====
section
/-! DEFINITION. The wide immediate load, the loads and the stores (43_load_store.md R220 to R235). -/

namespace Sys2Proof.Machine

/-! ## The template -/

/-- A load of n bytes from an effective address into dst, zero-extended (43_load_store.md R220, R235). -/
def loadInto (dst : RegId) (ea : Word) (n : Width) (s : State) : Except Raised State := do
  let v ← memRead ea n s
  writeAdvance dst v s

/-- An indirect load: the address is formed from x[src] before dst is written (43_load_store.md R220, R235). -/
def loadIndirect (dst src : RegId) (off : BitVec 16) (n : Width) (s : State) : Except Raised State := do
  let base ← readReg src s
  loadInto dst (indAddress base off) n s

/-- A store of the low n bytes of x[src] at x[dst] plus the displacement; no register is written (43_load_store.md
R220, R235). -/
def storeIndirect (dst src : RegId) (off : BitVec 16) (n : Width) (s : State) : Except Raised State := do
  let base ← readReg dst s
  let v ← readReg src s
  let t ← memWrite (indAddress base off) n v s
  return t.advance

/-! ## The instructions -/

/-- `lddw`: the wide immediate taken whole; it reaches no memory and takes one instruction index (43_load_store.md
R221). -/
def execLddw (dst : RegId) (imm64 : BitVec 64) (s : State) : Host.Outcome State Fault Refusal :=
  finish s (writeAdvance dst imm64 s)

/-- `ldabsb` (43_load_store.md R222). -/
def execLdabsb (dst : RegId) (imm : BitVec 32) (s : State) : Host.Outcome State Fault Refusal :=
  finish s (loadInto dst (absAddress imm) .b s)

/-- `ldabsh` (43_load_store.md R223). -/
def execLdabsh (dst : RegId) (imm : BitVec 32) (s : State) : Host.Outcome State Fault Refusal :=
  finish s (loadInto dst (absAddress imm) .h s)

/-- `ldabsw` (43_load_store.md R224). -/
def execLdabsw (dst : RegId) (imm : BitVec 32) (s : State) : Host.Outcome State Fault Refusal :=
  finish s (loadInto dst (absAddress imm) .w s)

/-- `ldabsdw` (43_load_store.md R225). -/
def execLdabsdw (dst : RegId) (imm : BitVec 32) (s : State) : Host.Outcome State Fault Refusal :=
  finish s (loadInto dst (absAddress imm) .dw s)

/-- `ldxb` (43_load_store.md R226). -/
def execLdxb (dst src : RegId) (off : BitVec 16) (s : State) : Host.Outcome State Fault Refusal :=
  finish s (loadIndirect dst src off .b s)

/-- `ldxh` (43_load_store.md R227). -/
def execLdxh (dst src : RegId) (off : BitVec 16) (s : State) : Host.Outcome State Fault Refusal :=
  finish s (loadIndirect dst src off .h s)

/-- `ldxw` (43_load_store.md R228). -/
def execLdxw (dst src : RegId) (off : BitVec 16) (s : State) : Host.Outcome State Fault Refusal :=
  finish s (loadIndirect dst src off .w s)

/-- `ldxdw` (43_load_store.md R229). -/
def execLdxdw (dst src : RegId) (off : BitVec 16) (s : State) : Host.Outcome State Fault Refusal :=
  finish s (loadIndirect dst src off .dw s)

/-- `stxb` (43_load_store.md R230). -/
def execStxb (dst src : RegId) (off : BitVec 16) (s : State) : Host.Outcome State Fault Refusal :=
  finish s (storeIndirect dst src off .b s)

/-- `stxh` (43_load_store.md R231). -/
def execStxh (dst src : RegId) (off : BitVec 16) (s : State) : Host.Outcome State Fault Refusal :=
  finish s (storeIndirect dst src off .h s)

/-- `stxw` (43_load_store.md R232). -/
def execStxw (dst src : RegId) (off : BitVec 16) (s : State) : Host.Outcome State Fault Refusal :=
  finish s (storeIndirect dst src off .w s)

/-- `stxdw` (43_load_store.md R233). -/
def execStxdw (dst src : RegId) (off : BitVec 16) (s : State) : Host.Outcome State Fault Refusal :=
  finish s (storeIndirect dst src off .dw s)

end Sys2Proof.Machine
end

