-- ==== Sys2Proof/Machine/Dispatch.lean ====
section
/-! DEFINITION. Dispatch on the instruction (41_engine.md R149): one arm per constructor of Instr. -/

namespace Sys2Proof.Machine

def exec (i : Instr) (s : State) : Host.Outcome State Fault Refusal :=
  match i with
  | .add64Imm dst imm => Sys2Proof.Machine.execAdd64Imm dst imm s
  | .add64Reg dst src => Sys2Proof.Machine.execAdd64Reg dst src s
  | .sub64Imm dst imm => Sys2Proof.Machine.execSub64Imm dst imm s
  | .sub64Reg dst src => Sys2Proof.Machine.execSub64Reg dst src s
  | .mul64Imm dst imm => Sys2Proof.Machine.execMul64Imm dst imm s
  | .mul64Reg dst src => Sys2Proof.Machine.execMul64Reg dst src s
  | .div64Imm dst imm => Sys2Proof.Machine.execDiv64Imm dst imm s
  | .div64Reg dst src => Sys2Proof.Machine.execDiv64Reg dst src s
  | .or64Imm dst imm => Sys2Proof.Machine.execOr64Imm dst imm s
  | .or64Reg dst src => Sys2Proof.Machine.execOr64Reg dst src s
  | .and64Imm dst imm => Sys2Proof.Machine.execAnd64Imm dst imm s
  | .and64Reg dst src => Sys2Proof.Machine.execAnd64Reg dst src s
  | .lsh64Imm dst imm => Sys2Proof.Machine.execLsh64Imm dst imm s
  | .lsh64Reg dst src => Sys2Proof.Machine.execLsh64Reg dst src s
  | .rsh64Imm dst imm => Sys2Proof.Machine.execRsh64Imm dst imm s
  | .rsh64Reg dst src => Sys2Proof.Machine.execRsh64Reg dst src s
  | .neg64 dst => Sys2Proof.Machine.execNeg64 dst s
  | .mod64Imm dst imm => Sys2Proof.Machine.execMod64Imm dst imm s
  | .mod64Reg dst src => Sys2Proof.Machine.execMod64Reg dst src s
  | .xor64Imm dst imm => Sys2Proof.Machine.execXor64Imm dst imm s
  | .xor64Reg dst src => Sys2Proof.Machine.execXor64Reg dst src s
  | .mov64Imm dst imm => Sys2Proof.Machine.execMov64Imm dst imm s
  | .mov64Reg dst src => Sys2Proof.Machine.execMov64Reg dst src s
  | .arsh64Imm dst imm => Sys2Proof.Machine.execArsh64Imm dst imm s
  | .arsh64Reg dst src => Sys2Proof.Machine.execArsh64Reg dst src s
  | .lddw dst imm64 => Sys2Proof.Machine.execLddw dst imm64 s
  | .ldabsb dst imm => Sys2Proof.Machine.execLdabsb dst imm s
  | .ldabsh dst imm => Sys2Proof.Machine.execLdabsh dst imm s
  | .ldabsw dst imm => Sys2Proof.Machine.execLdabsw dst imm s
  | .ldabsdw dst imm => Sys2Proof.Machine.execLdabsdw dst imm s
  | .ldxb dst src off => Sys2Proof.Machine.execLdxb dst src off s
  | .ldxh dst src off => Sys2Proof.Machine.execLdxh dst src off s
  | .ldxw dst src off => Sys2Proof.Machine.execLdxw dst src off s
  | .ldxdw dst src off => Sys2Proof.Machine.execLdxdw dst src off s
  | .stxb dst src off => Sys2Proof.Machine.execStxb dst src off s
  | .stxh dst src off => Sys2Proof.Machine.execStxh dst src off s
  | .stxw dst src off => Sys2Proof.Machine.execStxw dst src off s
  | .stxdw dst src off => Sys2Proof.Machine.execStxdw dst src off s
  | .ja off => Sys2Proof.Machine.execJa off s
  | .jeqImm dst imm off => Sys2Proof.Machine.execJeqImm dst imm off s
  | .jeqReg dst src off => Sys2Proof.Machine.execJeqReg dst src off s
  | .jgtImm dst imm off => Sys2Proof.Machine.execJgtImm dst imm off s
  | .jgtReg dst src off => Sys2Proof.Machine.execJgtReg dst src off s
  | .jgeImm dst imm off => Sys2Proof.Machine.execJgeImm dst imm off s
  | .jgeReg dst src off => Sys2Proof.Machine.execJgeReg dst src off s
  | .jltImm dst imm off => Sys2Proof.Machine.execJltImm dst imm off s
  | .jltReg dst src off => Sys2Proof.Machine.execJltReg dst src off s
  | .jleImm dst imm off => Sys2Proof.Machine.execJleImm dst imm off s
  | .jleReg dst src off => Sys2Proof.Machine.execJleReg dst src off s
  | .jneImm dst imm off => Sys2Proof.Machine.execJneImm dst imm off s
  | .jneReg dst src off => Sys2Proof.Machine.execJneReg dst src off s
  | .jsgtImm dst imm off => Sys2Proof.Machine.execJsgtImm dst imm off s
  | .jsgtReg dst src off => Sys2Proof.Machine.execJsgtReg dst src off s
  | .jsgeImm dst imm off => Sys2Proof.Machine.execJsgeImm dst imm off s
  | .jsgeReg dst src off => Sys2Proof.Machine.execJsgeReg dst src off s
  | .jsltImm dst imm off => Sys2Proof.Machine.execJsltImm dst imm off s
  | .jsltReg dst src off => Sys2Proof.Machine.execJsltReg dst src off s
  | .jsleImm dst imm off => Sys2Proof.Machine.execJsleImm dst imm off s
  | .jsleReg dst src off => Sys2Proof.Machine.execJsleReg dst src off s
  | .call imm => Sys2Proof.Machine.execCall imm s
  | .exit => Sys2Proof.Machine.execExit s
  | .invoke => Sys2Proof.Machine.execInvoke s
  | .log => Sys2Proof.Machine.execLog s
  | .cpiReturn => Sys2Proof.Machine.execCpiReturn s

end Sys2Proof.Machine
end

