-- ==== Sys2Proof/Machine/Meter.lean ====
section
/-! DEFINITION. The compute meter (40_compute_meter.md R110 to R127). -/

namespace Sys2Proof.Machine

/-- The number of a category (40_compute_meter.md R112). -/
def Category.num : Category → Nat
  | .arith => 0
  | .memory => 1
  | .control => 2
  | .hash => 3
  | .sigverify => 4
  | .cpi => 5
  | .syscall => 6
  | .checkpoint => 7

/-- The category of a number, none above 7 (40_compute_meter.md R112, 70_reset_and_hazards.md R396). -/
def Category.ofNum? (n : Nat) : Option Category :=
  [Category.arith, .memory, .control, .hash, .sigverify, .cpi, .syscall, .checkpoint][n]?

/-- MULT[c] (10_state.md R35). -/
def multOf (cfg : MeterConfig) (c : Category) : BitVec 32 := cfg.mult[c.num]?.getD 0

/-- The cost in compute units: the exact product of the five factors, one floor (40_compute_meter.md R114, R126). -/
def costCu (m : Meter) (c : Category) (units : Nat) : Nat :=
  units * m.cfg.baseRate.toNat * (multOf m.cfg c).toNat * m.memPressure.toNat * m.proofComplexity.toNat / 10 ^ 9

/-- The cost in proof cycles (40_compute_meter.md R116). -/
def costCyc (m : Meter) (c : Category) (units : Nat) : Nat := costCu m c units * m.cfg.cyclesPerCu.toNat

/-- The budget condition, in exact integers (40_compute_meter.md R117). -/
def chargeFits (m : Meter) (c : Category) (units : Nat) : Bool :=
  decide (m.cuUsed.toNat + costCu m c units ≤ m.cuLimit.toNat) &&
    decide (m.cycUsed.toNat + costCyc m c units ≤ m.cycLimit.toNat)

/-- The meter with a cost committed to both domains (40_compute_meter.md R118). -/
def commitCharge (m : Meter) (c : Category) (units : Nat) : Meter :=
  { m with
    cuUsed := BitVec.ofNat 64 (m.cuUsed.toNat + costCu m c units)
    cycUsed := BitVec.ofNat 64 (m.cycUsed.toNat + costCyc m c units) }

/-- Charge(c, units): commits to both domains, or raises InsufficientBudget and changes nothing (40_compute_meter.md
R118, R119). -/
def charge (c : Category) (units : Nat) (s : State) : Except Raised State :=
  if chargeFits s.meter c units then .ok (s.withMeter (commitCharge s.meter c units))
  else .error (.plain .insufficientBudget)

/-- The category and raw units of an instruction's charge (40_compute_meter.md R115). -/
def chargeOf (cfg : MeterConfig) : Instr → Category × Nat
  | .add64Imm _ _ => (.arith, 1)
  | .add64Reg _ _ => (.arith, 1)
  | .sub64Imm _ _ => (.arith, 1)
  | .sub64Reg _ _ => (.arith, 1)
  | .mul64Imm _ _ => (.arith, 1)
  | .mul64Reg _ _ => (.arith, 1)
  | .div64Imm _ _ => (.arith, 1)
  | .div64Reg _ _ => (.arith, 1)
  | .or64Imm _ _ => (.arith, 1)
  | .or64Reg _ _ => (.arith, 1)
  | .and64Imm _ _ => (.arith, 1)
  | .and64Reg _ _ => (.arith, 1)
  | .lsh64Imm _ _ => (.arith, 1)
  | .lsh64Reg _ _ => (.arith, 1)
  | .rsh64Imm _ _ => (.arith, 1)
  | .rsh64Reg _ _ => (.arith, 1)
  | .neg64 _ => (.arith, 1)
  | .mod64Imm _ _ => (.arith, 1)
  | .mod64Reg _ _ => (.arith, 1)
  | .xor64Imm _ _ => (.arith, 1)
  | .xor64Reg _ _ => (.arith, 1)
  | .mov64Imm _ _ => (.arith, 1)
  | .mov64Reg _ _ => (.arith, 1)
  | .arsh64Imm _ _ => (.arith, 1)
  | .arsh64Reg _ _ => (.arith, 1)
  | .lddw _ _ => (.arith, 1)
  | .ldabsb _ _ => (.memory, 1)
  | .ldabsh _ _ => (.memory, 1)
  | .ldabsw _ _ => (.memory, 1)
  | .ldabsdw _ _ => (.memory, 1)
  | .ldxb _ _ _ => (.memory, 1)
  | .ldxh _ _ _ => (.memory, 1)
  | .ldxw _ _ _ => (.memory, 1)
  | .ldxdw _ _ _ => (.memory, 1)
  | .stxb _ _ _ => (.memory, 1)
  | .stxh _ _ _ => (.memory, 1)
  | .stxw _ _ _ => (.memory, 1)
  | .stxdw _ _ _ => (.memory, 1)
  | .ja _ => (.control, 1)
  | .jeqImm _ _ _ => (.control, 1)
  | .jeqReg _ _ _ => (.control, 1)
  | .jgtImm _ _ _ => (.control, 1)
  | .jgtReg _ _ _ => (.control, 1)
  | .jgeImm _ _ _ => (.control, 1)
  | .jgeReg _ _ _ => (.control, 1)
  | .jltImm _ _ _ => (.control, 1)
  | .jltReg _ _ _ => (.control, 1)
  | .jleImm _ _ _ => (.control, 1)
  | .jleReg _ _ _ => (.control, 1)
  | .jneImm _ _ _ => (.control, 1)
  | .jneReg _ _ _ => (.control, 1)
  | .jsgtImm _ _ _ => (.control, 1)
  | .jsgtReg _ _ _ => (.control, 1)
  | .jsgeImm _ _ _ => (.control, 1)
  | .jsgeReg _ _ _ => (.control, 1)
  | .jsltImm _ _ _ => (.control, 1)
  | .jsltReg _ _ _ => (.control, 1)
  | .jsleImm _ _ _ => (.control, 1)
  | .jsleReg _ _ _ => (.control, 1)
  | .call _ => (.control, 1)
  | .exit => (.control, 1)
  | .invoke => (.cpi, cfg.invokeUnits.toNat)
  | .log => (.syscall, cfg.logUnits.toNat)
  | .cpiReturn => (.syscall, cfg.returnUnits.toNat)

/-- UPDATE_FACTORS: both dynamic factors written together, for later charges only (40_compute_meter.md R120). -/
def updateFactors (mp cl : BitVec 32) (s : State) : State :=
  s.withMeter { s.meter with memPressure := mp, proofComplexity := cl }

end Sys2Proof.Machine
end

