-- ==== Sys2Proof/Machine/Checkpoint.lean ====
section
/-! DEFINITION. The transactional checkpoint and rollback engine (46_checkpoint.md R310 to R327). Each command answers
the state after it, or the command error and no state (R322). -/

namespace Sys2Proof.Machine

/-- TXN_OPEN (10_state.md R39, log 3). -/
def State.txnOpen (s : State) : Bool := s.ckpt.txnBase.isSome

/-- CKPT_DEPTH (10_state.md R38, log 3). -/
def State.ckptDepth (s : State) : Nat := s.ckpt.stack.length

/-- CKPT_TOP_ID: the id on top, 0 when the stack is empty (10_state.md R38, log 3). -/
def State.ckptTopId (s : State) : Word :=
  match s.ckpt.stack with
  | [] => 0
  | c :: _ => c.id

/-- Capture() (46_checkpoint.md R311). -/
def capture (s : State) : Snapshot where
  regs := s.regs
  pc := s.pc
  mem := s.mem
  cuUsed := s.meter.cuUsed
  cycUsed := s.meter.cycUsed
  logLen := s.log.length
  accounts := s.accounts
  dirty := s.ckpt.dirty

/-- Restore(S): every field of the snapshot, and nothing else; the log is truncated (46_checkpoint.md R312). -/
def restore (snap : Snapshot) (s : State) : State :=
  { s with
    regs := snap.regs
    pc := snap.pc
    mem := snap.mem
    meter := { s.meter with cuUsed := snap.cuUsed, cycUsed := snap.cycUsed }
    log := s.log.take snap.logLen
    accounts := snap.accounts
    ckpt := { s.ckpt with dirty := snap.dirty } }

/-- BEGIN_TRANSACTION (46_checkpoint.md R313). TXN_BASE is captured after the meter and DIRTY are reset. -/
def beginTransaction (cuLimit cycLimit : Word) (s : State) : Except FailKind State :=
  if s.txnOpen then .error .noCheckpointAvailable
  else
    let s1 : State :=
      { s with
        meter := { s.meter with cuLimit, cycLimit, cuUsed := 0, cycUsed := 0 }
        ckpt := { s.ckpt with dirty := false } }
    .ok (s1.withCkpt { s1.ckpt with txnBase := some (capture s1) })

/-- COMMIT_TRANSACTION (46_checkpoint.md R314). -/
def commitTransaction (s : State) : Except FailKind State :=
  if !s.txnOpen || decide (s.ckptDepth > 0) then .error .noCheckpointAvailable
  else .ok (s.withCkpt { s.ckpt with txnBase := none, dirty := false })

/-- ROLLBACK_TRANSACTION (46_checkpoint.md R315). -/
def rollbackTransaction (s : State) : Except FailKind State :=
  match s.ckpt.txnBase with
  | none => .error .noCheckpointAvailable
  | some base =>
    let s1 := restore base s
    .ok (s1.withCkpt { s1.ckpt with stack := [], txnBase := none, dirty := false })

/-- CREATE_CHECKPOINT (46_checkpoint.md R316): transaction, full stack, budget, in that order; the snapshot is taken
before the charge. Answers the new id and the state. -/
def createCheckpoint (s : State) : Except FailKind (Word × State) :=
  if !s.txnOpen then .error .noCheckpointAvailable
  else if s.ckptDepth = s.params.maxCheckpoints then .error .stackOverflow
  else
    match charge .checkpoint s.meter.cfg.checkpointUnits.toNat s with
    | .error e => .error e.kind
    | .ok s1 =>
      .ok (s.ckpt.nextId,
        s1.withCkpt
          { s1.ckpt with
            stack := { id := s.ckpt.nextId, snap := capture s } :: s1.ckpt.stack
            nextId := s.ckpt.nextId + 1 })

/-- COMMIT_CHECKPOINT(id): pop the top and keep the live state, now dirty (46_checkpoint.md R317). -/
def commitCheckpoint (id : Word) (s : State) : Except FailKind State :=
  match s.ckpt.stack with
  | [] => .error .noCheckpointAvailable
  | c :: rest =>
    if id = c.id then .ok (s.withCkpt { s.ckpt with stack := rest, dirty := true })
    else .error .noCheckpointAvailable

/-- ROLLBACK_CHECKPOINT(id): pop the top and restore it (46_checkpoint.md R318). -/
def rollbackCheckpoint (id : Word) (s : State) : Except FailKind State :=
  match s.ckpt.stack with
  | [] => .error .noCheckpointAvailable
  | c :: rest =>
    if id = c.id then .ok (restore c.snap (s.withCkpt { s.ckpt with stack := rest }))
    else .error .noCheckpointAvailable

/-- The automatic rollback after an engine halt with InsufficientBudget: the body of ROLLBACK_TRANSACTION
(46_checkpoint.md R321). With no transaction open, which no run reaches, that body changes nothing (log 21). -/
def autoRollback (s : State) : State :=
  match rollbackTransaction s with
  | .ok t => t
  | .error _ => s

end Sys2Proof.Machine
end

