-- ==== Sys2Proof/Machine/HostPort.lean ====
section
/-! DEFINITION. The host command port (70_reset_and_hazards.md R395 to R397) and the CSR port (10_state.md R45 to R47). -/

namespace Sys2Proof.Machine

/-! ## The CSR port -/

/-- The two bits of ENG_STATE (10_state.md R28). -/
def EngState.code : EngState → BitVec 2
  | .idle => 0
  | .running => 1
  | .haltedSuccess => 2
  | .haltedFailure => 3

/-- STATUS (10_state.md R47). -/
def statusWord (s : State) : Word :=
  s.engState.code.setWidth 64 ||| (BitVec.ofBool s.txnOpen).setWidth 64 <<< 2 |||
    (BitVec.ofBool s.ckpt.dirty).setWidth 64 <<< 3 ||| s.latches.failCode.setWidth 64 <<< 8

/-- A count as a 64-bit register reads it (log 17). -/
def countWord (n : Nat) : Word := BitVec.ofNat 64 n

/-- The read side of the register map (10_state.md R45); a narrow field reads with its upper bits 0. -/
def csrReadRows : List (BitVec 8 × (State → Word)) :=
  [ (0x00, statusWord),
    (0x01, fun s => s.latches.exitCode),
    (0x02, fun s => s.latches.failPc),
    (0x03, fun s => s.latches.failAddr),
    (0x04, fun s => s.latches.failWidth.setWidth 64),
    (0x05, fun s => s.pc),
    (0x06, fun s => s.stepCount),
    (0x07, fun s => countWord s.callStack.length),
    (0x08, fun s => s.cpiDepth),
    (0x09, fun s => countWord s.prog.length),
    (0x0a, fun s => s.progBytes),
    (0x0b, fun s => countWord s.ckptDepth),
    (0x0c, fun s => s.ckptTopId),
    (0x0d, fun s => s.ckpt.nextId),
    (0x0e, fun s => countWord s.log.length),
    (0x0f, fun s => countWord s.latches.resLog.length),
    (0x10, fun s => s.meter.cuLimit),
    (0x11, fun s => s.meter.cycLimit),
    (0x12, fun s => s.meter.cuUsed),
    (0x13, fun s => s.meter.cycUsed),
    (0x14, fun s => s.latches.resCuUsed),
    (0x15, fun s => s.latches.resCycUsed),
    (0x18, fun s => s.meter.memPressure.setWidth 64),
    (0x19, fun s => s.meter.proofComplexity.setWidth 64),
    (0x20, fun s => s.meter.cfg.baseRate.setWidth 64),
    (0x21, fun s => s.meter.cfg.cyclesPerCu.setWidth 64),
    (0x22, fun s => s.meter.cfg.invokeUnits.setWidth 64),
    (0x23, fun s => s.meter.cfg.logUnits.setWidth 64),
    (0x24, fun s => s.meter.cfg.returnUnits.setWidth 64),
    (0x25, fun s => s.meter.cfg.checkpointUnits.setWidth 64),
    (0x28, fun s => (multOf s.meter.cfg .arith).setWidth 64),
    (0x29, fun s => (multOf s.meter.cfg .memory).setWidth 64),
    (0x2a, fun s => (multOf s.meter.cfg .control).setWidth 64),
    (0x2b, fun s => (multOf s.meter.cfg .hash).setWidth 64),
    (0x2c, fun s => (multOf s.meter.cfg .sigverify).setWidth 64),
    (0x2d, fun s => (multOf s.meter.cfg .cpi).setWidth 64),
    (0x2e, fun s => (multOf s.meter.cfg .syscall).setWidth 64),
    (0x2f, fun s => (multOf s.meter.cfg .checkpoint).setWidth 64) ]

/-- The configuration with MULT[c] written (10_state.md R35). -/
def setMult (c : Category) (cfg : MeterConfig) (v : BitVec 32) : MeterConfig :=
  { cfg with mult := cfg.mult.setIfInBounds c.num v }

/-- The write side of the register map: the RW registers (10_state.md R45, R46). -/
def csrWriteRows : List (BitVec 8 × (MeterConfig → BitVec 32 → MeterConfig)) :=
  [ (0x20, fun cfg v => { cfg with baseRate := v }),
    (0x21, fun cfg v => { cfg with cyclesPerCu := v }),
    (0x22, fun cfg v => { cfg with invokeUnits := v }),
    (0x23, fun cfg v => { cfg with logUnits := v }),
    (0x24, fun cfg v => { cfg with returnUnits := v }),
    (0x25, fun cfg v => { cfg with checkpointUnits := v }),
    (0x28, setMult .arith),
    (0x29, setMult .memory),
    (0x2a, setMult .control),
    (0x2b, setMult .hash),
    (0x2c, setMult .sigverify),
    (0x2d, setMult .cpi),
    (0x2e, setMult .syscall),
    (0x2f, setMult .checkpoint) ]

/-- CSR_READ(i); an unmapped index is InvalidRegister (10_state.md R46). -/
def csrRead (index : BitVec 8) (s : State) : Except FailKind Word :=
  match csrReadRows.lookup index with
  | some read => .ok (read s)
  | none => .error .invalidRegister

/-- CSR_WRITE(i, v) stores v[31:0] in an RW register; any other index is InvalidRegister (10_state.md R46). -/
def csrWrite (index : BitVec 8) (v : Word) (s : State) : Except FailKind State :=
  match csrWriteRows.lookup index with
  | some write => .ok (s.withMeter { s.meter with cfg := write s.meter.cfg (v.setWidth 32) })
  | none => .error .invalidRegister

/-! ## RUN -/

/-- The failure kind of a decode failure (60_exceptions.md R350). -/
def DecodeFailure.failKind : DecodeFailure → FailKind
  | .truncatedInstruction => .truncatedInstruction
  | .invalidRegister => .invalidRegister
  | .invalidOpcode => .invalidOpcode

/-- RUN on a stream that does not decode: nothing runs and nothing is charged; the failure is latched (41_engine.md
R142). PROG_LEN is 0, so the store holds no record (log 4). -/
def decodeHalt (e : DecodeError) (s : State) : State :=
  State.latchHalt { s with prog := [], progBytes := 0, stepCount := 0 } .haltedFailure 0
    (DecodeFailure.failKind e.kind).code (countWord e.index) (countWord e.offset) 0

/-- The run context reset (41_engine.md R143): memory, meter, checkpoints, log and accounts keep their values, and so do
the RES latches, which R143 does not name. -/
def startRun (prog : List Decoded) (nBytes : Nat) (s : State) : State :=
  { s with
    prog := prog
    progBytes := countWord nBytes
    regs := s.params.regInit
    pc := 0
    callStack := []
    cpiDepth := 0
    stepCount := 0
    latches := { s.latches with exitCode := 0, failCode := 0, failPc := 0, failAddr := 0, failWidth := 0 }
    engState := .running }

/-- RUN(bytes) up to the first step: refused without an open transaction (41_engine.md R141), else the whole stream is
decoded first (R142, R143). A stream that does not decode halts the engine, so RUN returns at once. One that decodes
makes the engine Running and RUN pending: it has no answer yet, the steps follow while ENG_STATE is Running, and
hostTurn returns it after the halt (R144, log 5). -/
def runCommand (bytes : List Byte) (s : State) : Option HostResponse × State :=
  if !s.txnOpen then (some (.error .noCheckpointAvailable), s)
  else
    match decodeProgram s.params bytes with
    | .error e => (some .done, decodeHalt e s)
    | .ok prog => (none, { startRun prog bytes.length s with runPending := true })

/-! ## The commands -/

/-- The answer of a command that returns nothing; an error changes no state (60_exceptions.md R351). -/
def answer (s : State) : Except FailKind State → Option HostResponse × State
  | .ok t => (some .done, t)
  | .error k => (some (.error k), s)

/-- The answer of a command that returns a u64 and changes nothing. -/
def answerValue (s : State) : Except FailKind Word → Option HostResponse × State
  | .ok v => (some (.value v), s)
  | .error k => (some (.error k), s)

/-- A failure of a register or memory port as a command error (70_reset_and_hazards.md R396). -/
def asCommandError {α : Type} : Except Raised α → Except FailKind α
  | .ok a => .ok a
  | .error e => .error e.kind

/-- CHARGE(c, units); a category above 7 is InvalidRegister (40_compute_meter.md R123, 70_reset_and_hazards.md R396). -/
def chargeCommand (category units : Word) (s : State) : Except FailKind State :=
  match Category.ofNum? category.toNat with
  | none => .error .invalidRegister
  | some c => asCommandError (charge c units.toNat s)

/-- CREATE_CHECKPOINT returns the new id (46_checkpoint.md R316). -/
def createCommand (s : State) : Option HostResponse × State :=
  match createCheckpoint s with
  | .ok (id, t) => (some (.value id), t)
  | .error k => (some (.error k), s)

/-- LOG_READ(i), MemoryOutOfBounds past the end (46_checkpoint.md R327). -/
def logRead (index : Word) (s : State) : HostResponse :=
  match s.log[index.toNat]? with
  | some e => .entry e
  | none => .error .memoryOutOfBounds

/-- One host command on a block that is not Running: its answer and the state after it (70_reset_and_hazards.md R396).
Only a RUN that starts the engine has no answer yet (41_engine.md R144). -/
def hostCommand (c : HostCommand) (s : State) : Option HostResponse × State :=
  match c with
  | .run bytes => runCommand bytes s
  | .csrRead i => answerValue s (csrRead i s)
  | .csrWrite i v => answer s (csrWrite i v s)
  | .regRead id => answerValue s (asCommandError (readReg id s))
  | .regWrite id v => answer s (asCommandError (writeReg id v s))
  | .memRead addr n => answerValue s (asCommandError (memRead addr n s))
  | .memWrite addr n v => answer s (asCommandError (memWrite addr n v s))
  | .charge category units => answer s (chargeCommand category units s)
  | .updateFactors mp cl => (some .done, updateFactors mp cl s)
  | .beginTransaction cu cyc => answer s (beginTransaction cu cyc s)
  | .commitTransaction => answer s (commitTransaction s)
  | .rollbackTransaction => answer s (rollbackTransaction s)
  | .createCheckpoint => createCommand s
  | .commitCheckpoint id => answer s (commitCheckpoint id s)
  | .rollbackCheckpoint id => answer s (rollbackCheckpoint id s)
  | .logAppend e => (some .done, { s with log := s.log ++ [e] })
  | .logRead i => (some (logRead i s), s)
  | .accountWrite a => (some .done, { s with accounts := a })
  | .accountRead => (some (.accounts s.accounts), s)

/-- A RUN whose engine has halted returns: its answer is recorded and it is pending no more (41_engine.md R144). -/
def returnRun (s : State) : State := { s with hostOut := s.hostOut ++ [.done], runPending := false }

/-- Take a command: it leaves the queue, takes effect, and its answer, if it has one yet, is recorded last. -/
def takeCommand (c : HostCommand) (rest : List HostCommand) (s : State) : State :=
  let r := hostCommand c { s with hostIn := rest }
  { r.2 with hostOut := r.2.hostOut ++ r.1.toList }

/-- What the block does when it is not Running: a pending RUN returns (41_engine.md R144); else it takes the oldest
command the host has issued (70_reset_and_hazards.md R401, 60_exceptions.md R365, log 5); with none issued it stays as
it is (log 6). -/
def hostTurn (s : State) : State :=
  if s.runPending then returnRun s
  else
    match s.hostIn with
    | [] => s
    | c :: rest => takeCommand c rest s

end Sys2Proof.Machine
end

