-- ==== Sys2Proof/Machine/Engine.lean ====
section
/-! DEFINITION. The engine's step (41_engine.md R145 to R149) and the placing of one instruction where it is fetched. -/

namespace Sys2Proof.Machine

/-- Fetch: the record at the program counter, none when pc is not below PROG_LEN (41_engine.md R146). -/
def fetch (s : State) : Option Decoded := s.prog[s.pc.toNat]?

/-- One more instruction charged (41_engine.md R148). -/
def countStep (s : State) : State := s.withStepCount (s.stepCount + 1)

/-- Phases 3 to 5 on a fetched instruction: charge, count, dispatch. An over-budget charge halts the engine and then
rolls the transaction back (41_engine.md R147, R148, R149; 46_checkpoint.md R321). -/
def meterAndRun (i : Instr) (s : State) : Host.Outcome State Fault Refusal :=
  match charge (chargeOf s.meter.cfg i).1 (chargeOf s.meter.cfg i).2 s with
  | .error e => .next (autoRollback (haltFailure e s))
  | .ok t => exec i (countStep t)

/-- One engine step: the ceiling test, the fetch, then charge, count and dispatch; the first failure wins (41_engine.md
R145 to R149, 60_exceptions.md R353). A record whose opcode has no row, which no decoded program holds, halts with
InvalidOpcode (41_engine.md R155, log 10). -/
def engineStep (s : State) : Host.Outcome State Fault Refusal :=
  if s.params.maxSteps ≤ s.stepCount.toNat then .next (haltFailure (.plain .stepLimitExceeded) s)
  else
    match fetch s with
    | none => .next (haltFailure (.plain .pcOutOfBounds) s)
    | some d =>
      match d.instr? s.params with
      | none => .next (haltFailure (.plain .invalidOpcode) s)
      | some i => meterAndRun i s

/-- The meter with an unbounded allotment and nothing consumed. -/
def unboundedBudget (m : Meter) : Meter :=
  { m with cuLimit := BitVec.allOnes 64, cycLimit := BitVec.allOnes 64, cuUsed := 0, cycUsed := 0 }

/-- The state in which the very next step runs the instruction at the head of a stream: a transaction is open, the
budget is unbounded, the program is that one instruction, pc is 0 and the engine is Running (log 7). A stream whose head
does not decode leaves the halt that RUN leaves. -/
def placeInstruction (bytes : List Byte) (s : State) : State :=
  let funded := s.withMeter (unboundedBudget s.meter)
  let opened := if s.txnOpen then funded else funded.withCkpt { s.ckpt with txnBase := some (capture funded) }
  match decodeOne s.params bytes with
  | .error e => decodeHalt ⟨e, 0, 0⟩ opened
  | .ok (d, n) =>
    { opened with prog := [d], progBytes := countWord n, pc := 0, stepCount := 0, engState := .running }

end Sys2Proof.Machine
end

