-- ==== Sys2Proof/Machine/Step.lean ====
section
/-! DEFINITION. One step of the machine, and where the host places an instruction word. -/

namespace Sys2Proof.Machine

/-- One step: the engine's while it is Running, else the host port's (41_engine.md R144, 70_reset_and_hazards.md
R396). -/
def step (s : State) : Host.Outcome State Fault Refusal :=
  if s.engState = .running then engineStep s else .next (hostTurn s)

/-- The state in which the very next step fetches and runs the instruction whose lowest nbits bits are those of w and
whose other bits are 0 (log 7). -/
def State.withFetchWord (s : State) (nbits w : Nat) : State := placeInstruction (tableStream nbits w) s

end Sys2Proof.Machine
end

