-- ==== Sys2Proof/Machine/Result.lean ====
section
/-! DEFINITION. What the host reads at the end of a run (41_engine.md R157, R158) and the part of the output sink's
packing that the spec fixes (00_scope.md R8). The sink itself is the host's (R6). -/

namespace Sys2Proof.Machine

/-- The ExecutionResult record (41_engine.md R158). -/
inductive ExecutionResult where
  | ok (exitCode cu cyc : Word) (logs : List LogEntry)
  | fail (kind : BitVec 8) (pc addr : Word) (width : BitVec 4) (cu cyc : Word) (logs : List LogEntry)
deriving DecidableEq, Repr

/-- The record a halted engine leaves in its latches; none while it has not halted (41_engine.md R157, R158). -/
def executionResult (s : State) : Option ExecutionResult :=
  match s.engState with
  | .idle => none
  | .running => none
  | .haltedSuccess =>
    some (.ok s.latches.exitCode s.latches.resCuUsed s.latches.resCycUsed s.latches.resLog)
  | .haltedFailure =>
    some
      (.fail s.latches.failCode s.latches.failPc s.latches.failAddr s.latches.failWidth s.latches.resCuUsed
        s.latches.resCycUsed s.latches.resLog)

/-- A value of n 32-bit words in the output sink, low word first, whatever n is (00_scope.md R8). -/
def sinkWords (n : Nat) (v : BitVec (32 * n)) : List (BitVec 32) :=
  (List.range n).map fun k => v.extractLsb' (32 * k) 32

/-- A 64-bit value (a compute total, a fee total) in the output sink: two words (00_scope.md R8). -/
def sinkWord64 (v : Word) : List (BitVec 32) := sinkWords 2 v

/-- A 256-bit hash root in the output sink: eight words (00_scope.md R8). -/
def sinkHash256 (v : BitVec 256) : List (BitVec 32) := sinkWords 8 v

/-- The words of a value exported at index i: consecutive indices from i on (00_scope.md R8). -/
def sinkAt (i : Nat) (words : List (BitVec 32)) : List (Nat × BitVec 32) := (List.range' i words.length).zip words

/-- A boolean in the output sink: 0 or 1. The validity result is the first thing exported, so it is word 0 (00_scope.md
R8). -/
def sinkBool (b : Bool) : List (BitVec 32) := [(BitVec.ofBool b).setWidth 32]

/-- The packing that 70_reset_and_hazards.md R398 gives as one the host may use (log 20). -/
def sinkExample (s : State) : List (BitVec 32) :=
  sinkBool (decide (s.engState = .haltedSuccess)) ++ sinkWord64 s.latches.exitCode ++
    sinkWord64 s.latches.resCuUsed ++ sinkWord64 s.latches.resCycUsed

end Sys2Proof.Machine
end

