-- ==== Sys2Proof/Safety.lean ====
section
/-! DEFINITION. What counts as a good state and as the end of a run, in the terms the statements use. -/

namespace Sys2Proof.Machine

/-! ## Runs -/

/-- The state after n steps; a step that stops, which none does, ends them. -/
def after : Nat → State → State
  | 0, s => s
  | n + 1, s =>
    match step s with
    | .next t => after n t
    | .fault _ => s
    | .refused _ => s

/-- RUN to its end: the engine steps while it is Running, within a bound on the steps (41_engine.md R144). -/
def runToHalt : Nat → State → State
  | 0, s => s
  | n + 1, s =>
    if s.engState = .running then
      match step s with
      | .next t => runToHalt n t
      | .fault _ => s
      | .refused _ => s
    else s

/-- The engine is in one of the two terminal states (41_engine.md R140, R157). -/
def halted (s : State) : Prop := s.engState = .haltedSuccess ∨ s.engState = .haltedFailure

/-! ## Terms of the statements -/

/-- Every record with this opcode byte stands for the instruction made from its fields (30_encoding.md R92, R93). -/
def RowIs (p : Params) (opc : Byte) (make : Decoded → Instr) : Prop :=
  ∀ d : Decoded, d.opc = opc → d.instr? p = some (make d)

/-- x[r] (00_scope.md R13). -/
def State.x (s : State) (r : RegId) : Word := RegFile.get s.regs r

/-- One register written and the default advance, nothing else changed. -/
def regWritten (s : State) (dst : RegId) (v : Word) : State :=
  { s with regs := RegFile.set s.regs dst v, pc := s.pc + 1 }

/-- The memory image written and the default advance, nothing else changed. -/
def memWritten (s : State) (m : Memory) : State := { s with mem := m, pc := s.pc + 1 }

/-- The program counter set, nothing else changed. -/
def jumped (s : State) (target : Word) : State := { s with pc := target }

/-- The sum of 20_memory.md R62: byte k of n from an address on, weighted 2^(8k). -/
def littleEndian (m : Memory) (a n : Nat) : Nat :=
  ∑ k ∈ Finset.range n, (Memory.get m (a + k)).toNat * 2 ^ (8 * k)

/-- Byte k of a value (00_scope.md R12). -/
def byteOf (v : Word) (k : Nat) : Byte := v.extractLsb' (8 * k) 8

/-- Where a store of n bytes at an address leaves every byte of memory: byte k of the value at the address plus k, every
other byte as it was (20_memory.md R63). -/
def StoredAt (before after : Memory) (a n : Nat) (v : Word) : Prop :=
  ∀ b, Memory.get after b = if a ≤ b ∧ b < a + n then byteOf v (b - a) else Memory.get before b

/-- The register an instruction writes when it completes, if any (10_state.md R23). -/
def destination : Instr → Option RegId
  | .add64Imm dst _ => some dst
  | .add64Reg dst _ => some dst
  | .sub64Imm dst _ => some dst
  | .sub64Reg dst _ => some dst
  | .mul64Imm dst _ => some dst
  | .mul64Reg dst _ => some dst
  | .div64Imm dst _ => some dst
  | .div64Reg dst _ => some dst
  | .or64Imm dst _ => some dst
  | .or64Reg dst _ => some dst
  | .and64Imm dst _ => some dst
  | .and64Reg dst _ => some dst
  | .lsh64Imm dst _ => some dst
  | .lsh64Reg dst _ => some dst
  | .rsh64Imm dst _ => some dst
  | .rsh64Reg dst _ => some dst
  | .neg64 dst => some dst
  | .mod64Imm dst _ => some dst
  | .mod64Reg dst _ => some dst
  | .xor64Imm dst _ => some dst
  | .xor64Reg dst _ => some dst
  | .mov64Imm dst _ => some dst
  | .mov64Reg dst _ => some dst
  | .arsh64Imm dst _ => some dst
  | .arsh64Reg dst _ => some dst
  | .lddw dst _ => some dst
  | .ldabsb dst _ => some dst
  | .ldabsh dst _ => some dst
  | .ldabsw dst _ => some dst
  | .ldabsdw dst _ => some dst
  | .ldxb dst _ _ => some dst
  | .ldxh dst _ _ => some dst
  | .ldxw dst _ _ => some dst
  | .ldxdw dst _ _ => some dst
  | .stxb _ _ _ => none
  | .stxh _ _ _ => none
  | .stxw _ _ _ => none
  | .stxdw _ _ _ => none
  | .ja _ => none
  | .jeqImm _ _ _ => none
  | .jeqReg _ _ _ => none
  | .jgtImm _ _ _ => none
  | .jgtReg _ _ _ => none
  | .jgeImm _ _ _ => none
  | .jgeReg _ _ _ => none
  | .jltImm _ _ _ => none
  | .jltReg _ _ _ => none
  | .jleImm _ _ _ => none
  | .jleReg _ _ _ => none
  | .jneImm _ _ _ => none
  | .jneReg _ _ _ => none
  | .jsgtImm _ _ _ => none
  | .jsgtReg _ _ _ => none
  | .jsgeImm _ _ _ => none
  | .jsgeReg _ _ _ => none
  | .jsltImm _ _ _ => none
  | .jsltReg _ _ _ => none
  | .jsleImm _ _ _ => none
  | .jsleReg _ _ _ => none
  | .call _ => none
  | .exit => none
  | .invoke => none
  | .log => none
  | .cpiReturn => none

/-- The instruction is one of the four stores (43_load_store.md R230 to R233). -/
def isStore : Instr → Bool
  | .add64Imm _ _ => false
  | .add64Reg _ _ => false
  | .sub64Imm _ _ => false
  | .sub64Reg _ _ => false
  | .mul64Imm _ _ => false
  | .mul64Reg _ _ => false
  | .div64Imm _ _ => false
  | .div64Reg _ _ => false
  | .or64Imm _ _ => false
  | .or64Reg _ _ => false
  | .and64Imm _ _ => false
  | .and64Reg _ _ => false
  | .lsh64Imm _ _ => false
  | .lsh64Reg _ _ => false
  | .rsh64Imm _ _ => false
  | .rsh64Reg _ _ => false
  | .neg64 _ => false
  | .mod64Imm _ _ => false
  | .mod64Reg _ _ => false
  | .xor64Imm _ _ => false
  | .xor64Reg _ _ => false
  | .mov64Imm _ _ => false
  | .mov64Reg _ _ => false
  | .arsh64Imm _ _ => false
  | .arsh64Reg _ _ => false
  | .lddw _ _ => false
  | .ldabsb _ _ => false
  | .ldabsh _ _ => false
  | .ldabsw _ _ => false
  | .ldabsdw _ _ => false
  | .ldxb _ _ _ => false
  | .ldxh _ _ _ => false
  | .ldxw _ _ _ => false
  | .ldxdw _ _ _ => false
  | .stxb _ _ _ => true
  | .stxh _ _ _ => true
  | .stxw _ _ _ => true
  | .stxdw _ _ _ => true
  | .ja _ => false
  | .jeqImm _ _ _ => false
  | .jeqReg _ _ _ => false
  | .jgtImm _ _ _ => false
  | .jgtReg _ _ _ => false
  | .jgeImm _ _ _ => false
  | .jgeReg _ _ _ => false
  | .jltImm _ _ _ => false
  | .jltReg _ _ _ => false
  | .jleImm _ _ _ => false
  | .jleReg _ _ _ => false
  | .jneImm _ _ _ => false
  | .jneReg _ _ _ => false
  | .jsgtImm _ _ _ => false
  | .jsgtReg _ _ _ => false
  | .jsgeImm _ _ _ => false
  | .jsgeReg _ _ _ => false
  | .jsltImm _ _ _ => false
  | .jsltReg _ _ _ => false
  | .jsleImm _ _ _ => false
  | .jsleReg _ _ _ => false
  | .call _ => false
  | .exit => false
  | .invoke => false
  | .log => false
  | .cpiReturn => false

/-- The instruction sets pc itself: the jumps, call and exit (10_state.md R25). -/
def isControl : Instr → Bool
  | .add64Imm _ _ => false
  | .add64Reg _ _ => false
  | .sub64Imm _ _ => false
  | .sub64Reg _ _ => false
  | .mul64Imm _ _ => false
  | .mul64Reg _ _ => false
  | .div64Imm _ _ => false
  | .div64Reg _ _ => false
  | .or64Imm _ _ => false
  | .or64Reg _ _ => false
  | .and64Imm _ _ => false
  | .and64Reg _ _ => false
  | .lsh64Imm _ _ => false
  | .lsh64Reg _ _ => false
  | .rsh64Imm _ _ => false
  | .rsh64Reg _ _ => false
  | .neg64 _ => false
  | .mod64Imm _ _ => false
  | .mod64Reg _ _ => false
  | .xor64Imm _ _ => false
  | .xor64Reg _ _ => false
  | .mov64Imm _ _ => false
  | .mov64Reg _ _ => false
  | .arsh64Imm _ _ => false
  | .arsh64Reg _ _ => false
  | .lddw _ _ => false
  | .ldabsb _ _ => false
  | .ldabsh _ _ => false
  | .ldabsw _ _ => false
  | .ldabsdw _ _ => false
  | .ldxb _ _ _ => false
  | .ldxh _ _ _ => false
  | .ldxw _ _ _ => false
  | .ldxdw _ _ _ => false
  | .stxb _ _ _ => false
  | .stxh _ _ _ => false
  | .stxw _ _ _ => false
  | .stxdw _ _ _ => false
  | .ja _ => true
  | .jeqImm _ _ _ => true
  | .jeqReg _ _ _ => true
  | .jgtImm _ _ _ => true
  | .jgtReg _ _ _ => true
  | .jgeImm _ _ _ => true
  | .jgeReg _ _ _ => true
  | .jltImm _ _ _ => true
  | .jltReg _ _ _ => true
  | .jleImm _ _ _ => true
  | .jleReg _ _ _ => true
  | .jneImm _ _ _ => true
  | .jneReg _ _ _ => true
  | .jsgtImm _ _ _ => true
  | .jsgtReg _ _ _ => true
  | .jsgeImm _ _ _ => true
  | .jsgeReg _ _ _ => true
  | .jsltImm _ _ _ => true
  | .jsltReg _ _ _ => true
  | .jsleImm _ _ _ => true
  | .jsleReg _ _ _ => true
  | .call _ => true
  | .exit => true
  | .invoke => false
  | .log => false
  | .cpiReturn => false

/-- What a guest program can reach: the registers, pc, memory, call stack and CPI depth, with the engine state and the
fixed parameters (60_exceptions.md R361). -/
def guestView (s : State) : RegFile × Word × Memory × List Word × Word × EngState × Params :=
  (s.regs, s.pc, s.mem, s.callStack, s.cpiDepth, s.engState, s.params)

/-- Everything a guest program cannot write: the parameters, program store, step count, meter, checkpoint manager, log,
accounts, and the model's own host queues and pending RUN (60_exceptions.md R361; log 5). -/
def hostSide (s : State) : Params × List Decoded × Word × Word × Meter × CkptManager × List LogEntry × AccountState ×
    List HostCommand × List HostResponse × Bool :=
  (s.params, s.prog, s.progBytes, s.stepCount, s.meter, s.ckpt, s.log, s.accounts, s.hostIn, s.hostOut, s.runPending)

/-! ## Good states -/

/-- The memory image is canonical and inside the capacity (20_memory.md R60). -/
def MemoryOk (p : Params) (m : Memory) : Prop := Memory.wf m = true ∧ Memory.below p.memCapacity m = true

/-- Consumed budget never exceeds the allotment in either domain (10_state.md R37). -/
def MeterOk (m : Meter) : Prop := m.cuUsed ≤ m.cuLimit ∧ m.cycUsed ≤ m.cycLimit

/-- The bounded stacks and counters are within their bounds (10_state.md R29, R30, R31, R38). -/
def BoundsOk (s : State) : Prop :=
  s.callStack.length ≤ s.params.maxCallDepth ∧ s.cpiDepth.toNat ≤ s.params.maxCpiDepth ∧
    s.stepCount.toNat ≤ s.params.maxSteps ∧ s.ckpt.stack.length ≤ s.params.maxCheckpoints

/-- Every record of the program store was accepted by the decoder, and PROG_BYTES is the length of the stream
(30_encoding.md R87, R89, R90). -/
def ProgramOk (s : State) : Prop :=
  (∀ d ∈ s.prog, (d.instr? s.params).isSome = true ∧ regIdOk d.dst = true ∧ regIdOk d.src = true) ∧
    s.progBytes = countWord (s.prog.map fun d => opcodeLength d.opc).sum

/-- The latches read as 10_state.md R33 says in each engine state: EXIT_CODE only after a success, FAIL_CODE 1 to 11
exactly in HaltedFailure, FAIL_WIDTH only for MemoryOutOfBounds, FAIL_ADDR only for MemoryOutOfBounds and the decode
failures. -/
def LatchesOk (s : State) : Prop :=
  (s.engState ≠ .haltedSuccess → s.latches.exitCode = 0) ∧
    (s.engState = .haltedFailure ↔ s.latches.failCode ≠ 0) ∧ s.latches.failCode ≤ 11 ∧
    (s.latches.failCode ≠ 2 → s.latches.failWidth = 0) ∧
    (s.latches.failCode ∉ [2, 3, 4, 9] → s.latches.failAddr = 0)

/-- The snapshots that a rollback could restore: the checkpoint stack's, top first, then TXN_BASE. -/
def liveSnapshots (k : CkptManager) : List Snapshot := k.stack.map Checkpoint.snap ++ k.txnBase.toList

/-- A snapshot that can be restored: its memory is canonical, its consumed budget is within the limits, its log length is
not past the log (10_state.md R37, 46_checkpoint.md R324). -/
def SnapshotOk (s : State) (snap : Snapshot) : Prop :=
  MemoryOk s.params snap.mem ∧ snap.cuUsed ≤ s.meter.cuLimit ∧ snap.cycUsed ≤ s.meter.cycLimit ∧
    snap.logLen ≤ s.log.length

/-- Every live snapshot can be restored, and no snapshot records a longer log than one taken after it (46_checkpoint.md
R324). -/
def SnapshotsOk (s : State) : Prop :=
  (∀ snap ∈ liveSnapshots s.ckpt, SnapshotOk s snap) ∧
    (liveSnapshots s.ckpt).Pairwise fun newer older => older.logLen ≤ newer.logLen

/-- A checkpoint is open, or the engine is Running, only inside a transaction (46_checkpoint.md R319, R321). -/
def TransactionOk (s : State) : Prop :=
  (s.ckpt.stack ≠ [] → s.txnOpen = true) ∧ (s.engState = .running → s.txnOpen = true)

/-- What every step keeps, whatever the parameters. -/
structure Inv (s : State) : Prop where
  params : s.params.Valid
  memory : MemoryOk s.params s.mem
  meter : MeterOk s.meter
  bounds : BoundsOk s
  program : ProgramOk s
  latches : LatchesOk s
  snapshots : SnapshotsOk s
  transaction : TransactionOk s

/-- The ids on the checkpoint stack rise strictly from bottom to top, are at least 1 and below CKPT_NEXT_ID
(46_checkpoint.md R319, 10_state.md R40). -/
def IdsOk (s : State) : Prop :=
  (s.ckpt.stack.Pairwise fun upper lower => lower.id.toNat < upper.id.toNat) ∧
    (∀ c ∈ s.ckpt.stack, 1 ≤ c.id.toNat ∧ c.id.toNat < s.ckpt.nextId.toNat) ∧ 1 ≤ s.ckpt.nextId.toNat

end Sys2Proof.Machine
end

