-- ==== Sys2Proof/Certificates/Slice0/Obligations.lean ====
section
/-! DEFINITION. The statements for the provers, one definition each; OBLIGATIONS.json lists them. They state and never
prove. -/

open Sys2Proof Sys2Proof.Machine

/-- Add64, sub64 and mul64 write the wrapped result and advance. Formalises R171, R172, R173, R174, R175, R176. -/
def Obligations.AddSubtractMultiplyResults : Prop :=
  ∀ (p : Params) (s : State) (dst src : RegId) (imm : BitVec 32), regIdOk dst = true → regIdOk src = true →
    (RowIs p 0x07 (fun d => .add64Imm d.dst d.imm32) ∧ exec (.add64Imm dst imm) s = .next (regWritten s dst (s.x dst + imm.signExtend 64))) ∧
    (RowIs p 0x0f (fun d => .add64Reg d.dst d.src) ∧ exec (.add64Reg dst src) s = .next (regWritten s dst (s.x dst + s.x src))) ∧
    (RowIs p 0x17 (fun d => .sub64Imm d.dst d.imm32) ∧ exec (.sub64Imm dst imm) s = .next (regWritten s dst (s.x dst - imm.signExtend 64))) ∧
    (RowIs p 0x1f (fun d => .sub64Reg d.dst d.src) ∧ exec (.sub64Reg dst src) s = .next (regWritten s dst (s.x dst - s.x src))) ∧
    (RowIs p 0x27 (fun d => .mul64Imm d.dst d.imm32) ∧ exec (.mul64Imm dst imm) s = .next (regWritten s dst (BitVec.ofNat 64 ((s.x dst).toNat * (imm.signExtend 64).toNat)))) ∧
    (RowIs p 0x2f (fun d => .mul64Reg d.dst d.src) ∧ exec (.mul64Reg dst src) s = .next (regWritten s dst (BitVec.ofNat 64 ((s.x dst).toNat * (s.x src).toNat))))

/-- Div64 and mod64 are unsigned and halt with DivisionByZero on a zero divisor. Formalises R177, R178, R179, R180. -/
def Obligations.DivideRemainderResults : Prop :=
  ∀ (p : Params) (s : State) (dst src : RegId) (imm : BitVec 32), regIdOk dst = true → regIdOk src = true →
    (RowIs p 0x37 (fun d => .div64Imm d.dst d.imm32) ∧
      (imm.signExtend 64 ≠ 0 → exec (.div64Imm dst imm) s = .next (regWritten s dst (BitVec.ofNat 64 ((s.x dst).toNat / (imm.signExtend 64).toNat)))) ∧
      (imm.signExtend 64 = 0 → exec (.div64Imm dst imm) s = .next (haltFailure (.plain .divisionByZero) s))) ∧
    (RowIs p 0x3f (fun d => .div64Reg d.dst d.src) ∧
      (s.x src ≠ 0 → exec (.div64Reg dst src) s = .next (regWritten s dst (BitVec.ofNat 64 ((s.x dst).toNat / (s.x src).toNat)))) ∧
      (s.x src = 0 → exec (.div64Reg dst src) s = .next (haltFailure (.plain .divisionByZero) s))) ∧
    (RowIs p 0x97 (fun d => .mod64Imm d.dst d.imm32) ∧
      (imm.signExtend 64 ≠ 0 → exec (.mod64Imm dst imm) s = .next (regWritten s dst (BitVec.ofNat 64 ((s.x dst).toNat - (imm.signExtend 64).toNat * ((s.x dst).toNat / (imm.signExtend 64).toNat))))) ∧
      (imm.signExtend 64 = 0 → exec (.mod64Imm dst imm) s = .next (haltFailure (.plain .divisionByZero) s))) ∧
    (RowIs p 0x9f (fun d => .mod64Reg d.dst d.src) ∧
      (s.x src ≠ 0 → exec (.mod64Reg dst src) s = .next (regWritten s dst (BitVec.ofNat 64 ((s.x dst).toNat - (s.x src).toNat * ((s.x dst).toNat / (s.x src).toNat))))) ∧
      (s.x src = 0 → exec (.mod64Reg dst src) s = .next (haltFailure (.plain .divisionByZero) s)))

/-- Or64, and64 and xor64 write the bitwise result and advance. Formalises R181, R182, R183, R184, R185, R186. -/
def Obligations.BitwiseResults : Prop :=
  ∀ (p : Params) (s : State) (dst src : RegId) (imm : BitVec 32), regIdOk dst = true → regIdOk src = true →
    (RowIs p 0x47 (fun d => .or64Imm d.dst d.imm32) ∧ exec (.or64Imm dst imm) s = .next (regWritten s dst (s.x dst ||| imm.signExtend 64))) ∧
    (RowIs p 0x4f (fun d => .or64Reg d.dst d.src) ∧ exec (.or64Reg dst src) s = .next (regWritten s dst (s.x dst ||| s.x src))) ∧
    (RowIs p 0x57 (fun d => .and64Imm d.dst d.imm32) ∧ exec (.and64Imm dst imm) s = .next (regWritten s dst (s.x dst &&& imm.signExtend 64))) ∧
    (RowIs p 0x5f (fun d => .and64Reg d.dst d.src) ∧ exec (.and64Reg dst src) s = .next (regWritten s dst (s.x dst &&& s.x src))) ∧
    (RowIs p 0xa7 (fun d => .xor64Imm d.dst d.imm32) ∧ exec (.xor64Imm dst imm) s = .next (regWritten s dst (s.x dst ^^^ imm.signExtend 64))) ∧
    (RowIs p 0xaf (fun d => .xor64Reg d.dst d.src) ∧ exec (.xor64Reg dst src) s = .next (regWritten s dst (s.x dst ^^^ s.x src)))

/-- Lsh64, rsh64 and arsh64 shift by the amount modulo 64 and advance. Formalises R187, R188, R189, R190, R191, R192.
-/
def Obligations.ShiftResults : Prop :=
  ∀ (p : Params) (s : State) (dst src : RegId) (imm : BitVec 32), regIdOk dst = true → regIdOk src = true →
    (RowIs p 0x67 (fun d => .lsh64Imm d.dst d.imm32) ∧ exec (.lsh64Imm dst imm) s = .next (regWritten s dst ((s.x dst) <<< ((imm.signExtend 64).toNat % 64)))) ∧
    (RowIs p 0x6f (fun d => .lsh64Reg d.dst d.src) ∧ exec (.lsh64Reg dst src) s = .next (regWritten s dst ((s.x dst) <<< ((s.x src).toNat % 64)))) ∧
    (RowIs p 0x77 (fun d => .rsh64Imm d.dst d.imm32) ∧ exec (.rsh64Imm dst imm) s = .next (regWritten s dst ((s.x dst) >>> ((imm.signExtend 64).toNat % 64)))) ∧
    (RowIs p 0x7f (fun d => .rsh64Reg d.dst d.src) ∧ exec (.rsh64Reg dst src) s = .next (regWritten s dst ((s.x dst) >>> ((s.x src).toNat % 64)))) ∧
    (RowIs p 0xc7 (fun d => .arsh64Imm d.dst d.imm32) ∧ exec (.arsh64Imm dst imm) s = .next (regWritten s dst ((s.x dst).sshiftRight ((imm.signExtend 64).toNat % 64)))) ∧
    (RowIs p 0xcf (fun d => .arsh64Reg d.dst d.src) ∧ exec (.arsh64Reg dst src) s = .next (regWritten s dst ((s.x dst).sshiftRight ((s.x src).toNat % 64))))

/-- Neg64 negates modulo 2^64, mov64 copies the immediate or the register. Formalises R193, R194, R195. -/
def Obligations.NegateMoveResults : Prop :=
  ∀ (p : Params) (s : State) (dst src : RegId) (imm : BitVec 32), regIdOk dst = true → regIdOk src = true →
    (RowIs p 0x87 (fun d => .neg64 d.dst) ∧ exec (.neg64 dst) s = .next (regWritten s dst (0 - s.x dst))) ∧
    (RowIs p 0xb7 (fun d => .mov64Imm d.dst d.imm32) ∧ exec (.mov64Imm dst imm) s = .next (regWritten s dst (imm.signExtend 64))) ∧
    (RowIs p 0xbf (fun d => .mov64Reg d.dst d.src) ∧ exec (.mov64Reg dst src) s = .next (regWritten s dst (s.x src)))

/-- Lddw writes the whole 64-bit immediate and advances by one index. Derived from 43_load_store.md, Wide immediate
load. -/
def Obligations.LddwResult : Prop :=
  ∀ (p : Params) (s : State) (dst : RegId) (imm : BitVec 64), regIdOk dst = true →
    RowIs p 0x18 (fun d => .lddw d.dst d.imm) ∧ exec (.lddw dst imm) s = .next (regWritten s dst imm)

/-- Ldabsb/h/w/dw load from the sign-extended immediate, or halt out of bounds. Formalises R222, R223, R225. -/
def Obligations.AbsoluteLoadResults : Prop :=
  ∀ (p : Params) (s : State) (dst : RegId) (imm : BitVec 32), regIdOk dst = true →
    (RowIs p 0x30 (fun d => .ldabsb d.dst d.imm32) ∧
      ((imm.signExtend 64).toNat + 1 ≤ s.params.memCapacity →
        exec (.ldabsb dst imm) s = .next (regWritten s dst (BitVec.ofNat 64 (littleEndian s.mem (imm.signExtend 64).toNat 1)))) ∧
      (s.params.memCapacity < (imm.signExtend 64).toNat + 1 →
        exec (.ldabsb dst imm) s = .next (haltFailure (.outOfBounds (imm.signExtend 64) .b) s))) ∧
    (RowIs p 0x28 (fun d => .ldabsh d.dst d.imm32) ∧
      ((imm.signExtend 64).toNat + 2 ≤ s.params.memCapacity →
        exec (.ldabsh dst imm) s = .next (regWritten s dst (BitVec.ofNat 64 (littleEndian s.mem (imm.signExtend 64).toNat 2)))) ∧
      (s.params.memCapacity < (imm.signExtend 64).toNat + 2 →
        exec (.ldabsh dst imm) s = .next (haltFailure (.outOfBounds (imm.signExtend 64) .h) s))) ∧
    (RowIs p 0x20 (fun d => .ldabsw d.dst d.imm32) ∧
      ((imm.signExtend 64).toNat + 4 ≤ s.params.memCapacity →
        exec (.ldabsw dst imm) s = .next (regWritten s dst (BitVec.ofNat 64 (littleEndian s.mem (imm.signExtend 64).toNat 4)))) ∧
      (s.params.memCapacity < (imm.signExtend 64).toNat + 4 →
        exec (.ldabsw dst imm) s = .next (haltFailure (.outOfBounds (imm.signExtend 64) .w) s))) ∧
    (RowIs p 0x38 (fun d => .ldabsdw d.dst d.imm32) ∧
      ((imm.signExtend 64).toNat + 8 ≤ s.params.memCapacity →
        exec (.ldabsdw dst imm) s = .next (regWritten s dst (BitVec.ofNat 64 (littleEndian s.mem (imm.signExtend 64).toNat 8)))) ∧
      (s.params.memCapacity < (imm.signExtend 64).toNat + 8 →
        exec (.ldabsdw dst imm) s = .next (haltFailure (.outOfBounds (imm.signExtend 64) .dw) s)))

/-- Ldxb/h/w/dw load from source register plus displacement, or halt out of bounds. Formalises R226, R227, R228, R229.
-/
def Obligations.IndirectLoadResults : Prop :=
  ∀ (p : Params) (s : State) (dst src : RegId) (off : BitVec 16), regIdOk dst = true → regIdOk src = true →
    (RowIs p 0x71 (fun d => .ldxb d.dst d.src d.off16) ∧
      ((s.x src + off.signExtend 64).toNat + 1 ≤ s.params.memCapacity →
        exec (.ldxb dst src off) s = .next (regWritten s dst (BitVec.ofNat 64 (littleEndian s.mem (s.x src + off.signExtend 64).toNat 1)))) ∧
      (s.params.memCapacity < (s.x src + off.signExtend 64).toNat + 1 →
        exec (.ldxb dst src off) s = .next (haltFailure (.outOfBounds (s.x src + off.signExtend 64) .b) s))) ∧
    (RowIs p 0x69 (fun d => .ldxh d.dst d.src d.off16) ∧
      ((s.x src + off.signExtend 64).toNat + 2 ≤ s.params.memCapacity →
        exec (.ldxh dst src off) s = .next (regWritten s dst (BitVec.ofNat 64 (littleEndian s.mem (s.x src + off.signExtend 64).toNat 2)))) ∧
      (s.params.memCapacity < (s.x src + off.signExtend 64).toNat + 2 →
        exec (.ldxh dst src off) s = .next (haltFailure (.outOfBounds (s.x src + off.signExtend 64) .h) s))) ∧
    (RowIs p 0x61 (fun d => .ldxw d.dst d.src d.off16) ∧
      ((s.x src + off.signExtend 64).toNat + 4 ≤ s.params.memCapacity →
        exec (.ldxw dst src off) s = .next (regWritten s dst (BitVec.ofNat 64 (littleEndian s.mem (s.x src + off.signExtend 64).toNat 4)))) ∧
      (s.params.memCapacity < (s.x src + off.signExtend 64).toNat + 4 →
        exec (.ldxw dst src off) s = .next (haltFailure (.outOfBounds (s.x src + off.signExtend 64) .w) s))) ∧
    (RowIs p 0x79 (fun d => .ldxdw d.dst d.src d.off16) ∧
      ((s.x src + off.signExtend 64).toNat + 8 ≤ s.params.memCapacity →
        exec (.ldxdw dst src off) s = .next (regWritten s dst (BitVec.ofNat 64 (littleEndian s.mem (s.x src + off.signExtend 64).toNat 8)))) ∧
      (s.params.memCapacity < (s.x src + off.signExtend 64).toNat + 8 →
        exec (.ldxdw dst src off) s = .next (haltFailure (.outOfBounds (s.x src + off.signExtend 64) .dw) s)))

/-- Stxb/h/w/dw store the low bytes of the source register, or halt out of bounds. Formalises R230, R231, R232, R233.
-/
def Obligations.StoreResults : Prop :=
  ∀ (p : Params) (s : State) (dst src : RegId) (off : BitVec 16), regIdOk dst = true → regIdOk src = true →
    Memory.wf s.mem = true →
    (RowIs p 0x73 (fun d => .stxb d.dst d.src d.off16) ∧
      ((s.x dst + off.signExtend 64).toNat + 1 ≤ s.params.memCapacity →
        ∃ m, exec (.stxb dst src off) s = .next (memWritten s m) ∧ StoredAt s.mem m (s.x dst + off.signExtend 64).toNat 1 (s.x src)) ∧
      (s.params.memCapacity < (s.x dst + off.signExtend 64).toNat + 1 →
        exec (.stxb dst src off) s = .next (haltFailure (.outOfBounds (s.x dst + off.signExtend 64) .b) s))) ∧
    (RowIs p 0x6b (fun d => .stxh d.dst d.src d.off16) ∧
      ((s.x dst + off.signExtend 64).toNat + 2 ≤ s.params.memCapacity →
        ∃ m, exec (.stxh dst src off) s = .next (memWritten s m) ∧ StoredAt s.mem m (s.x dst + off.signExtend 64).toNat 2 (s.x src)) ∧
      (s.params.memCapacity < (s.x dst + off.signExtend 64).toNat + 2 →
        exec (.stxh dst src off) s = .next (haltFailure (.outOfBounds (s.x dst + off.signExtend 64) .h) s))) ∧
    (RowIs p 0x63 (fun d => .stxw d.dst d.src d.off16) ∧
      ((s.x dst + off.signExtend 64).toNat + 4 ≤ s.params.memCapacity →
        ∃ m, exec (.stxw dst src off) s = .next (memWritten s m) ∧ StoredAt s.mem m (s.x dst + off.signExtend 64).toNat 4 (s.x src)) ∧
      (s.params.memCapacity < (s.x dst + off.signExtend 64).toNat + 4 →
        exec (.stxw dst src off) s = .next (haltFailure (.outOfBounds (s.x dst + off.signExtend 64) .w) s))) ∧
    (RowIs p 0x7b (fun d => .stxdw d.dst d.src d.off16) ∧
      ((s.x dst + off.signExtend 64).toNat + 8 ≤ s.params.memCapacity →
        ∃ m, exec (.stxdw dst src off) s = .next (memWritten s m) ∧ StoredAt s.mem m (s.x dst + off.signExtend 64).toNat 8 (s.x src)) ∧
      (s.params.memCapacity < (s.x dst + off.signExtend 64).toNat + 8 →
        exec (.stxdw dst src off) s = .next (haltFailure (.outOfBounds (s.x dst + off.signExtend 64) .dw) s)))

/-- Ja moves pc by the signed displacement, with no implicit +1. Formalises R251. -/
def Obligations.JumpAlwaysResult : Prop :=
  ∀ (p : Params) (s : State) (off : BitVec 16),
    RowIs p 0x05 (fun d => .ja d.off16) ∧ exec (.ja off) s = .next (jumped s (s.pc + off.signExtend 64))

/-- Jeq and jne branch on (in)equality of the two 64-bit operands. Formalises R252, R253, R262, R263. -/
def Obligations.EqualityJumpResults : Prop :=
  ∀ (p : Params) (s : State) (dst src : RegId) (imm : BitVec 32) (off : BitVec 16), regIdOk dst = true →
    regIdOk src = true →
    (RowIs p 0x15 (fun d => .jeqImm d.dst d.imm32 d.off16) ∧
      exec (.jeqImm dst imm off) s = .next (jumped s (if s.x dst = imm.signExtend 64 then s.pc + off.signExtend 64 else s.pc + 1))) ∧
    (RowIs p 0x1d (fun d => .jeqReg d.dst d.src d.off16) ∧
      exec (.jeqReg dst src off) s = .next (jumped s (if s.x dst = s.x src then s.pc + off.signExtend 64 else s.pc + 1))) ∧
    (RowIs p 0x55 (fun d => .jneImm d.dst d.imm32 d.off16) ∧
      exec (.jneImm dst imm off) s = .next (jumped s (if s.x dst ≠ imm.signExtend 64 then s.pc + off.signExtend 64 else s.pc + 1))) ∧
    (RowIs p 0x5d (fun d => .jneReg d.dst d.src d.off16) ∧
      exec (.jneReg dst src off) s = .next (jumped s (if s.x dst ≠ s.x src then s.pc + off.signExtend 64 else s.pc + 1)))

/-- Jgt, jge, jlt, jle branch on the unsigned order of the operands. Formalises R254, R255, R256, R257, R258, R259,
R260, R261. -/
def Obligations.UnsignedJumpResults : Prop :=
  ∀ (p : Params) (s : State) (dst src : RegId) (imm : BitVec 32) (off : BitVec 16), regIdOk dst = true →
    regIdOk src = true →
    (RowIs p 0x25 (fun d => .jgtImm d.dst d.imm32 d.off16) ∧
      exec (.jgtImm dst imm off) s = .next (jumped s (if (s.x dst).toNat > (imm.signExtend 64).toNat then s.pc + off.signExtend 64 else s.pc + 1))) ∧
    (RowIs p 0x2d (fun d => .jgtReg d.dst d.src d.off16) ∧
      exec (.jgtReg dst src off) s = .next (jumped s (if (s.x dst).toNat > (s.x src).toNat then s.pc + off.signExtend 64 else s.pc + 1))) ∧
    (RowIs p 0x35 (fun d => .jgeImm d.dst d.imm32 d.off16) ∧
      exec (.jgeImm dst imm off) s = .next (jumped s (if (s.x dst).toNat ≥ (imm.signExtend 64).toNat then s.pc + off.signExtend 64 else s.pc + 1))) ∧
    (RowIs p 0x3d (fun d => .jgeReg d.dst d.src d.off16) ∧
      exec (.jgeReg dst src off) s = .next (jumped s (if (s.x dst).toNat ≥ (s.x src).toNat then s.pc + off.signExtend 64 else s.pc + 1))) ∧
    (RowIs p 0xa5 (fun d => .jltImm d.dst d.imm32 d.off16) ∧
      exec (.jltImm dst imm off) s = .next (jumped s (if (s.x dst).toNat < (imm.signExtend 64).toNat then s.pc + off.signExtend 64 else s.pc + 1))) ∧
    (RowIs p 0xad (fun d => .jltReg d.dst d.src d.off16) ∧
      exec (.jltReg dst src off) s = .next (jumped s (if (s.x dst).toNat < (s.x src).toNat then s.pc + off.signExtend 64 else s.pc + 1))) ∧
    (RowIs p 0xb5 (fun d => .jleImm d.dst d.imm32 d.off16) ∧
      exec (.jleImm dst imm off) s = .next (jumped s (if (s.x dst).toNat ≤ (imm.signExtend 64).toNat then s.pc + off.signExtend 64 else s.pc + 1))) ∧
    (RowIs p 0xbd (fun d => .jleReg d.dst d.src d.off16) ∧
      exec (.jleReg dst src off) s = .next (jumped s (if (s.x dst).toNat ≤ (s.x src).toNat then s.pc + off.signExtend 64 else s.pc + 1)))

/-- Jsgt, jsge, jslt, jsle branch on the signed order of the operands. Formalises R264, R265, R266, R267, R268, R269,
R270, R271. -/
def Obligations.SignedJumpResults : Prop :=
  ∀ (p : Params) (s : State) (dst src : RegId) (imm : BitVec 32) (off : BitVec 16), regIdOk dst = true →
    regIdOk src = true →
    (RowIs p 0x65 (fun d => .jsgtImm d.dst d.imm32 d.off16) ∧
      exec (.jsgtImm dst imm off) s = .next (jumped s (if (s.x dst).toInt > imm.toInt then s.pc + off.signExtend 64 else s.pc + 1))) ∧
    (RowIs p 0x6d (fun d => .jsgtReg d.dst d.src d.off16) ∧
      exec (.jsgtReg dst src off) s = .next (jumped s (if (s.x dst).toInt > (s.x src).toInt then s.pc + off.signExtend 64 else s.pc + 1))) ∧
    (RowIs p 0x75 (fun d => .jsgeImm d.dst d.imm32 d.off16) ∧
      exec (.jsgeImm dst imm off) s = .next (jumped s (if (s.x dst).toInt ≥ imm.toInt then s.pc + off.signExtend 64 else s.pc + 1))) ∧
    (RowIs p 0x7d (fun d => .jsgeReg d.dst d.src d.off16) ∧
      exec (.jsgeReg dst src off) s = .next (jumped s (if (s.x dst).toInt ≥ (s.x src).toInt then s.pc + off.signExtend 64 else s.pc + 1))) ∧
    (RowIs p 0xc5 (fun d => .jsltImm d.dst d.imm32 d.off16) ∧
      exec (.jsltImm dst imm off) s = .next (jumped s (if (s.x dst).toInt < imm.toInt then s.pc + off.signExtend 64 else s.pc + 1))) ∧
    (RowIs p 0xcd (fun d => .jsltReg d.dst d.src d.off16) ∧
      exec (.jsltReg dst src off) s = .next (jumped s (if (s.x dst).toInt < (s.x src).toInt then s.pc + off.signExtend 64 else s.pc + 1))) ∧
    (RowIs p 0xd5 (fun d => .jsleImm d.dst d.imm32 d.off16) ∧
      exec (.jsleImm dst imm off) s = .next (jumped s (if (s.x dst).toInt ≤ imm.toInt then s.pc + off.signExtend 64 else s.pc + 1))) ∧
    (RowIs p 0xdd (fun d => .jsleReg d.dst d.src d.off16) ∧
      exec (.jsleReg dst src off) s = .next (jumped s (if (s.x dst).toInt ≤ (s.x src).toInt then s.pc + off.signExtend 64 else s.pc + 1)))

/-- Call pushes its own index and jumps, or halts with StackOverflow at the bound. Derived from 45_call_exit_ext.md,
Call and exit. -/
def Obligations.CallResult : Prop :=
  ∀ (p : Params) (s : State) (imm : BitVec 32),
    RowIs p 0x85 (fun d => .call d.imm32) ∧
    (s.callStack.length ≠ s.params.maxCallDepth →
      exec (.call imm) s = .next { s with callStack := s.pc :: s.callStack, pc := s.pc + imm.signExtend 64 }) ∧
    (s.callStack.length = s.params.maxCallDepth →
      exec (.call imm) s = .next (haltFailure (.plain .stackOverflow) s))

/-- Exit returns to after the call, or ends the program with x[0] as exit code. Derived from 45_call_exit_ext.md, Call
and exit. -/
def Obligations.ExitResult : Prop :=
  ∀ (p : Params) (s : State),
    RowIs p 0x95 (fun _ => .exit) ∧
    (∀ top rest, s.callStack = top :: rest →
      exec .exit s = .next { s with callStack := rest, pc := top + 1 }) ∧
    (s.callStack = [] → exec .exit s = .next (haltSuccess (s.x 0) s))

/-- Invoke and return open and close a CPI level, or halt at the bounds; log only advances. Derived from
45_call_exit_ext.md, Extension opcodes. Params.Valid adds two bounds of the model's own (log 19). -/
def Obligations.ExtensionResults : Prop :=
  ∀ (p : Params) (s : State), p.Valid →
    (RowIs p p.extInvoke (fun _ => .invoke) ∧
      (s.cpiDepth.toNat ≠ s.params.maxCpiDepth →
        exec .invoke s = .next { s with cpiDepth := s.cpiDepth + 1, pc := s.pc + 1 }) ∧
      (s.cpiDepth.toNat = s.params.maxCpiDepth →
        exec .invoke s = .next (haltFailure (.plain .stackOverflow) s))) ∧
    (RowIs p p.extLog (fun _ => .log) ∧ exec .log s = .next (jumped s (s.pc + 1))) ∧
    (RowIs p p.extReturn (fun _ => .cpiReturn) ∧
      (s.cpiDepth ≠ 0 → exec .cpiReturn s = .next { s with cpiDepth := s.cpiDepth - 1, pc := s.pc + 1 }) ∧
      (s.cpiDepth = 0 → exec .cpiReturn s = .next (haltFailure (.plain .stackUnderflow) s)))

/-- A halt writes ENG_STATE and the result latches, and nothing else. Formalises R150, R151. -/
def Obligations.HaltsWriteLatchesOnly : Prop :=
  ∀ (s : State) (e : Raised) (code : Word),
    haltFailure e s =
      { s with
        engState := .haltedFailure
        latches :=
          { exitCode := 0, failCode := e.kind.code, failPc := s.pc,
            failAddr := if e.kind = .memoryOutOfBounds then e.addr else 0,
            failWidth := if e.kind = .memoryOutOfBounds then e.width else 0,
            resCuUsed := s.meter.cuUsed, resCycUsed := s.meter.cycUsed, resLog := s.log } } ∧
    haltSuccess code s =
      { s with
        engState := .haltedSuccess
        latches :=
          { exitCode := code, failCode := 0, failPc := 0, failAddr := 0, failWidth := 0,
            resCuUsed := s.meter.cuUsed, resCycUsed := s.meter.cycUsed, resLog := s.log } }

/-- Get and set of registers 0 to 10; InvalidRegister above; every register writable. Derived from 10_state.md,
General registers. -/
def Obligations.RegisterFileContract : Prop :=
  ∀ (s : State) (r q : RegId) (v : Word),
    (r.toNat ≤ 10 → readReg r s = .ok (s.x r) ∧
      ∃ regs, writeReg r v s = .ok { s with regs := regs } ∧
        (q.toNat ≤ 10 → readReg q { s with regs := regs } = .ok (if q = r then v else s.x q))) ∧
    (10 < r.toNat → readReg r s = .error (.plain .invalidRegister) ∧
      writeReg r v s = .error (.plain .invalidRegister))

/-- MemRead answers the little-endian sum inside the capacity, else fails. Formalises R62. -/
def Obligations.CheckedMemoryRead : Prop :=
  ∀ (s : State) (addr : Word) (n : Width),
    (addr.toNat + n.bytes ≤ s.params.memCapacity →
      ∃ v, memRead addr n s = .ok v ∧ v.toNat = littleEndian s.mem addr.toNat n.bytes) ∧
    (s.params.memCapacity < addr.toNat + n.bytes → memRead addr n s = .error (.outOfBounds addr n))

/-- MemWrite writes exactly the n bytes inside the capacity, else writes none. Formalises R63. -/
def Obligations.CheckedMemoryWrite : Prop :=
  ∀ (s : State) (addr : Word) (n : Width) (v : Word), Memory.wf s.mem = true →
    (addr.toNat + n.bytes ≤ s.params.memCapacity →
      ∃ m, memWrite addr n v s = .ok { s with mem := m } ∧ StoredAt s.mem m addr.toNat n.bytes v ∧
        Memory.wf m = true) ∧
    (s.params.memCapacity < addr.toNat + n.bytes → memWrite addr n v s = .error (.outOfBounds addr n))

/-- Narrow reads see the bytes an 8-byte write left, little-endian. Derived from 20_memory.md, Checked access. -/
def Obligations.MixedWidthReadBack : Prop :=
  ∀ (s t : State) (addr : Word) (v : Word) (k : Nat), Memory.wf s.mem = true → s.params.memCapacity ≤ 2 ^ 64 →
    memWrite addr .dw v s = .ok t → k < 8 →
    memRead (addr + BitVec.ofNat 64 k) .b t = .ok ((byteOf v k).setWidth 64) ∧
      memRead addr .w t = .ok ((v.extractLsb' 0 32).setWidth 64)

/-- A Running step: ceiling, fetch, charge (a budget halt rolls back), count, dispatch, first failure wins. Formalises
R145, R146, R147, R148. Its clause on autoRollback says what the rollback that R147 names does, as 46_checkpoint.md
R321 and R315 describe it. -/
def Obligations.StepPhasesInOrder : Prop :=
  (∀ (s : State) (base : Snapshot), s.ckpt.txnBase = some base →
      autoRollback s =
        { restore base s with
          ckpt := { stack := [], txnBase := none, nextId := s.ckpt.nextId, dirty := false } } ∧
      (autoRollback s).engState = s.engState ∧ (autoRollback s).latches = s.latches) ∧
  ∀ (s : State), s.engState = .running →
    (s.params.maxSteps ≤ s.stepCount.toNat → step s = .next (haltFailure (.plain .stepLimitExceeded) s)) ∧
    (s.stepCount.toNat < s.params.maxSteps → s.prog.length ≤ s.pc.toNat →
      step s = .next (haltFailure (.plain .pcOutOfBounds) s)) ∧
    (s.stepCount.toNat < s.params.maxSteps →
      ∀ d i, s.prog[s.pc.toNat]? = some d → d.instr? s.params = some i →
        (∀ e, charge (chargeOf s.meter.cfg i).1 (chargeOf s.meter.cfg i).2 s = .error e →
          step s = .next (autoRollback (haltFailure (.plain .insufficientBudget) s))) ∧
        (∀ t, charge (chargeOf s.meter.cfg i).1 (chargeOf s.meter.cfg i).2 s = .ok t →
          step s = exec i { t with stepCount := s.stepCount + 1 }))

/-- The bytes of a well-formed instruction, placed by the host, run as that instruction. Derived from 41_engine.md,
The step; 30_encoding.md, The decode algorithm. The placing of one instruction with an unbounded budget is the model's
own choice (log 7). -/
def Obligations.StepRunsPlacedInstruction : Prop :=
  ∀ (s : State) (i : Instr) (rest : List Byte), s.params.Valid → i.wellFormed = true →
    (placeInstruction (encode s.params i ++ rest) s).engState = .running ∧
    ∀ t, charge (chargeOf s.meter.cfg i).1 (chargeOf s.meter.cfg i).2
        (placeInstruction (encode s.params i ++ rest) s) = .ok t →
      step (placeInstruction (encode s.params i ++ rest) s) = exec i { t with stepCount := 1 }

/-- Every step of every state answers a next state. Derived from 60_exceptions.md, Failure kinds and codes;
41_engine.md, The step. That an idle block's step answers a next state is the model's reading (log 6). -/
def Obligations.StepAlwaysAnswersNextState : Prop :=
  (∀ i s, ∃ t, exec i s = .next t) ∧ ∀ s, ∃ t, step s = .next t

/-- A block that is not Running, with no RUN to return and no command issued, stays as it is. Derived from
41_engine.md, States and the run command. That an idle block's step leaves the state unchanged is the model's reading
(log 6). The pending RUN and the queue are the model's own (log 5). -/
def Obligations.IdleWithoutCommandsStays : Prop :=
  ∀ (s : State), s.engState ≠ .running → s.runPending = false → s.hostIn = [] → step s = .next s

/-- RUN returns only after the halt; commands are taken one at a time, oldest first, never while Running. Derived from
70_reset_and_hazards.md, Host interface; 41_engine.md, States and the run command. The queues hostIn and hostOut and
the pending RUN are the model's own (log 5). -/
def Obligations.HostCommandsTakenInOrder : Prop :=
  ∀ (s : State),
    (s.engState = .running → ∀ t, step s = .next t →
      t.hostIn = s.hostIn ∧ t.hostOut = s.hostOut ∧ t.runPending = s.runPending) ∧
    (s.engState ≠ .running → s.runPending = true →
      step s = .next { s with hostOut := s.hostOut ++ [.done], runPending := false }) ∧
    (s.engState ≠ .running → s.runPending = false → ∀ c rest, s.hostIn = c :: rest →
      step s =
        .next
          { (hostCommand c { s with hostIn := rest }).2 with
            hostOut :=
              (hostCommand c { s with hostIn := rest }).2.hostOut ++
                (hostCommand c { s with hostIn := rest }).1.toList })

/-- A host command that returns an error changes no state. Derived from 70_reset_and_hazards.md, Host interface;
46_checkpoint.md, Atomicity, ownership, log and accounts. -/
def Obligations.HostErrorsChangeNothing : Prop :=
  ∀ (c : HostCommand) (s : State) (k : FailKind), (hostCommand c s).1 = some (.error k) → (hostCommand c s).2 = s

/-- An instruction changes no register but its destination and no byte unless it is a store. Derived from 10_state.md,
General registers; 43_load_store.md, Common rule; 41_engine.md, The step. -/
def Obligations.InstructionFrame : Prop :=
  ∀ (i : Instr) (s t : State), exec i s = .next t →
    (∀ r, destination i ≠ some r → t.x r = s.x r) ∧
    (isStore i = false → ∀ a, Memory.get t.mem a = Memory.get s.mem a) ∧
    (i ≠ .exit → (∀ imm, i ≠ .call imm) → t.callStack = s.callStack) ∧
    (i ≠ .invoke → i ≠ .cpiReturn → t.cpiDepth = s.cpiDepth)

/-- No instruction writes the host side; a Running state that stays Running keeps its latches. Derived from
60_exceptions.md, Privilege; 20_memory.md, Ordering. The clause on the latches is for a Running state only. The queues
and the pending RUN among the host's side are the model's own (log 5). -/
def Obligations.GuestCannotWriteHostSide : Prop :=
  ∀ (i : Instr) (s t : State), exec i s = .next t →
    hostSide t = hostSide s ∧ (t.engState = s.engState → s.engState = .running → t.latches = s.latches)

/-- What an instruction does to guest state depends on guest state only. Derived from 60_exceptions.md, Privilege. -/
def Obligations.GuestReadsOnlyGuestState : Prop :=
  ∀ (i : Instr) (s s' t t' : State), guestView s = guestView s' → exec i s = .next t → exec i s' = .next t' →
    guestView t = guestView t'

/-- An instruction that fails writes only the engine state and the latches. Derived from 41_engine.md, The step;
60_exceptions.md, Halt entry. -/
def Obligations.FailingInstructionIsPrecise : Prop :=
  ∀ (i : Instr) (s t : State), s.engState = .running → exec i s = .next t → t.engState = .haltedFailure →
    t = { s with engState := .haltedFailure, latches := t.latches } ∧ t.latches.failPc = s.pc

/-- An instruction that completes and does not set pc advances it by one. Derived from 41_engine.md, The step;
10_state.md, Program counter. -/
def Obligations.DefaultAdvanceOfCompletedInstruction : Prop :=
  ∀ (i : Instr) (s t : State), isControl i = false → s.engState = .running → exec i s = .next t →
    t.engState = .running → t.pc = s.pc + 1

/-- An instruction that names a register above 10 halts and writes nothing. Derived from 10_state.md, General
registers; 30_encoding.md, The decode algorithm. What the engine does with an ill-formed instruction is the model's
reading of the register-file contract (log 9). -/
def Obligations.IllFormedInstructionHalts : Prop :=
  ∀ (i : Instr) (s : State), i.wellFormed = false → ∃ e, exec i s = .next (haltFailure e s)

/-- Charge commits the exact floored cost to both domains, or raises and changes nothing. Formalises R114, R116, R117,
R118. -/
def Obligations.ChargeCommitsOrRefuses : Prop :=
  ∀ (s : State) (c : Category) (units cu cyc : Nat),
    cu = units * s.meter.cfg.baseRate.toNat * (multOf s.meter.cfg c).toNat * s.meter.memPressure.toNat *
      s.meter.proofComplexity.toNat / 10 ^ 9 →
    cyc = cu * s.meter.cfg.cyclesPerCu.toNat →
    (s.meter.cuUsed.toNat + cu ≤ s.meter.cuLimit.toNat ∧ s.meter.cycUsed.toNat + cyc ≤ s.meter.cycLimit.toNat →
      ∃ u w : Word, u.toNat = s.meter.cuUsed.toNat + cu ∧ w.toNat = s.meter.cycUsed.toNat + cyc ∧
        charge c units s = .ok { s with meter := { s.meter with cuUsed := u, cycUsed := w } }) ∧
    (¬(s.meter.cuUsed.toNat + cu ≤ s.meter.cuLimit.toNat ∧ s.meter.cycUsed.toNat + cyc ≤ s.meter.cycLimit.toNat) →
      charge c units s = .error (.plain .insufficientBudget))

/-- A charge whose cost is 0 succeeds and changes nothing. Derived from 40_compute_meter.md, Properties and example.
-/
def Obligations.ZeroCostChargeChangesNothing : Prop :=
  ∀ (s : State) (c : Category) (units : Nat), MeterOk s.meter → costCu s.meter c units = 0 → charge c units s = .ok s

/-- An engine step lowers no used counter unless it is the budget halt's rollback. Derived from 40_compute_meter.md,
Dynamic factors. -/
def Obligations.EngineStepNeverLowersUsedCounters : Prop :=
  ∀ (s t : State), s.engState = .running → step s = .next t →
    t.latches.failCode ≠ FailKind.insufficientBudget.code →
    s.meter.cuUsed ≤ t.meter.cuUsed ∧ s.meter.cycUsed ≤ t.meter.cycUsed

/-- UPDATE_FACTORS writes both factors; no factor or CSR write touches a used counter. Formalises R120, R121. -/
def Obligations.FactorsAndConfigurationNeverRescale : Prop :=
  ∀ (s t : State) (mp cl : BitVec 32) (i : BitVec 8) (v : Word) (c : Category) (units : Nat),
    hostCommand (.updateFactors mp cl) s =
      (some .done, { s with meter := { s.meter with memPressure := mp, proofComplexity := cl } }) ∧
    (mp = 0 ∨ cl = 0 → costCu { s.meter with memPressure := mp, proofComplexity := cl } c units = 0) ∧
    (csrWrite i v s = .ok t → t.meter.cuUsed = s.meter.cuUsed ∧ t.meter.cycUsed = s.meter.cycUsed)

/-- Every instruction is charged in the category and raw units of the charge table. Derived from 40_compute_meter.md,
The charge. -/
def Obligations.ChargeTableOfInstructions : Prop :=
  ∀ (cfg : MeterConfig) (dst src : RegId) (imm : BitVec 32) (imm64 : BitVec 64) (off : BitVec 16),
    (∀ i ∈ ([
        .add64Imm dst imm, .add64Reg dst src, .sub64Imm dst imm, .sub64Reg dst src, .mul64Imm dst imm,
        .mul64Reg dst src, .div64Imm dst imm, .div64Reg dst src, .or64Imm dst imm, .or64Reg dst src,
        .and64Imm dst imm, .and64Reg dst src, .lsh64Imm dst imm, .lsh64Reg dst src, .rsh64Imm dst imm,
        .rsh64Reg dst src, .neg64 dst, .mod64Imm dst imm, .mod64Reg dst src, .xor64Imm dst imm,
        .xor64Reg dst src, .mov64Imm dst imm, .mov64Reg dst src, .arsh64Imm dst imm, .arsh64Reg dst src,
        .lddw dst imm64] : List Instr), chargeOf cfg i = (.arith, 1)) ∧
    (∀ i ∈ ([
        .ldabsb dst imm, .ldabsh dst imm, .ldabsw dst imm, .ldabsdw dst imm, .ldxb dst src off,
        .ldxh dst src off, .ldxw dst src off, .ldxdw dst src off, .stxb dst src off, .stxh dst src off,
        .stxw dst src off, .stxdw dst src off] : List Instr), chargeOf cfg i = (.memory, 1)) ∧
    (∀ i ∈ ([
        .ja off, .jeqImm dst imm off, .jeqReg dst src off, .jgtImm dst imm off, .jgtReg dst src off,
        .jgeImm dst imm off, .jgeReg dst src off, .jltImm dst imm off, .jltReg dst src off, .jleImm dst imm off,
        .jleReg dst src off, .jneImm dst imm off, .jneReg dst src off, .jsgtImm dst imm off,
        .jsgtReg dst src off, .jsgeImm dst imm off, .jsgeReg dst src off, .jsltImm dst imm off,
        .jsltReg dst src off, .jsleImm dst imm off, .jsleReg dst src off, .call imm, .exit] : List Instr), chargeOf cfg i = (.control, 1)) ∧
    chargeOf cfg .invoke = (.cpi, cfg.invokeUnits.toNat) ∧ chargeOf cfg .log = (.syscall, cfg.logUnits.toNat) ∧
    chargeOf cfg .cpiReturn = (.syscall, cfg.returnUnits.toNat)

/-- Each CSR index reads the register R45 names; writes store 32 bits in the RW ones only. Derived from 10_state.md,
Host-visible control and status registers. CALL_DEPTH, PROG_LEN, CKPT_DEPTH, CKPT_TOP_ID, LOG_LEN and RES_LOG_LEN are
read off what they count (log 3), the counts modulo 2^64 (log 17). -/
def Obligations.CsrPortAccess : Prop :=
  ∀ (s : State) (i : BitVec 8) (v : Word),
    (∀ row ∈ ([
        (0x01#8, s.latches.exitCode), (0x02#8, s.latches.failPc), (0x03#8, s.latches.failAddr),
        (0x04#8, s.latches.failWidth.setWidth 64), (0x05#8, s.pc), (0x06#8, s.stepCount),
        (0x07#8, BitVec.ofNat 64 s.callStack.length), (0x08#8, s.cpiDepth), (0x09#8, BitVec.ofNat 64 s.prog.length),
        (0x0a#8, s.progBytes), (0x0b#8, BitVec.ofNat 64 s.ckpt.stack.length),
        (0x0c#8, (s.ckpt.stack.head?.map Checkpoint.id).getD 0), (0x0d#8, s.ckpt.nextId),
        (0x0e#8, BitVec.ofNat 64 s.log.length), (0x0f#8, BitVec.ofNat 64 s.latches.resLog.length),
        (0x10#8, s.meter.cuLimit), (0x11#8, s.meter.cycLimit), (0x12#8, s.meter.cuUsed), (0x13#8, s.meter.cycUsed),
        (0x14#8, s.latches.resCuUsed), (0x15#8, s.latches.resCycUsed), (0x18#8, s.meter.memPressure.setWidth 64),
        (0x19#8, s.meter.proofComplexity.setWidth 64), (0x20#8, s.meter.cfg.baseRate.setWidth 64),
        (0x21#8, s.meter.cfg.cyclesPerCu.setWidth 64), (0x22#8, s.meter.cfg.invokeUnits.setWidth 64),
        (0x23#8, s.meter.cfg.logUnits.setWidth 64), (0x24#8, s.meter.cfg.returnUnits.setWidth 64),
        (0x25#8, s.meter.cfg.checkpointUnits.setWidth 64), (0x28#8, s.meter.cfg.mult[0].setWidth 64),
        (0x29#8, s.meter.cfg.mult[1].setWidth 64), (0x2a#8, s.meter.cfg.mult[2].setWidth 64),
        (0x2b#8, s.meter.cfg.mult[3].setWidth 64), (0x2c#8, s.meter.cfg.mult[4].setWidth 64),
        (0x2d#8, s.meter.cfg.mult[5].setWidth 64), (0x2e#8, s.meter.cfg.mult[6].setWidth 64),
        (0x2f#8, s.meter.cfg.mult[7].setWidth 64) ] : List (BitVec 8 × Word)),
      csrRead row.1 s = .ok row.2) ∧
    (∀ row ∈ ([
        (0x20#8, { s.meter.cfg with baseRate := v.setWidth 32 }),
        (0x21#8, { s.meter.cfg with cyclesPerCu := v.setWidth 32 }),
        (0x22#8, { s.meter.cfg with invokeUnits := v.setWidth 32 }),
        (0x23#8, { s.meter.cfg with logUnits := v.setWidth 32 }),
        (0x24#8, { s.meter.cfg with returnUnits := v.setWidth 32 }),
        (0x25#8, { s.meter.cfg with checkpointUnits := v.setWidth 32 }),
        (0x28#8, { s.meter.cfg with mult := s.meter.cfg.mult.set 0 (v.setWidth 32) }),
        (0x29#8, { s.meter.cfg with mult := s.meter.cfg.mult.set 1 (v.setWidth 32) }),
        (0x2a#8, { s.meter.cfg with mult := s.meter.cfg.mult.set 2 (v.setWidth 32) }),
        (0x2b#8, { s.meter.cfg with mult := s.meter.cfg.mult.set 3 (v.setWidth 32) }),
        (0x2c#8, { s.meter.cfg with mult := s.meter.cfg.mult.set 4 (v.setWidth 32) }),
        (0x2d#8, { s.meter.cfg with mult := s.meter.cfg.mult.set 5 (v.setWidth 32) }),
        (0x2e#8, { s.meter.cfg with mult := s.meter.cfg.mult.set 6 (v.setWidth 32) }),
        (0x2f#8, { s.meter.cfg with mult := s.meter.cfg.mult.set 7 (v.setWidth 32) }) ] :
          List (BitVec 8 × MeterConfig)),
      csrWrite row.1 v s = .ok { s with meter := { s.meter with cfg := row.2 } }) ∧
    (i ∈ [0x20, 0x21, 0x22, 0x23, 0x24, 0x25, 0x28, 0x29, 0x2a, 0x2b, 0x2c, 0x2d, 0x2e, 0x2f] →
      ∃ cfg, csrWrite i v s = .ok { s with meter := { s.meter with cfg := cfg } } ∧
        ∀ j, csrRead j { s with meter := { s.meter with cfg := cfg } } =
          if j = i then .ok ((v.setWidth 32).setWidth 64) else csrRead j s) ∧
    (i ∉ [0x20, 0x21, 0x22, 0x23, 0x24, 0x25, 0x28, 0x29, 0x2a, 0x2b, 0x2c, 0x2d, 0x2e, 0x2f] →
      csrWrite i v s = .error .invalidRegister) ∧
    (i.toNat ≤ 0x15 ∨ i = 0x18 ∨ i = 0x19 ∨ (0x20 ≤ i.toNat ∧ i.toNat ≤ 0x25) ∨ (0x28 ≤ i.toNat ∧ i.toNat ≤ 0x2f) →
      ∃ w, csrRead i s = .ok w) ∧
    (¬(i.toNat ≤ 0x15 ∨ i = 0x18 ∨ i = 0x19 ∨ (0x20 ≤ i.toNat ∧ i.toNat ≤ 0x25) ∨
        (0x28 ≤ i.toNat ∧ i.toNat ≤ 0x2f)) → csrRead i s = .error .invalidRegister)

/-- STATUS packs ENG_STATE, TXN_OPEN, DIRTY and FAIL_CODE; every other bit is 0. Formalises R47. -/
def Obligations.StatusRegisterPacking : Prop :=
  ∀ (s : State), ∃ w, csrRead 0x00 s = .ok w ∧
    w.extractLsb' 0 2 =
      (match s.engState with
        | .idle => 0
        | .running => 1
        | .haltedSuccess => 2
        | .haltedFailure => 3) ∧
    w.getLsbD 2 = s.ckpt.txnBase.isSome ∧ w.getLsbD 3 = s.ckpt.dirty ∧ w.extractLsb' 8 8 = s.latches.failCode ∧
    ∀ k, (4 ≤ k ∧ k < 8) ∨ 16 ≤ k → w.getLsbD k = false

/-- RUN: refused without a transaction, halted on a bad stream, else the context is reset. Derived from 41_engine.md,
States and the run command. The answers, the pending RUN, the emptied program store, the kept RES latches and the
counts modulo 2^64 are the model's reading (log 5, log 4, log 8, log 17). -/
def Obligations.RunCommandStartsOrRejects : Prop :=
  ∀ (s : State) (bytes : List Byte),
    (s.txnOpen = false → hostCommand (.run bytes) s = (some (.error .noCheckpointAvailable), s)) ∧
    (s.txnOpen = true → ∀ e, decodeProgram s.params bytes = .error e →
      hostCommand (.run bytes) s =
        (some .done,
          { s with
            prog := [], progBytes := 0, stepCount := 0, engState := .haltedFailure
            latches :=
              { exitCode := 0
                failCode :=
                  match e.kind with
                  | .truncatedInstruction => 9
                  | .invalidRegister => 4
                  | .invalidOpcode => 3
                failPc := BitVec.ofNat 64 e.index, failAddr := BitVec.ofNat 64 e.offset, failWidth := 0,
                resCuUsed := s.meter.cuUsed, resCycUsed := s.meter.cycUsed, resLog := s.log } })) ∧
    (s.txnOpen = true → ∀ prog, decodeProgram s.params bytes = .ok prog →
      hostCommand (.run bytes) s =
        (none,
          { s with
            runPending := true, prog := prog, progBytes := BitVec.ofNat 64 bytes.length
            regs := s.params.regInit, pc := 0,
            callStack := [], cpiDepth := 0, stepCount := 0, engState := .running
            latches :=
              { s.latches with exitCode := 0, failCode := 0, failPc := 0, failAddr := 0, failWidth := 0 } }))

/-- Capture takes every snapshot field; Restore writes every one back and nothing else. Formalises R311, R312. -/
def Obligations.CaptureAndRestoreFields : Prop :=
  ∀ (s : State) (snap : Snapshot),
    capture s =
      { regs := s.regs, pc := s.pc, mem := s.mem, cuUsed := s.meter.cuUsed, cycUsed := s.meter.cycUsed,
        logLen := s.log.length, accounts := s.accounts, dirty := s.ckpt.dirty } ∧
    restore snap s =
      { s with
        regs := snap.regs, pc := snap.pc, mem := snap.mem, log := s.log.take snap.logLen, accounts := snap.accounts
        meter := { s.meter with cuUsed := snap.cuUsed, cycUsed := snap.cycUsed }
        ckpt := { s.ckpt with dirty := snap.dirty } }

/-- BEGIN, COMMIT and ROLLBACK of the outermost transaction. Formalises R313, R314, R315. -/
def Obligations.TransactionCommands : Prop :=
  ∀ (s : State) (cu cyc : Word),
    (s.ckpt.txnBase.isSome = true →
      hostCommand (.beginTransaction cu cyc) s = (some (.error .noCheckpointAvailable), s)) ∧
    (s.ckpt.txnBase = none →
      hostCommand (.beginTransaction cu cyc) s =
        (some .done,
          { s with
            meter := { s.meter with cuLimit := cu, cycLimit := cyc, cuUsed := 0, cycUsed := 0 }
            ckpt :=
              { s.ckpt with
                dirty := false
                txnBase :=
                  some
                    { regs := s.regs, pc := s.pc, mem := s.mem, cuUsed := 0, cycUsed := 0, logLen := s.log.length,
                      accounts := s.accounts, dirty := false } } })) ∧
    (s.ckpt.txnBase = none ∨ s.ckpt.stack ≠ [] →
      hostCommand .commitTransaction s = (some (.error .noCheckpointAvailable), s)) ∧
    (s.ckpt.txnBase.isSome = true → s.ckpt.stack = [] →
      hostCommand .commitTransaction s = (some .done, { s with ckpt := { s.ckpt with txnBase := none, dirty := false } })) ∧
    (s.ckpt.txnBase = none → hostCommand .rollbackTransaction s = (some (.error .noCheckpointAvailable), s)) ∧
    (∀ base, s.ckpt.txnBase = some base →
      hostCommand .rollbackTransaction s =
        (some .done,
          { restore base s with
            ckpt := { stack := [], txnBase := none, nextId := s.ckpt.nextId, dirty := false } }))

/-- CREATE_CHECKPOINT: transaction, bound, budget, then push the snapshot taken before the charge. Derived from
46_checkpoint.md, Nested checkpoints; 10_state.md, Checkpoint and transaction state. That CKPT_NEXT_ID plus one wraps
modulo 2^64 is the model's own choice (log 16). -/
def Obligations.CreateCheckpointCommand : Prop :=
  ∀ (s : State),
    (s.ckpt.txnBase = none → hostCommand .createCheckpoint s = (some (.error .noCheckpointAvailable), s)) ∧
    (s.ckpt.txnBase.isSome = true → s.ckpt.stack.length = s.params.maxCheckpoints →
      hostCommand .createCheckpoint s = (some (.error .stackOverflow), s)) ∧
    (s.ckpt.txnBase.isSome = true → s.ckpt.stack.length ≠ s.params.maxCheckpoints →
      (∀ e, charge .checkpoint s.meter.cfg.checkpointUnits.toNat s = .error e →
        hostCommand .createCheckpoint s = (some (.error .insufficientBudget), s)) ∧
      (∀ t, charge .checkpoint s.meter.cfg.checkpointUnits.toNat s = .ok t →
        hostCommand .createCheckpoint s =
          (some (.value s.ckpt.nextId),
            { t with
              ckpt :=
                { s.ckpt with
                  stack := { id := s.ckpt.nextId, snap := capture s } :: s.ckpt.stack
                  nextId := s.ckpt.nextId + 1 } })))

/-- COMMIT and ROLLBACK of a checkpoint act on the top id only. Formalises R317, R318. -/
def Obligations.ResolveCheckpointCommands : Prop :=
  ∀ (s : State) (id : Word),
    ((∀ top rest, s.ckpt.stack = top :: rest → id ≠ top.id) →
      hostCommand (.commitCheckpoint id) s = (some (.error .noCheckpointAvailable), s) ∧
      hostCommand (.rollbackCheckpoint id) s = (some (.error .noCheckpointAvailable), s)) ∧
    (∀ top rest, s.ckpt.stack = top :: rest → id = top.id →
      hostCommand (.commitCheckpoint id) s = (some .done, { s with ckpt := { s.ckpt with stack := rest, dirty := true } }) ∧
      hostCommand (.rollbackCheckpoint id) s =
        (some .done, restore top.snap { s with ckpt := { s.ckpt with stack := rest } }))

/-- LOG_APPEND, LOG_READ, ACCOUNT_WRITE and ACCOUNT_READ. Formalises R327. -/
def Obligations.LogAndAccountCommands : Prop :=
  ∀ (s : State) (e : LogEntry) (i : Word) (a : AccountState),
    hostCommand (.logAppend e) s = (some .done, { s with log := s.log ++ [e] }) ∧
    (∀ h : i.toNat < s.log.length, hostCommand (.logRead i) s = (some (.entry s.log[i.toNat]), s)) ∧
    (s.log.length ≤ i.toNat → hostCommand (.logRead i) s = (some (.error .memoryOutOfBounds), s)) ∧
    hostCommand (.accountWrite a) s = (some .done, { s with accounts := a }) ∧
    hostCommand .accountRead s = (some (.accounts s.accounts), s)

/-- The host's register, memory and CHARGE ports make the checks of the units behind them. Derived from
70_reset_and_hazards.md, Host interface; 20_memory.md, Host access; 40_compute_meter.md, Host access to the meter. -/
def Obligations.RegisterMemoryAndChargePorts : Prop :=
  ∀ (s : State) (r : RegId) (addr v category units : Word) (n : Width),
    (10 < r.toNat → hostCommand (.regRead r) s = (some (.error .invalidRegister), s) ∧
      hostCommand (.regWrite r v) s = (some (.error .invalidRegister), s)) ∧
    (r.toNat ≤ 10 → hostCommand (.regRead r) s = (some (.value (s.x r)), s) ∧
      ∃ t, writeReg r v s = .ok t ∧ hostCommand (.regWrite r v) s = (some .done, t)) ∧
    (s.params.memCapacity < addr.toNat + n.bytes →
      hostCommand (.memRead addr n) s = (some (.error .memoryOutOfBounds), s) ∧
      hostCommand (.memWrite addr n v) s = (some (.error .memoryOutOfBounds), s)) ∧
    (addr.toNat + n.bytes ≤ s.params.memCapacity →
      (∃ w, memRead addr n s = .ok w ∧ hostCommand (.memRead addr n) s = (some (.value w), s)) ∧
      ∃ t, memWrite addr n v s = .ok t ∧ hostCommand (.memWrite addr n v) s = (some .done, t)) ∧
    (7 < category.toNat → hostCommand (.charge category units) s = (some (.error .invalidRegister), s)) ∧
    (category.toNat ≤ 7 → ∃ c : Category, c.num = category.toNat ∧
      (∀ t, charge c units.toNat s = .ok t → hostCommand (.charge category units) s = (some .done, t)) ∧
      (∀ e, charge c units.toNat s = .error e →
        hostCommand (.charge category units) s = (some (.error .insufficientBudget), s)))

/-- Every step of every good state leaves a good state. Derived from 10_state.md, Compute-meter state;
46_checkpoint.md, Atomicity, ownership, log and accounts. Params.Valid adds two bounds of the model's own (log 19).
Its clause on the meter is R37's; the queues the host's commands come from are the model's (log 5). -/
def Obligations.EveryStepKeepsTheInvariant : Prop :=
  ∀ (s t : State), Inv s → step s = .next t → Inv t ∧ t.params = s.params

/-- The power-on state meets the invariant, for every valid choice of parameters. Derived from 10_state.md, Power-on
values and ownership; 70_reset_and_hazards.md, Reset. Params.Valid adds two bounds of the model's own (log 19). That
the registers are 0 at power-on whatever REG_INIT is, is the model's reading (log 14). -/
def Obligations.PowerOnMeetsTheInvariant : Prop :=
  (∀ p : Params, p.Valid → Inv (State.powerOn p) ∧ IdsOk (State.powerOn p)) ∧ State.reset.params.Valid

/-- Every step keeps the checkpoint ids strictly rising and below CKPT_NEXT_ID. Derived from 46_checkpoint.md, Nested
checkpoints; 10_state.md, Checkpoint and transaction state. The premise keeps CKPT_NEXT_ID from wrapping, which is the
model's own choice (log 16). -/
def Obligations.EveryStepKeepsCheckpointIdsRising : Prop :=
  ∀ (s t : State), IdsOk s → s.ckpt.nextId ≠ BitVec.allOnes 64 → step s = .next t →
    IdsOk t ∧ s.ckpt.nextId ≤ t.ckpt.nextId

/-- Every run halts after at most MAX_STEPS charged steps and one more. Derived from 41_engine.md, The step;
44_branch.md, Corner cases of the family. Params.Valid adds two bounds of the model's own (log 19). -/
def Obligations.EveryRunTerminates : Prop :=
  ∀ (s : State), s.params.Valid → s.engState = .running → s.stepCount.toNat ≤ s.params.maxSteps →
    halted (runToHalt (s.params.maxSteps - s.stepCount.toNat + 1) s) ∧
    (runToHalt (s.params.maxSteps - s.stepCount.toNat + 1) s).stepCount.toNat ≤ s.params.maxSteps

/-- Rolling a checkpoint back restores every snapshot field, whatever happened in between. Derived from
46_checkpoint.md, Atomicity, ownership, log and accounts. The bound on n keeps CKPT_NEXT_ID from wrapping, which is
the model's own choice (log 16). -/
def Obligations.CheckpointRollbackIsARoundTrip : Prop :=
  ∀ (s s1 u : State) (k : Word) (n : Nat), IdsOk s → s.ckpt.nextId.toNat + n + 1 < 2 ^ 64 →
    createCheckpoint s = .ok (k, s1) → rollbackCheckpoint k (after n s1) = .ok u →
    capture u = capture s ∧ u.log = s.log

/-- A run begun right after BEGIN_TRANSACTION that exhausts its budget leaves no effect. Derived from
46_checkpoint.md, Automatic rollback; 46_checkpoint.md, Atomicity, ownership, log and accounts. The queue hostIn, the
pending RUN and one step per command are the model's own (log 5). -/
def Obligations.BudgetExhaustionRestoresTheTransactionBase : Prop :=
  ∀ (s t : State) (cu cyc : Word) (bytes : List Byte) (n : Nat),
    s.engState ≠ .running → s.runPending = false → s.txnOpen = false → s.ckpt.stack = [] →
    s.hostIn = [.beginTransaction cu cyc, .run bytes] → t = after (n + 2) s → t.engState = .haltedFailure →
    t.latches.failCode = FailKind.insufficientBudget.code →
    t.regs = s.regs ∧ t.pc = s.pc ∧ t.mem = s.mem ∧ t.log = s.log ∧ t.accounts = s.accounts ∧
      t.meter.cuUsed = 0 ∧ t.meter.cycUsed = 0 ∧ t.ckpt.stack = [] ∧ t.txnOpen = false

/-- Decoding the bytes of a well-formed instruction gives that instruction back. Derived from 30_encoding.md, The
program byte stream; 30_encoding.md, The decode algorithm; 30_encoding.md, The opcode map. Params.Valid adds two
bounds of the model's own (log 19). -/
def Obligations.DecodeOfEncodeIsIdentity : Prop :=
  ∀ (p : Params) (i : Instr) (rest : List Byte), p.Valid → i.wellFormed = true →
    (encode p i).length = i.length ∧
    ∃ d, decodeOne p (encode p i ++ rest) = .ok (d, i.length) ∧ d.instr? p = some i

/-- Decoding a whole encoded program gives its instructions back, one index each. Derived from 30_encoding.md, The
decode algorithm. Params.Valid adds two bounds of the model's own (log 19). -/
def Obligations.DecodeProgramOfEncodedInstructions : Prop :=
  ∀ (p : Params) (is : List Instr), p.Valid → (∀ i ∈ is, i.wellFormed = true) →
    ∃ ds, decodeProgram p (is.flatMap (encode p)) = .ok ds ∧ ds.map (fun d => d.instr? p) = is.map some

/-- The opcode map has 64 rows and no byte selects two of them. Derived from 30_encoding.md, The opcode map.
Params.Valid adds two bounds of the model's own (log 19). -/
def Obligations.OpcodeMapHasNoOverlap : Prop :=
  ∀ (p : Params), p.Valid →
    (opcodeMap p).length = 64 ∧ (opcodeMap p).Pairwise fun a b => a.1 ≠ b.1

/-- Truncation, then a bad register nibble, then an unknown opcode, at the failing offset and index. Derived from
30_encoding.md, The decode algorithm; 60_exceptions.md, Priority. Params.Valid, in the last clause, adds two bounds of
the model's own (log 19). -/
def Obligations.DecodeFailureOrder : Prop :=
  ∀ (p : Params) (b0 b1 : Byte) (tail bytes : List Byte),
    (bytes.length < 8 → decodeOne p bytes = .error .truncatedInstruction) ∧
    (bytes = b0 :: b1 :: tail → b0 = 0x18 → bytes.length < 16 →
      decodeOne p bytes = .error .truncatedInstruction) ∧
    (bytes = b0 :: b1 :: tail → 8 ≤ bytes.length → (b0 = 0x18 → 16 ≤ bytes.length) →
      (10 < b1.toNat % 16 ∨ 10 < b1.toNat / 16 → decodeOne p bytes = .error .invalidRegister) ∧
      (b1.toNat % 16 ≤ 10 → b1.toNat / 16 ≤ 10 →
        (b0 ∉ (opcodeMap p).map Prod.fst → decodeOne p bytes = .error .invalidOpcode) ∧
        (b0 ∈ (opcodeMap p).map Prod.fst →
          ∃ d, decodeOne p bytes = .ok (d, if b0 = 0x18 then 16 else 8) ∧ d.opc = b0 ∧
            d.dst.toNat = b1.toNat % 16 ∧ d.src.toNat = b1.toNat / 16))) ∧
    decodeProgram p [] = .ok [] ∧
    (∀ e, bytes ≠ [] → decodeOne p bytes = .error e → decodeProgram p bytes = .error ⟨e, 0, 0⟩) ∧
    (∀ (is : List Instr) e, p.Valid → (∀ i ∈ is, i.wellFormed = true) → bytes ≠ [] → decodeOne p bytes = .error e →
      decodeProgram p (is.flatMap (encode p) ++ bytes) = .error ⟨e, (is.map Instr.length).sum, is.length⟩)

/-- Records that agree on the used fields stand for the same instruction. Derived from 30_encoding.md, Operands and
immediates; 30_encoding.md, The opcode map. -/
def Obligations.UnusedFieldsAreIgnored : Prop :=
  (∀ (p : Params) (d d' : Decoded), d'.opc = d.opc →
      (d.opc ∈ [0x07, 0x17, 0x27, 0x37, 0x47, 0x57, 0x67, 0x77, 0x97, 0xa7, 0xb7, 0xc7, 0x18, 0x30, 0x28, 0x20, 0x38] →
        d'.dst = d.dst → d'.imm = d.imm → d'.instr? p = d.instr? p) ∧
      (d.opc ∈ [0x0f, 0x1f, 0x2f, 0x3f, 0x4f, 0x5f, 0x6f, 0x7f, 0x9f, 0xaf, 0xbf, 0xcf] →
        d'.dst = d.dst → d'.src = d.src → d'.instr? p = d.instr? p) ∧
      (d.opc = 0x87 → d'.dst = d.dst → d'.instr? p = d.instr? p) ∧
      (d.opc ∈ [0x71, 0x69, 0x61, 0x79, 0x73, 0x6b, 0x63, 0x7b, 0x1d, 0x2d, 0x3d, 0xad, 0xbd, 0x5d, 0x6d, 0x7d, 0xcd,
          0xdd] →
        d'.dst = d.dst → d'.src = d.src → d'.off = d.off → d'.instr? p = d.instr? p) ∧
      (d.opc ∈ [0x15, 0x25, 0x35, 0xa5, 0xb5, 0x55, 0x65, 0x75, 0xc5, 0xd5] →
        d'.dst = d.dst → d'.off = d.off → d'.imm = d.imm → d'.instr? p = d.instr? p) ∧
      (d.opc = 0x05 → d'.off = d.off → d'.instr? p = d.instr? p) ∧
      (d.opc = 0x85 → d'.imm = d.imm → d'.instr? p = d.instr? p) ∧
      (d.opc = 0x95 → d'.instr? p = d.instr? p)) ∧
    ∀ (b1 b2 b3 b4 b5 b6 b7 c4 c5 c6 c7 : Byte) (rest : List Byte),
      decodeFields (0x18 :: b1 :: b2 :: b3 :: b4 :: b5 :: b6 :: b7 :: rest) =
        decodeFields (0x18 :: b1 :: b2 :: b3 :: c4 :: c5 :: c6 :: c7 :: rest)

/-- Words written out from the spec's encodings decode to the instructions they stand for. Derived from
95_test_vectors.md, Part 1 and Part 3; 30_encoding.md, The program byte stream. decodeTableWord takes the reference
extension bytes (log 2). -/
def Obligations.SourceExampleWordsDecode : Prop :=
  [(64, 0x0000002a000000b7), (64, 0x95), (64, 0x127b), (128, 0x11223344556677880000000000000118),
        (64, 0xfffe0155), (64, 0x0000000300000085), (64, 0xe0)].map
      (fun w => decodeTableWord w.1 w.2) =
    [some (.mov64Imm 0 42), some .exit, some (.stxdw 2 1 0), some (.lddw 1 0x1122334455667788),
      some (.jneImm 1 0 0xfffe), some (.call 3), some .invoke]

/-- Ldabsw returns the 32-bit value a prior stxw at the same address wrote, zero-extended. Derived from
43_load_store.md, Absolute loads; 95_test_vectors.md, Part 1. -/
def Obligations.StoreThenLoadAbsoluteWord : Prop :=
  ∀ (s t : State) (base src q : RegId) (off : BitVec 16) (imm : BitVec 32), regIdOk base = true → regIdOk src = true →
    regIdOk q = true → Memory.wf s.mem = true → s.x base + off.signExtend 64 = imm.signExtend 64 →
    (imm.signExtend 64).toNat + 4 ≤ s.params.memCapacity → exec (.stxw base src off) s = .next t →
    exec (.ldabsw q imm) t = .next (regWritten t q (((s.x src).setWidth 32).setWidth 64))
end

