-- ==== Sys2Proof/Laws/Decode.lean ====
section
/-! SUPPORT. What the decoder's parts can answer, said once, and that an encoder's fields come back out of the bytes. -/

namespace Sys2Proof

/-! ## Fields -/

theorem registers_low (src dst : RegId) : (src ++ dst).extractLsb' 0 4 = dst := by
  apply BitVec.eq_of_getLsbD_eq
  intro i hi
  rw [BitVec.getLsbD_extractLsb', BitVec.getLsbD_append]
  grind

theorem registers_high (src dst : RegId) : (src ++ dst).extractLsb' 4 4 = src := by
  apply BitVec.eq_of_getLsbD_eq
  intro i hi
  rw [BitVec.getLsbD_extractLsb', BitVec.getLsbD_append]
  grind

theorem off_bytes (v : BitVec 16) : (v.extractLsb' 8 8 ++ v.extractLsb' 0 8 : BitVec 16) = v := by
  apply BitVec.eq_of_getLsbD_eq
  intro i hi
  simp only [BitVec.getLsbD_append, BitVec.getLsbD_extractLsb']
  grind

theorem imm_bytes (v : BitVec 32) :
    (v.extractLsb' 24 8 ++ v.extractLsb' 16 8 ++ v.extractLsb' 8 8 ++ v.extractLsb' 0 8 : BitVec 32) = v := by
  apply BitVec.eq_of_getLsbD_eq
  intro i hi
  simp only [BitVec.getLsbD_append, BitVec.getLsbD_extractLsb']
  grind

theorem signExtend_setWidth {w : Nat} (h : w ≤ 64) (v : BitVec w) : (v.signExtend 64).setWidth w = v := by
  apply BitVec.eq_of_getLsbD_eq
  intro i hi
  simp only [BitVec.getLsbD_setWidth, BitVec.getLsbD_signExtend]
  grind

/-! ## The decoder -/

/-- A stream has no instruction at its head exactly when it ends inside it (30_encoding.md R88). -/
theorem decodeFields_eq_none (b0 : Byte) (tail : List Byte) :
    decodeFields (b0 :: tail) = none ↔ tail.length + 1 < opcodeLength b0 := by
  unfold opcodeLength
  match tail with
  | b1 :: b2 :: b3 :: b4 :: b5 :: b6 :: b7 :: rest =>
    by_cases h : b0 = wideOpcode
    · match rest with
      | _ :: _ :: _ :: _ :: _ :: _ :: _ :: _ :: _ => simp [decodeFields, h]
      | [] | [_] | [_, _] | [_, _, _] | [_, _, _, _] | [_, _, _, _, _] | [_, _, _, _, _, _]
      | [_, _, _, _, _, _, _] => simp [decodeFields, h]
    · simp [decodeFields, h]
  | [] | [_] | [_, _] | [_, _, _] | [_, _, _, _] | [_, _, _, _, _] | [_, _, _, _, _, _] =>
    by_cases h : b0 = wideOpcode <;> simp [decodeFields, h]

/-- The record of an instruction: its opcode byte is the first byte, its registers the nibbles of the second
(30_encoding.md R81, R82). -/
theorem decodeFields_some {b0 b1 : Byte} {tail : List Byte} {d : Decoded}
    (h : decodeFields (b0 :: b1 :: tail) = some d) :
    d.opc = b0 ∧ d.dst = b1.extractLsb' 0 4 ∧ d.src = b1.extractLsb' 4 4 := by
  unfold decodeFields at h
  split at h
  · rename_i heq
    cases heq
    dsimp only at h
    split at h
    · split at h <;> cases h
      exact ⟨rfl, rfl, rfl⟩
    · cases h
      exact ⟨rfl, rfl, rfl⟩
  · cases h

/-- What DecodeOne accepts: a record of the stream's head whose registers and opcode pass the checks, with its length
(30_encoding.md R86, R98). -/
theorem decodeOne_ok {p : Params} {bytes : List Byte} {d : Decoded} {n : Nat} :
    decodeOne p bytes = .ok (d, n) ↔
      decodeFields bytes = some d ∧ regIdOk d.dst = true ∧ regIdOk d.src = true ∧ (d.instr? p).isSome = true ∧
        n = opcodeLength d.opc := by
  unfold decodeOne
  cases decodeFields bytes with
  | none => simp
  | some e =>
    simp only [Option.some.injEq]
    split
    · grind
    · split
      · grind
      · rename_i hr hi
        simp only [Except.ok.injEq, Prod.mk.injEq]
        rw [Option.isNone_iff_eq_none, ← ne_eq, Option.ne_none_iff_isSome] at hi
        grind

/-- An accepted instruction lies inside the stream. -/
theorem decodeOne_length {p : Params} {bytes : List Byte} {d : Decoded} {n : Nat}
    (h : decodeOne p bytes = .ok (d, n)) : 8 ≤ n ∧ n ≤ bytes.length := by
  obtain ⟨hf, -, -, -, rfl⟩ := decodeOne_ok.1 h
  cases bytes with
  | nil => simp [decodeFields] at hf
  | cons b0 tail =>
    cases tail with
    | nil => simp [decodeFields] at hf
    | cons b1 tail =>
      have hn : ¬ (b1 :: tail).length + 1 < opcodeLength b0 := by
        rw [← decodeFields_eq_none, hf]; simp
      obtain ⟨ho, -, -⟩ := decodeFields_some hf
      rw [ho]
      refine ⟨?_, by simpa using hn⟩
      unfold opcodeLength
      split <;> omega

/-- What the program decoder accepts: records that each pass the checks, whose lengths add up to the stream's
(30_encoding.md R87). -/
theorem decodeLoop_ok {p : Params} {fuel : Nat} {bytes : List Byte} {c i : Nat} {ds : List Decoded}
    (h : decodeLoop p fuel bytes c i = .ok ds) :
    (∀ d ∈ ds, (d.instr? p).isSome = true ∧ regIdOk d.dst = true ∧ regIdOk d.src = true) ∧
      (ds.map fun d => opcodeLength d.opc).sum = bytes.length := by
  induction fuel generalizing bytes c i ds with
  | zero =>
    cases bytes <;> simp [decodeLoop] at h
    subst h
    simp
  | succ fuel ih =>
    cases bytes with
    | nil =>
      simp [decodeLoop] at h
      subst h
      simp
    | cons b tail =>
      simp only [decodeLoop] at h
      split at h
      · cases h
      · rename_i d n hd
        split at h
        · cases h
        · rename_i rest hrest
          cases h
          have hr := ih hrest
          have hl := decodeOne_length hd
          obtain ⟨-, h1, h2, h3, rfl⟩ := decodeOne_ok.1 hd
          constructor
          · intro e he
            rcases List.mem_cons.1 he with rfl | he
            · exact ⟨h3, h1, h2⟩
            · exact hr.1 e he
          · simp only [List.map_cons, List.sum_cons, hr.2, List.length_drop]
            omega

end Sys2Proof
end

