-- ==== Sys2Proof/Laws/State.lean ====
section
/-! SUPPORT. One lemma per field per update of the state, true by rfl, so that no later proof unfolds a record update. -/

namespace Sys2Proof.Machine

section
variable (s : State)

/-! withPc -/

@[simp] theorem State.withPc_params (v : Word) : (s.withPc v).params = s.params := rfl
@[simp] theorem State.withPc_regs (v : Word) : (s.withPc v).regs = s.regs := rfl
@[simp] theorem State.withPc_pc (v : Word) : (s.withPc v).pc = v := rfl
@[simp] theorem State.withPc_engState (v : Word) : (s.withPc v).engState = s.engState := rfl
@[simp] theorem State.withPc_callStack (v : Word) : (s.withPc v).callStack = s.callStack := rfl
@[simp] theorem State.withPc_cpiDepth (v : Word) : (s.withPc v).cpiDepth = s.cpiDepth := rfl
@[simp] theorem State.withPc_stepCount (v : Word) : (s.withPc v).stepCount = s.stepCount := rfl
@[simp] theorem State.withPc_prog (v : Word) : (s.withPc v).prog = s.prog := rfl
@[simp] theorem State.withPc_progBytes (v : Word) : (s.withPc v).progBytes = s.progBytes := rfl
@[simp] theorem State.withPc_latches (v : Word) : (s.withPc v).latches = s.latches := rfl
@[simp] theorem State.withPc_meter (v : Word) : (s.withPc v).meter = s.meter := rfl
@[simp] theorem State.withPc_ckpt (v : Word) : (s.withPc v).ckpt = s.ckpt := rfl
@[simp] theorem State.withPc_mem (v : Word) : (s.withPc v).mem = s.mem := rfl
@[simp] theorem State.withPc_log (v : Word) : (s.withPc v).log = s.log := rfl
@[simp] theorem State.withPc_accounts (v : Word) : (s.withPc v).accounts = s.accounts := rfl
@[simp] theorem State.withPc_hostIn (v : Word) : (s.withPc v).hostIn = s.hostIn := rfl
@[simp] theorem State.withPc_hostOut (v : Word) : (s.withPc v).hostOut = s.hostOut := rfl
@[simp] theorem State.withPc_runPending (v : Word) : (s.withPc v).runPending = s.runPending := rfl
@[simp] theorem State.withPc_withPc (v w : Word) : (s.withPc v).withPc w = s.withPc w := rfl

/-! withRegs -/

@[simp] theorem State.withRegs_params (v : RegFile) : (s.withRegs v).params = s.params := rfl
@[simp] theorem State.withRegs_regs (v : RegFile) : (s.withRegs v).regs = v := rfl
@[simp] theorem State.withRegs_pc (v : RegFile) : (s.withRegs v).pc = s.pc := rfl
@[simp] theorem State.withRegs_engState (v : RegFile) : (s.withRegs v).engState = s.engState := rfl
@[simp] theorem State.withRegs_callStack (v : RegFile) : (s.withRegs v).callStack = s.callStack := rfl
@[simp] theorem State.withRegs_cpiDepth (v : RegFile) : (s.withRegs v).cpiDepth = s.cpiDepth := rfl
@[simp] theorem State.withRegs_stepCount (v : RegFile) : (s.withRegs v).stepCount = s.stepCount := rfl
@[simp] theorem State.withRegs_prog (v : RegFile) : (s.withRegs v).prog = s.prog := rfl
@[simp] theorem State.withRegs_progBytes (v : RegFile) : (s.withRegs v).progBytes = s.progBytes := rfl
@[simp] theorem State.withRegs_latches (v : RegFile) : (s.withRegs v).latches = s.latches := rfl
@[simp] theorem State.withRegs_meter (v : RegFile) : (s.withRegs v).meter = s.meter := rfl
@[simp] theorem State.withRegs_ckpt (v : RegFile) : (s.withRegs v).ckpt = s.ckpt := rfl
@[simp] theorem State.withRegs_mem (v : RegFile) : (s.withRegs v).mem = s.mem := rfl
@[simp] theorem State.withRegs_log (v : RegFile) : (s.withRegs v).log = s.log := rfl
@[simp] theorem State.withRegs_accounts (v : RegFile) : (s.withRegs v).accounts = s.accounts := rfl
@[simp] theorem State.withRegs_hostIn (v : RegFile) : (s.withRegs v).hostIn = s.hostIn := rfl
@[simp] theorem State.withRegs_hostOut (v : RegFile) : (s.withRegs v).hostOut = s.hostOut := rfl
@[simp] theorem State.withRegs_runPending (v : RegFile) : (s.withRegs v).runPending = s.runPending := rfl
@[simp] theorem State.withRegs_withRegs (v w : RegFile) : (s.withRegs v).withRegs w = s.withRegs w := rfl

/-! withMem -/

@[simp] theorem State.withMem_params (v : Memory) : (s.withMem v).params = s.params := rfl
@[simp] theorem State.withMem_regs (v : Memory) : (s.withMem v).regs = s.regs := rfl
@[simp] theorem State.withMem_pc (v : Memory) : (s.withMem v).pc = s.pc := rfl
@[simp] theorem State.withMem_engState (v : Memory) : (s.withMem v).engState = s.engState := rfl
@[simp] theorem State.withMem_callStack (v : Memory) : (s.withMem v).callStack = s.callStack := rfl
@[simp] theorem State.withMem_cpiDepth (v : Memory) : (s.withMem v).cpiDepth = s.cpiDepth := rfl
@[simp] theorem State.withMem_stepCount (v : Memory) : (s.withMem v).stepCount = s.stepCount := rfl
@[simp] theorem State.withMem_prog (v : Memory) : (s.withMem v).prog = s.prog := rfl
@[simp] theorem State.withMem_progBytes (v : Memory) : (s.withMem v).progBytes = s.progBytes := rfl
@[simp] theorem State.withMem_latches (v : Memory) : (s.withMem v).latches = s.latches := rfl
@[simp] theorem State.withMem_meter (v : Memory) : (s.withMem v).meter = s.meter := rfl
@[simp] theorem State.withMem_ckpt (v : Memory) : (s.withMem v).ckpt = s.ckpt := rfl
@[simp] theorem State.withMem_mem (v : Memory) : (s.withMem v).mem = v := rfl
@[simp] theorem State.withMem_log (v : Memory) : (s.withMem v).log = s.log := rfl
@[simp] theorem State.withMem_accounts (v : Memory) : (s.withMem v).accounts = s.accounts := rfl
@[simp] theorem State.withMem_hostIn (v : Memory) : (s.withMem v).hostIn = s.hostIn := rfl
@[simp] theorem State.withMem_hostOut (v : Memory) : (s.withMem v).hostOut = s.hostOut := rfl
@[simp] theorem State.withMem_runPending (v : Memory) : (s.withMem v).runPending = s.runPending := rfl
@[simp] theorem State.withMem_withMem (v w : Memory) : (s.withMem v).withMem w = s.withMem w := rfl

/-! withCallStack -/

@[simp] theorem State.withCallStack_params (v : List Word) : (s.withCallStack v).params = s.params := rfl
@[simp] theorem State.withCallStack_regs (v : List Word) : (s.withCallStack v).regs = s.regs := rfl
@[simp] theorem State.withCallStack_pc (v : List Word) : (s.withCallStack v).pc = s.pc := rfl
@[simp] theorem State.withCallStack_engState (v : List Word) : (s.withCallStack v).engState = s.engState := rfl
@[simp] theorem State.withCallStack_callStack (v : List Word) : (s.withCallStack v).callStack = v := rfl
@[simp] theorem State.withCallStack_cpiDepth (v : List Word) : (s.withCallStack v).cpiDepth = s.cpiDepth := rfl
@[simp] theorem State.withCallStack_stepCount (v : List Word) : (s.withCallStack v).stepCount = s.stepCount := rfl
@[simp] theorem State.withCallStack_prog (v : List Word) : (s.withCallStack v).prog = s.prog := rfl
@[simp] theorem State.withCallStack_progBytes (v : List Word) : (s.withCallStack v).progBytes = s.progBytes := rfl
@[simp] theorem State.withCallStack_latches (v : List Word) : (s.withCallStack v).latches = s.latches := rfl
@[simp] theorem State.withCallStack_meter (v : List Word) : (s.withCallStack v).meter = s.meter := rfl
@[simp] theorem State.withCallStack_ckpt (v : List Word) : (s.withCallStack v).ckpt = s.ckpt := rfl
@[simp] theorem State.withCallStack_mem (v : List Word) : (s.withCallStack v).mem = s.mem := rfl
@[simp] theorem State.withCallStack_log (v : List Word) : (s.withCallStack v).log = s.log := rfl
@[simp] theorem State.withCallStack_accounts (v : List Word) : (s.withCallStack v).accounts = s.accounts := rfl
@[simp] theorem State.withCallStack_hostIn (v : List Word) : (s.withCallStack v).hostIn = s.hostIn := rfl
@[simp] theorem State.withCallStack_hostOut (v : List Word) : (s.withCallStack v).hostOut = s.hostOut := rfl
@[simp] theorem State.withCallStack_runPending (v : List Word) : (s.withCallStack v).runPending = s.runPending := rfl
@[simp] theorem State.withCallStack_withCallStack (v w : List Word) : (s.withCallStack v).withCallStack w = s.withCallStack w := rfl

/-! withCpiDepth -/

@[simp] theorem State.withCpiDepth_params (v : Word) : (s.withCpiDepth v).params = s.params := rfl
@[simp] theorem State.withCpiDepth_regs (v : Word) : (s.withCpiDepth v).regs = s.regs := rfl
@[simp] theorem State.withCpiDepth_pc (v : Word) : (s.withCpiDepth v).pc = s.pc := rfl
@[simp] theorem State.withCpiDepth_engState (v : Word) : (s.withCpiDepth v).engState = s.engState := rfl
@[simp] theorem State.withCpiDepth_callStack (v : Word) : (s.withCpiDepth v).callStack = s.callStack := rfl
@[simp] theorem State.withCpiDepth_cpiDepth (v : Word) : (s.withCpiDepth v).cpiDepth = v := rfl
@[simp] theorem State.withCpiDepth_stepCount (v : Word) : (s.withCpiDepth v).stepCount = s.stepCount := rfl
@[simp] theorem State.withCpiDepth_prog (v : Word) : (s.withCpiDepth v).prog = s.prog := rfl
@[simp] theorem State.withCpiDepth_progBytes (v : Word) : (s.withCpiDepth v).progBytes = s.progBytes := rfl
@[simp] theorem State.withCpiDepth_latches (v : Word) : (s.withCpiDepth v).latches = s.latches := rfl
@[simp] theorem State.withCpiDepth_meter (v : Word) : (s.withCpiDepth v).meter = s.meter := rfl
@[simp] theorem State.withCpiDepth_ckpt (v : Word) : (s.withCpiDepth v).ckpt = s.ckpt := rfl
@[simp] theorem State.withCpiDepth_mem (v : Word) : (s.withCpiDepth v).mem = s.mem := rfl
@[simp] theorem State.withCpiDepth_log (v : Word) : (s.withCpiDepth v).log = s.log := rfl
@[simp] theorem State.withCpiDepth_accounts (v : Word) : (s.withCpiDepth v).accounts = s.accounts := rfl
@[simp] theorem State.withCpiDepth_hostIn (v : Word) : (s.withCpiDepth v).hostIn = s.hostIn := rfl
@[simp] theorem State.withCpiDepth_hostOut (v : Word) : (s.withCpiDepth v).hostOut = s.hostOut := rfl
@[simp] theorem State.withCpiDepth_runPending (v : Word) : (s.withCpiDepth v).runPending = s.runPending := rfl
@[simp] theorem State.withCpiDepth_withCpiDepth (v w : Word) : (s.withCpiDepth v).withCpiDepth w = s.withCpiDepth w := rfl

/-! withStepCount -/

@[simp] theorem State.withStepCount_params (v : Word) : (s.withStepCount v).params = s.params := rfl
@[simp] theorem State.withStepCount_regs (v : Word) : (s.withStepCount v).regs = s.regs := rfl
@[simp] theorem State.withStepCount_pc (v : Word) : (s.withStepCount v).pc = s.pc := rfl
@[simp] theorem State.withStepCount_engState (v : Word) : (s.withStepCount v).engState = s.engState := rfl
@[simp] theorem State.withStepCount_callStack (v : Word) : (s.withStepCount v).callStack = s.callStack := rfl
@[simp] theorem State.withStepCount_cpiDepth (v : Word) : (s.withStepCount v).cpiDepth = s.cpiDepth := rfl
@[simp] theorem State.withStepCount_stepCount (v : Word) : (s.withStepCount v).stepCount = v := rfl
@[simp] theorem State.withStepCount_prog (v : Word) : (s.withStepCount v).prog = s.prog := rfl
@[simp] theorem State.withStepCount_progBytes (v : Word) : (s.withStepCount v).progBytes = s.progBytes := rfl
@[simp] theorem State.withStepCount_latches (v : Word) : (s.withStepCount v).latches = s.latches := rfl
@[simp] theorem State.withStepCount_meter (v : Word) : (s.withStepCount v).meter = s.meter := rfl
@[simp] theorem State.withStepCount_ckpt (v : Word) : (s.withStepCount v).ckpt = s.ckpt := rfl
@[simp] theorem State.withStepCount_mem (v : Word) : (s.withStepCount v).mem = s.mem := rfl
@[simp] theorem State.withStepCount_log (v : Word) : (s.withStepCount v).log = s.log := rfl
@[simp] theorem State.withStepCount_accounts (v : Word) : (s.withStepCount v).accounts = s.accounts := rfl
@[simp] theorem State.withStepCount_hostIn (v : Word) : (s.withStepCount v).hostIn = s.hostIn := rfl
@[simp] theorem State.withStepCount_hostOut (v : Word) : (s.withStepCount v).hostOut = s.hostOut := rfl
@[simp] theorem State.withStepCount_runPending (v : Word) : (s.withStepCount v).runPending = s.runPending := rfl
@[simp] theorem State.withStepCount_withStepCount (v w : Word) : (s.withStepCount v).withStepCount w = s.withStepCount w := rfl

/-! withMeter -/

@[simp] theorem State.withMeter_params (v : Meter) : (s.withMeter v).params = s.params := rfl
@[simp] theorem State.withMeter_regs (v : Meter) : (s.withMeter v).regs = s.regs := rfl
@[simp] theorem State.withMeter_pc (v : Meter) : (s.withMeter v).pc = s.pc := rfl
@[simp] theorem State.withMeter_engState (v : Meter) : (s.withMeter v).engState = s.engState := rfl
@[simp] theorem State.withMeter_callStack (v : Meter) : (s.withMeter v).callStack = s.callStack := rfl
@[simp] theorem State.withMeter_cpiDepth (v : Meter) : (s.withMeter v).cpiDepth = s.cpiDepth := rfl
@[simp] theorem State.withMeter_stepCount (v : Meter) : (s.withMeter v).stepCount = s.stepCount := rfl
@[simp] theorem State.withMeter_prog (v : Meter) : (s.withMeter v).prog = s.prog := rfl
@[simp] theorem State.withMeter_progBytes (v : Meter) : (s.withMeter v).progBytes = s.progBytes := rfl
@[simp] theorem State.withMeter_latches (v : Meter) : (s.withMeter v).latches = s.latches := rfl
@[simp] theorem State.withMeter_meter (v : Meter) : (s.withMeter v).meter = v := rfl
@[simp] theorem State.withMeter_ckpt (v : Meter) : (s.withMeter v).ckpt = s.ckpt := rfl
@[simp] theorem State.withMeter_mem (v : Meter) : (s.withMeter v).mem = s.mem := rfl
@[simp] theorem State.withMeter_log (v : Meter) : (s.withMeter v).log = s.log := rfl
@[simp] theorem State.withMeter_accounts (v : Meter) : (s.withMeter v).accounts = s.accounts := rfl
@[simp] theorem State.withMeter_hostIn (v : Meter) : (s.withMeter v).hostIn = s.hostIn := rfl
@[simp] theorem State.withMeter_hostOut (v : Meter) : (s.withMeter v).hostOut = s.hostOut := rfl
@[simp] theorem State.withMeter_runPending (v : Meter) : (s.withMeter v).runPending = s.runPending := rfl
@[simp] theorem State.withMeter_withMeter (v w : Meter) : (s.withMeter v).withMeter w = s.withMeter w := rfl

/-! withCkpt -/

@[simp] theorem State.withCkpt_params (v : CkptManager) : (s.withCkpt v).params = s.params := rfl
@[simp] theorem State.withCkpt_regs (v : CkptManager) : (s.withCkpt v).regs = s.regs := rfl
@[simp] theorem State.withCkpt_pc (v : CkptManager) : (s.withCkpt v).pc = s.pc := rfl
@[simp] theorem State.withCkpt_engState (v : CkptManager) : (s.withCkpt v).engState = s.engState := rfl
@[simp] theorem State.withCkpt_callStack (v : CkptManager) : (s.withCkpt v).callStack = s.callStack := rfl
@[simp] theorem State.withCkpt_cpiDepth (v : CkptManager) : (s.withCkpt v).cpiDepth = s.cpiDepth := rfl
@[simp] theorem State.withCkpt_stepCount (v : CkptManager) : (s.withCkpt v).stepCount = s.stepCount := rfl
@[simp] theorem State.withCkpt_prog (v : CkptManager) : (s.withCkpt v).prog = s.prog := rfl
@[simp] theorem State.withCkpt_progBytes (v : CkptManager) : (s.withCkpt v).progBytes = s.progBytes := rfl
@[simp] theorem State.withCkpt_latches (v : CkptManager) : (s.withCkpt v).latches = s.latches := rfl
@[simp] theorem State.withCkpt_meter (v : CkptManager) : (s.withCkpt v).meter = s.meter := rfl
@[simp] theorem State.withCkpt_ckpt (v : CkptManager) : (s.withCkpt v).ckpt = v := rfl
@[simp] theorem State.withCkpt_mem (v : CkptManager) : (s.withCkpt v).mem = s.mem := rfl
@[simp] theorem State.withCkpt_log (v : CkptManager) : (s.withCkpt v).log = s.log := rfl
@[simp] theorem State.withCkpt_accounts (v : CkptManager) : (s.withCkpt v).accounts = s.accounts := rfl
@[simp] theorem State.withCkpt_hostIn (v : CkptManager) : (s.withCkpt v).hostIn = s.hostIn := rfl
@[simp] theorem State.withCkpt_hostOut (v : CkptManager) : (s.withCkpt v).hostOut = s.hostOut := rfl
@[simp] theorem State.withCkpt_runPending (v : CkptManager) : (s.withCkpt v).runPending = s.runPending := rfl
@[simp] theorem State.withCkpt_withCkpt (v w : CkptManager) : (s.withCkpt v).withCkpt w = s.withCkpt w := rfl

/-! State.advance -/

@[simp] theorem State.advance_params : s.advance.params = s.params := rfl
@[simp] theorem State.advance_regs : s.advance.regs = s.regs := rfl
@[simp] theorem State.advance_pc : s.advance.pc = s.pc + 1 := rfl
@[simp] theorem State.advance_engState : s.advance.engState = s.engState := rfl
@[simp] theorem State.advance_callStack : s.advance.callStack = s.callStack := rfl
@[simp] theorem State.advance_cpiDepth : s.advance.cpiDepth = s.cpiDepth := rfl
@[simp] theorem State.advance_stepCount : s.advance.stepCount = s.stepCount := rfl
@[simp] theorem State.advance_prog : s.advance.prog = s.prog := rfl
@[simp] theorem State.advance_progBytes : s.advance.progBytes = s.progBytes := rfl
@[simp] theorem State.advance_latches : s.advance.latches = s.latches := rfl
@[simp] theorem State.advance_meter : s.advance.meter = s.meter := rfl
@[simp] theorem State.advance_ckpt : s.advance.ckpt = s.ckpt := rfl
@[simp] theorem State.advance_mem : s.advance.mem = s.mem := rfl
@[simp] theorem State.advance_log : s.advance.log = s.log := rfl
@[simp] theorem State.advance_accounts : s.advance.accounts = s.accounts := rfl
@[simp] theorem State.advance_hostIn : s.advance.hostIn = s.hostIn := rfl
@[simp] theorem State.advance_hostOut : s.advance.hostOut = s.hostOut := rfl
@[simp] theorem State.advance_runPending : s.advance.runPending = s.runPending := rfl

/-! State.jumpBy -/

@[simp] theorem State.jumpBy_params (d : Word) : (s.jumpBy d).params = s.params := rfl
@[simp] theorem State.jumpBy_regs (d : Word) : (s.jumpBy d).regs = s.regs := rfl
@[simp] theorem State.jumpBy_pc (d : Word) : (s.jumpBy d).pc = s.pc + d := rfl
@[simp] theorem State.jumpBy_engState (d : Word) : (s.jumpBy d).engState = s.engState := rfl
@[simp] theorem State.jumpBy_callStack (d : Word) : (s.jumpBy d).callStack = s.callStack := rfl
@[simp] theorem State.jumpBy_cpiDepth (d : Word) : (s.jumpBy d).cpiDepth = s.cpiDepth := rfl
@[simp] theorem State.jumpBy_stepCount (d : Word) : (s.jumpBy d).stepCount = s.stepCount := rfl
@[simp] theorem State.jumpBy_prog (d : Word) : (s.jumpBy d).prog = s.prog := rfl
@[simp] theorem State.jumpBy_progBytes (d : Word) : (s.jumpBy d).progBytes = s.progBytes := rfl
@[simp] theorem State.jumpBy_latches (d : Word) : (s.jumpBy d).latches = s.latches := rfl
@[simp] theorem State.jumpBy_meter (d : Word) : (s.jumpBy d).meter = s.meter := rfl
@[simp] theorem State.jumpBy_ckpt (d : Word) : (s.jumpBy d).ckpt = s.ckpt := rfl
@[simp] theorem State.jumpBy_mem (d : Word) : (s.jumpBy d).mem = s.mem := rfl
@[simp] theorem State.jumpBy_log (d : Word) : (s.jumpBy d).log = s.log := rfl
@[simp] theorem State.jumpBy_accounts (d : Word) : (s.jumpBy d).accounts = s.accounts := rfl
@[simp] theorem State.jumpBy_hostIn (d : Word) : (s.jumpBy d).hostIn = s.hostIn := rfl
@[simp] theorem State.jumpBy_hostOut (d : Word) : (s.jumpBy d).hostOut = s.hostOut := rfl
@[simp] theorem State.jumpBy_runPending (d : Word) : (s.jumpBy d).runPending = s.runPending := rfl

/-! countStep -/

@[simp] theorem countStep_params : (countStep s).params = s.params := rfl
@[simp] theorem countStep_regs : (countStep s).regs = s.regs := rfl
@[simp] theorem countStep_pc : (countStep s).pc = s.pc := rfl
@[simp] theorem countStep_engState : (countStep s).engState = s.engState := rfl
@[simp] theorem countStep_callStack : (countStep s).callStack = s.callStack := rfl
@[simp] theorem countStep_cpiDepth : (countStep s).cpiDepth = s.cpiDepth := rfl
@[simp] theorem countStep_stepCount : (countStep s).stepCount = s.stepCount + 1 := rfl
@[simp] theorem countStep_prog : (countStep s).prog = s.prog := rfl
@[simp] theorem countStep_progBytes : (countStep s).progBytes = s.progBytes := rfl
@[simp] theorem countStep_latches : (countStep s).latches = s.latches := rfl
@[simp] theorem countStep_meter : (countStep s).meter = s.meter := rfl
@[simp] theorem countStep_ckpt : (countStep s).ckpt = s.ckpt := rfl
@[simp] theorem countStep_mem : (countStep s).mem = s.mem := rfl
@[simp] theorem countStep_log : (countStep s).log = s.log := rfl
@[simp] theorem countStep_accounts : (countStep s).accounts = s.accounts := rfl
@[simp] theorem countStep_hostIn : (countStep s).hostIn = s.hostIn := rfl
@[simp] theorem countStep_hostOut : (countStep s).hostOut = s.hostOut := rfl
@[simp] theorem countStep_runPending : (countStep s).runPending = s.runPending := rfl

/-! haltFailure -/

@[simp] theorem haltFailure_params (e : Raised) : (haltFailure e s).params = s.params := rfl
@[simp] theorem haltFailure_regs (e : Raised) : (haltFailure e s).regs = s.regs := rfl
@[simp] theorem haltFailure_pc (e : Raised) : (haltFailure e s).pc = s.pc := rfl
@[simp] theorem haltFailure_engState (e : Raised) : (haltFailure e s).engState = .haltedFailure := rfl
@[simp] theorem haltFailure_callStack (e : Raised) : (haltFailure e s).callStack = s.callStack := rfl
@[simp] theorem haltFailure_cpiDepth (e : Raised) : (haltFailure e s).cpiDepth = s.cpiDepth := rfl
@[simp] theorem haltFailure_stepCount (e : Raised) : (haltFailure e s).stepCount = s.stepCount := rfl
@[simp] theorem haltFailure_prog (e : Raised) : (haltFailure e s).prog = s.prog := rfl
@[simp] theorem haltFailure_progBytes (e : Raised) : (haltFailure e s).progBytes = s.progBytes := rfl
@[simp] theorem haltFailure_meter (e : Raised) : (haltFailure e s).meter = s.meter := rfl
@[simp] theorem haltFailure_ckpt (e : Raised) : (haltFailure e s).ckpt = s.ckpt := rfl
@[simp] theorem haltFailure_mem (e : Raised) : (haltFailure e s).mem = s.mem := rfl
@[simp] theorem haltFailure_log (e : Raised) : (haltFailure e s).log = s.log := rfl
@[simp] theorem haltFailure_accounts (e : Raised) : (haltFailure e s).accounts = s.accounts := rfl
@[simp] theorem haltFailure_hostIn (e : Raised) : (haltFailure e s).hostIn = s.hostIn := rfl
@[simp] theorem haltFailure_hostOut (e : Raised) : (haltFailure e s).hostOut = s.hostOut := rfl
@[simp] theorem haltFailure_runPending (e : Raised) : (haltFailure e s).runPending = s.runPending := rfl

/-! haltSuccess -/

@[simp] theorem haltSuccess_params (c : Word) : (haltSuccess c s).params = s.params := rfl
@[simp] theorem haltSuccess_regs (c : Word) : (haltSuccess c s).regs = s.regs := rfl
@[simp] theorem haltSuccess_pc (c : Word) : (haltSuccess c s).pc = s.pc := rfl
@[simp] theorem haltSuccess_engState (c : Word) : (haltSuccess c s).engState = .haltedSuccess := rfl
@[simp] theorem haltSuccess_callStack (c : Word) : (haltSuccess c s).callStack = s.callStack := rfl
@[simp] theorem haltSuccess_cpiDepth (c : Word) : (haltSuccess c s).cpiDepth = s.cpiDepth := rfl
@[simp] theorem haltSuccess_stepCount (c : Word) : (haltSuccess c s).stepCount = s.stepCount := rfl
@[simp] theorem haltSuccess_prog (c : Word) : (haltSuccess c s).prog = s.prog := rfl
@[simp] theorem haltSuccess_progBytes (c : Word) : (haltSuccess c s).progBytes = s.progBytes := rfl
@[simp] theorem haltSuccess_meter (c : Word) : (haltSuccess c s).meter = s.meter := rfl
@[simp] theorem haltSuccess_ckpt (c : Word) : (haltSuccess c s).ckpt = s.ckpt := rfl
@[simp] theorem haltSuccess_mem (c : Word) : (haltSuccess c s).mem = s.mem := rfl
@[simp] theorem haltSuccess_log (c : Word) : (haltSuccess c s).log = s.log := rfl
@[simp] theorem haltSuccess_accounts (c : Word) : (haltSuccess c s).accounts = s.accounts := rfl
@[simp] theorem haltSuccess_hostIn (c : Word) : (haltSuccess c s).hostIn = s.hostIn := rfl
@[simp] theorem haltSuccess_hostOut (c : Word) : (haltSuccess c s).hostOut = s.hostOut := rfl
@[simp] theorem haltSuccess_runPending (c : Word) : (haltSuccess c s).runPending = s.runPending := rfl

/-! The latches a halt writes (41_engine.md R150, R151) -/

@[simp] theorem haltFailure_exitCode (e : Raised) : (haltFailure e s).latches.exitCode = 0 := rfl
@[simp] theorem haltFailure_failCode (e : Raised) : (haltFailure e s).latches.failCode = e.kind.code := rfl
@[simp] theorem haltFailure_failPc (e : Raised) : (haltFailure e s).latches.failPc = s.pc := rfl
@[simp] theorem haltFailure_failAddr (e : Raised) : (haltFailure e s).latches.failAddr = if e.kind = .memoryOutOfBounds then e.addr else 0 := rfl
@[simp] theorem haltFailure_failWidth (e : Raised) : (haltFailure e s).latches.failWidth = if e.kind = .memoryOutOfBounds then e.width else 0 := rfl
@[simp] theorem haltFailure_resCuUsed (e : Raised) : (haltFailure e s).latches.resCuUsed = s.meter.cuUsed := rfl
@[simp] theorem haltFailure_resCycUsed (e : Raised) : (haltFailure e s).latches.resCycUsed = s.meter.cycUsed := rfl
@[simp] theorem haltFailure_resLog (e : Raised) : (haltFailure e s).latches.resLog = s.log := rfl

@[simp] theorem haltSuccess_exitCode (c : Word) : (haltSuccess c s).latches.exitCode = c := rfl
@[simp] theorem haltSuccess_failCode (c : Word) : (haltSuccess c s).latches.failCode = 0 := rfl
@[simp] theorem haltSuccess_failPc (c : Word) : (haltSuccess c s).latches.failPc = 0 := rfl
@[simp] theorem haltSuccess_failAddr (c : Word) : (haltSuccess c s).latches.failAddr = 0 := rfl
@[simp] theorem haltSuccess_failWidth (c : Word) : (haltSuccess c s).latches.failWidth = 0 := rfl
@[simp] theorem haltSuccess_resCuUsed (c : Word) : (haltSuccess c s).latches.resCuUsed = s.meter.cuUsed := rfl
@[simp] theorem haltSuccess_resCycUsed (c : Word) : (haltSuccess c s).latches.resCycUsed = s.meter.cycUsed := rfl
@[simp] theorem haltSuccess_resLog (c : Word) : (haltSuccess c s).latches.resLog = s.log := rfl

/-! A restore writes the snapshot's fields and no other (46_checkpoint.md R312) -/

/-! restore -/

@[simp] theorem restore_params (snap : Snapshot) : (restore snap s).params = s.params := rfl
@[simp] theorem restore_regs (snap : Snapshot) : (restore snap s).regs = snap.regs := rfl
@[simp] theorem restore_pc (snap : Snapshot) : (restore snap s).pc = snap.pc := rfl
@[simp] theorem restore_engState (snap : Snapshot) : (restore snap s).engState = s.engState := rfl
@[simp] theorem restore_callStack (snap : Snapshot) : (restore snap s).callStack = s.callStack := rfl
@[simp] theorem restore_cpiDepth (snap : Snapshot) : (restore snap s).cpiDepth = s.cpiDepth := rfl
@[simp] theorem restore_stepCount (snap : Snapshot) : (restore snap s).stepCount = s.stepCount := rfl
@[simp] theorem restore_prog (snap : Snapshot) : (restore snap s).prog = s.prog := rfl
@[simp] theorem restore_progBytes (snap : Snapshot) : (restore snap s).progBytes = s.progBytes := rfl
@[simp] theorem restore_latches (snap : Snapshot) : (restore snap s).latches = s.latches := rfl
@[simp] theorem restore_meter (snap : Snapshot) : (restore snap s).meter = { s.meter with cuUsed := snap.cuUsed, cycUsed := snap.cycUsed } := rfl
@[simp] theorem restore_ckpt (snap : Snapshot) : (restore snap s).ckpt = { s.ckpt with dirty := snap.dirty } := rfl
@[simp] theorem restore_mem (snap : Snapshot) : (restore snap s).mem = snap.mem := rfl
@[simp] theorem restore_log (snap : Snapshot) : (restore snap s).log = s.log.take snap.logLen := rfl
@[simp] theorem restore_accounts (snap : Snapshot) : (restore snap s).accounts = snap.accounts := rfl
@[simp] theorem restore_hostIn (snap : Snapshot) : (restore snap s).hostIn = s.hostIn := rfl
@[simp] theorem restore_hostOut (snap : Snapshot) : (restore snap s).hostOut = s.hostOut := rfl
@[simp] theorem restore_runPending (snap : Snapshot) : (restore snap s).runPending = s.runPending := rfl

/-! returnRun -/

@[simp] theorem returnRun_params : (returnRun s).params = s.params := rfl
@[simp] theorem returnRun_regs : (returnRun s).regs = s.regs := rfl
@[simp] theorem returnRun_pc : (returnRun s).pc = s.pc := rfl
@[simp] theorem returnRun_engState : (returnRun s).engState = s.engState := rfl
@[simp] theorem returnRun_callStack : (returnRun s).callStack = s.callStack := rfl
@[simp] theorem returnRun_cpiDepth : (returnRun s).cpiDepth = s.cpiDepth := rfl
@[simp] theorem returnRun_stepCount : (returnRun s).stepCount = s.stepCount := rfl
@[simp] theorem returnRun_prog : (returnRun s).prog = s.prog := rfl
@[simp] theorem returnRun_progBytes : (returnRun s).progBytes = s.progBytes := rfl
@[simp] theorem returnRun_latches : (returnRun s).latches = s.latches := rfl
@[simp] theorem returnRun_meter : (returnRun s).meter = s.meter := rfl
@[simp] theorem returnRun_ckpt : (returnRun s).ckpt = s.ckpt := rfl
@[simp] theorem returnRun_mem : (returnRun s).mem = s.mem := rfl
@[simp] theorem returnRun_log : (returnRun s).log = s.log := rfl
@[simp] theorem returnRun_accounts : (returnRun s).accounts = s.accounts := rfl
@[simp] theorem returnRun_hostIn : (returnRun s).hostIn = s.hostIn := rfl
@[simp] theorem returnRun_hostOut : (returnRun s).hostOut = s.hostOut ++ [.done] := rfl
@[simp] theorem returnRun_runPending : (returnRun s).runPending = false := rfl

end

end Sys2Proof.Machine
end

