-- ==== Sys2Proof/Laws/Memory.lean ====
section
/-! SUPPORT. The laws of the byte memory: read after write, frame, and the canonical form that every operation keeps. -/

namespace Sys2Proof.Machine

/-! ## One byte -/

theorem Memory.get_of_wfFrom {lo : Nat} {m : Memory} (h : Memory.wfFrom lo m = true) {a : Nat} (ha : a < lo) :
    Memory.get m a = Memory.unlisted := by
  cases m with
  | nil => rfl
  | cons c m =>
    obtain ⟨k, v⟩ := c
    simp only [Memory.wfFrom, Bool.and_eq_true, decide_eq_true_eq] at h
    have : ¬ k < a ∧ k ≠ a := by omega
    simp [Memory.get, this]

theorem Memory.wfFrom_mono {lo lo' : Nat} {m : Memory} (h : Memory.wfFrom lo m = true) (hle : lo' ≤ lo) :
    Memory.wfFrom lo' m = true := by
  cases m with
  | nil => rfl
  | cons c m =>
    obtain ⟨k, v⟩ := c
    simp only [Memory.wfFrom, Bool.and_eq_true, decide_eq_true_eq] at h ⊢
    exact ⟨⟨by omega, h.1.2⟩, h.2⟩

/-- What a write of one byte does to every address. -/
theorem Memory.get_set {lo : Nat} {m : Memory} (h : Memory.wfFrom lo m = true) (a : Nat) (v : Byte) (b : Nat) :
    Memory.get (Memory.set m a v) b = if b = a then v else Memory.get m b := by
  induction m generalizing lo with
  | nil =>
    by_cases hv : v = Memory.unlisted
    · by_cases hb : b = a <;> simp [Memory.set, Memory.get, hv, hb]
    · simp only [Memory.set, hv, if_false, Memory.get]
      grind
  | cons c m ih =>
    obtain ⟨k, w⟩ := c
    simp only [Memory.wfFrom, Bool.and_eq_true, decide_eq_true_eq] at h
    have hget := fun (x : Nat) (hx : x < k + 1) => Memory.get_of_wfFrom h.2 hx
    have ih := ih h.2
    unfold Memory.set
    split
    · simp only [Memory.get, ih]; grind
    · split
      · split
        · simp only [Memory.get]; grind
        · simp only [Memory.get]; grind
      · split
        · simp only [Memory.get]; grind
        · simp only [Memory.get]; grind

/-- A write of one byte keeps the canonical form. -/
theorem Memory.set_wfFrom {lo : Nat} {m : Memory} (h : Memory.wfFrom lo m = true) {a : Nat} (ha : lo ≤ a) (v : Byte) :
    Memory.wfFrom lo (Memory.set m a v) = true := by
  induction m generalizing lo with
  | nil => by_cases hv : v = Memory.unlisted <;> simp [Memory.set, Memory.wfFrom, hv, ha]
  | cons c m ih =>
    obtain ⟨k, w⟩ := c
    have h0 := h
    simp only [Memory.wfFrom, Bool.and_eq_true, decide_eq_true_eq] at h
    have hk : k < a → Memory.wfFrom (k + 1) (Memory.set m a v) = true := fun hka => ih h.2 hka
    have hm : Memory.wfFrom (a + 1) m = true ∨ ¬ a ≤ k := by
      by_cases hak : a ≤ k
      · exact .inl (Memory.wfFrom_mono h.2 (by omega))
      · exact .inr hak
    have hlo : Memory.wfFrom lo m = true := Memory.wfFrom_mono h.2 (by omega)
    unfold Memory.set
    split
    · simp only [Memory.wfFrom, Bool.and_eq_true, decide_eq_true_eq]
      exact ⟨h.1, hk ‹_›⟩
    · split
      · split
        · exact hlo
        · rename_i hka hv
          simp only [Memory.wfFrom, Bool.and_eq_true, decide_eq_true_eq, bne_iff_ne, ne_eq]
          exact ⟨⟨ha, hv⟩, by subst hka; exact h.2⟩
      · split
        · exact h0
        · rename_i hka hka' hv
          simp only [Memory.wfFrom, Bool.and_eq_true, decide_eq_true_eq, bne_iff_ne, ne_eq]
          exact ⟨⟨ha, hv⟩, ⟨by omega, by simpa using h.1.2⟩, h.2⟩

theorem Memory.set_wf {m : Memory} (h : Memory.wf m = true) (a : Nat) (v : Byte) :
    Memory.wf (Memory.set m a v) = true :=
  Memory.set_wfFrom h (Nat.zero_le a) v

theorem Memory.set_below {cap : Nat} {m : Memory} (h : Memory.below cap m = true) {a : Nat} (ha : a < cap) (v : Byte) :
    Memory.below cap (Memory.set m a v) = true := by
  simp only [Memory.below, List.all_eq_true, decide_eq_true_eq] at h ⊢
  induction m with
  | nil => by_cases hv : v = Memory.unlisted <;> simp [Memory.set, hv, ha]
  | cons c m ih =>
    obtain ⟨k, w⟩ := c
    have hm := ih fun x hx => h x (List.mem_cons_of_mem _ hx)
    have hc := h (k, w) (by simp)
    unfold Memory.set
    intro x hx
    split at hx
    · grind
    · split at hx <;> split at hx <;> grind

/-! ## Several bytes -/

/-- The canonical form is kept by a write of several bytes. -/
theorem Memory.writeLE_wf {m : Memory} (h : Memory.wf m = true) (a n : Nat) (v : Word) :
    Memory.wf (Memory.writeLE m a n v) = true := by
  induction n generalizing m a v with
  | zero => exact h
  | succ n ih => exact ih (Memory.set_wf h a _) (a + 1) _

theorem Memory.writeLE_below {cap : Nat} {m : Memory} (h : Memory.below cap m = true) {a n : Nat} (hn : a + n ≤ cap)
    (v : Word) : Memory.below cap (Memory.writeLE m a n v) = true := by
  induction n generalizing m a v with
  | zero => exact h
  | succ n ih => exact ih (Memory.set_below h (by omega) _) (by omega) _

/-- What a write of several bytes does to every address: byte k of the value at a + k, every other byte as it was. -/
theorem Memory.get_writeLE {m : Memory} (h : Memory.wf m = true) (a n : Nat) (v : Word) (b : Nat) :
    Memory.get (Memory.writeLE m a n v) b =
      if a ≤ b ∧ b < a + n then (v >>> (8 * (b - a))).setWidth 8 else Memory.get m b := by
  induction n generalizing m a v with
  | zero => simp only [Memory.writeLE]; grind
  | succ n ih =>
    rw [Memory.writeLE, ih (Memory.set_wf h a _) (a + 1) (v >>> 8), Memory.get_set h]
    by_cases h1 : a + 1 ≤ b ∧ b < a + 1 + n
    · have hs : v >>> 8 >>> (8 * (b - (a + 1))) = v >>> (8 * (b - a)) := by
        rw [← BitVec.shiftRight_add]; congr 1; omega
      have h2 : a ≤ b ∧ b < a + (n + 1) := by omega
      simp only [h1, h2, and_self, if_true, hs]
    · by_cases hb : b = a
      · subst hb
        simp
      · have h2 : ¬ (a ≤ b ∧ b < a + (n + 1)) := by omega
        simp only [h1, h2, hb, if_false]

/-- A read of n bytes depends on those n bytes only. -/
theorem Memory.readLE_congr {m m' : Memory} {a n : Nat}
    (h : ∀ b, a ≤ b → b < a + n → Memory.get m b = Memory.get m' b) : Memory.readLE m a n = Memory.readLE m' a n := by
  induction n generalizing a with
  | zero => rfl
  | succ n ih =>
    simp only [Memory.readLE, h a (by omega) (by omega)]
    rw [ih fun b h1 h2 => h b (by omega) (by omega)]

/-- Bit i of a read is bit i mod 8 of byte i / 8 (20_memory.md R62). -/
theorem Memory.getLsbD_readLE (m : Memory) (a n i : Nat) :
    (Memory.readLE m a n).getLsbD i = (decide (i < 64 ∧ i < 8 * n) && (Memory.get m (a + i / 8)).getLsbD (i % 8)) := by
  induction n generalizing a i with
  | zero => simp [Memory.readLE]
  | succ n ih =>
    simp only [Memory.readLE, BitVec.getLsbD_or, BitVec.getLsbD_setWidth, BitVec.getLsbD_shiftLeft, ih]
    by_cases h8 : i < 8
    · have : i / 8 = 0 := by omega
      have : i % 8 = i := by omega
      have : i < 64 := by omega
      have : i < 8 * (n + 1) := by omega
      simp [*]
    · have h1 : a + 1 + (i - 8) / 8 = a + i / 8 := by omega
      have h2 : (i - 8) % 8 = i % 8 := by omega
      have h3 : (Memory.get m a).getLsbD i = false := BitVec.getLsbD_of_ge _ _ (by omega)
      by_cases h64 : i < 64
      · have h4 : i - 8 < 64 := by omega
        have h5 : (i - 8 < 8 * n) = (i < 8 * (n + 1)) := by apply propext; omega
        simp [h1, h2, h3, h64, h8, h4, h5]
      · simp [h64]

/-- Reading back what was written: the low n bytes of the value (20_memory.md R62, R63). -/
theorem Memory.readLE_writeLE {m : Memory} (h : Memory.wf m = true) (a n : Nat) (v : Word) :
    Memory.readLE (Memory.writeLE m a n v) a n = (v.setWidth (8 * n)).setWidth 64 := by
  apply BitVec.eq_of_getLsbD_eq
  intro i hi
  rw [Memory.getLsbD_readLE, Memory.get_writeLE h]
  by_cases hn : i < 8 * n
  · have h1 : a ≤ a + i / 8 ∧ a + i / 8 < a + n := by omega
    have h2 : 8 * (i / 8) + i % 8 = i := by omega
    have h3 : i % 8 < 8 := by omega
    simp [h1, hi, hn, h3, h2, BitVec.getLsbD_eq_getElem]
  · simp [hi, hn]

/-- The memory right after reset is canonical. -/
theorem reset_memory_wf : Memory.wf State.reset.mem = true := rfl

end Sys2Proof.Machine
end

