-- ==== Sys2Proof/Laws/Ops.lean ====
section
/-! SUPPORT. One lemma per shared operation that says once everything it can do; proofs cite these instead of unfolding
the operation. -/

namespace Sys2Proof.Machine

/-! ## Sequencing -/

/-- A sequence answers a value exactly when its first part does and the rest does after it. -/
theorem except_bind_ok {ε α β : Type} {x : Except ε α} {f : α → Except ε β} {b : β} :
    (x >>= f) = .ok b ↔ ∃ a, x = .ok a ∧ f a = .ok b := by
  cases x with
  | error e => simp [bind, Except.bind]
  | ok a => simp [bind, Except.bind]

/-- A sequence fails exactly when its first part does or the rest does after it. -/
theorem except_bind_error {ε α β : Type} {x : Except ε α} {f : α → Except ε β} {e : ε} :
    (x >>= f) = .error e ↔ x = .error e ∨ ∃ a, x = .ok a ∧ f a = .error e := by
  cases x with
  | error e => simp [bind, Except.bind]
  | ok a => simp [bind, Except.bind]

/-- A checked operation answers its value exactly when the check holds. -/
theorem ite_eq_ok {ε α : Type} {c : Prop} [Decidable c] {a b : α} {e : ε} :
    (if c then Except.ok a else Except.error e) = .ok b ↔ c ∧ b = a := by
  by_cases h : c <;> simp [h, @eq_comm _ b]

/-- A checked operation fails exactly when the check does. -/
theorem ite_eq_error {ε α : Type} {c : Prop} [Decidable c] {a : α} {e e' : ε} :
    (if c then Except.ok a else Except.error e) = .error e' ↔ ¬ c ∧ e' = e := by
  by_cases h : c <;> simp [h, @eq_comm _ e']

@[simp] theorem except_pure_ok {ε α : Type} (a : α) : (pure a : Except ε α) = .ok a := rfl

/-! ## Registers -/

theorem RegFile.get_set (r : RegFile) {id : RegId} (h : regIdOk id = true) (v : Word) (q : RegId) :
    RegFile.get (RegFile.set r id v) q = if q = id then v else RegFile.get r q := by
  have hid : id.toNat < 11 := by simpa [regIdOk] using h
  by_cases hq : q = id
  · subst hq; simp [RegFile.get, RegFile.set, hid]
  · have : id.toNat ≠ q.toNat := fun hc => hq (BitVec.eq_of_toNat_eq hc.symm)
    by_cases hq11 : q.toNat < 11
    · simp [RegFile.get, RegFile.set, hq, hq11, this]
    · simp [RegFile.get, RegFile.set, hq, hq11]

theorem readReg_ok {id : RegId} {s : State} {v : Word} :
    readReg id s = .ok v ↔ regIdOk id = true ∧ v = s.x id := by
  simp [readReg, ite_eq_ok, State.x]

theorem readReg_error {id : RegId} {s : State} {e : Raised} :
    readReg id s = .error e ↔ regIdOk id = false ∧ e = .plain .invalidRegister := by
  simp [readReg, ite_eq_error]

theorem writeReg_ok {id : RegId} {v : Word} {s t : State} :
    writeReg id v s = .ok t ↔ regIdOk id = true ∧ t = s.withRegs (RegFile.set s.regs id v) := by
  simp [writeReg, ite_eq_ok]

theorem writeReg_error {id : RegId} {v : Word} {s : State} {e : Raised} :
    writeReg id v s = .error e ↔ regIdOk id = false ∧ e = .plain .invalidRegister := by
  simp [writeReg, ite_eq_error]

/-! ## Memory -/

theorem inBounds_iff {addr : Word} {n : Width} {s : State} :
    inBounds addr n s = true ↔ addr.toNat + n.bytes ≤ s.params.memCapacity := by
  simp [inBounds]

theorem memRead_ok {addr : Word} {n : Width} {s : State} {v : Word} :
    memRead addr n s = .ok v ↔ inBounds addr n s = true ∧ v = Memory.readLE s.mem addr.toNat n.bytes := by
  simp [memRead, ite_eq_ok]

theorem memRead_error {addr : Word} {n : Width} {s : State} {e : Raised} :
    memRead addr n s = .error e ↔ inBounds addr n s = false ∧ e = .outOfBounds addr n := by
  simp [memRead, ite_eq_error]

theorem memWrite_ok {addr : Word} {n : Width} {v : Word} {s t : State} :
    memWrite addr n v s = .ok t ↔
      inBounds addr n s = true ∧ t = s.withMem (Memory.writeLE s.mem addr.toNat n.bytes v) := by
  simp [memWrite, ite_eq_ok]

theorem memWrite_error {addr : Word} {n : Width} {v : Word} {s : State} {e : Raised} :
    memWrite addr n v s = .error e ↔ inBounds addr n s = false ∧ e = .outOfBounds addr n := by
  simp [memWrite, ite_eq_error]

/-- A store keeps the memory canonical and inside the capacity (20_memory.md R60). -/
theorem memWrite_memoryOk {addr : Word} {n : Width} {v : Word} {s t : State} (h : memWrite addr n v s = .ok t)
    (hm : MemoryOk s.params s.mem) : MemoryOk t.params t.mem := by
  obtain ⟨hb, rfl⟩ := memWrite_ok.1 h
  exact ⟨Memory.writeLE_wf hm.1 _ _ _, Memory.writeLE_below hm.2 (inBounds_iff.1 hb) _⟩

/-! ## Operands -/

theorem operand_value_ok {b : Operand} {s : State} {v : Word} :
    b.value s = .ok v ↔
      (∃ imm, b = .imm imm ∧ v = immOperand imm) ∨ ∃ r, b = .reg r ∧ regIdOk r = true ∧ v = s.x r := by
  cases b with
  | imm w => simp [Operand.value, @eq_comm _ v]
  | reg r => simp [Operand.value, readReg_ok]

theorem operand_value_error {b : Operand} {s : State} {e : Raised} :
    b.value s = .error e ↔ ∃ r, b = .reg r ∧ regIdOk r = false ∧ e = .plain .invalidRegister := by
  cases b with
  | imm w => simp [Operand.value]
  | reg r => simp [Operand.value, readReg_error]

/-! ## The instruction templates -/

theorem writeAdvance_ok {dst : RegId} {v : Word} {s t : State} :
    writeAdvance dst v s = .ok t ↔ regIdOk dst = true ∧ t = regWritten s dst v := by
  simp only [writeAdvance, except_bind_ok, writeReg_ok, except_pure_ok, Except.ok.injEq]
  constructor
  · rintro ⟨_, ⟨h, rfl⟩, rfl⟩; exact ⟨h, rfl⟩
  · rintro ⟨h, rfl⟩; exact ⟨_, ⟨h, rfl⟩, rfl⟩

theorem writeAdvance_error {dst : RegId} {v : Word} {s : State} {e : Raised} :
    writeAdvance dst v s = .error e ↔ regIdOk dst = false ∧ e = .plain .invalidRegister := by
  simp [writeAdvance, except_bind_error, writeReg_error]

theorem aluBinary_ok {f : Word → Word → Except Raised Word} {dst : RegId} {b : Operand} {s t : State} :
    aluBinary f dst b s = .ok t ↔
      regIdOk dst = true ∧ ∃ y r, b.value s = .ok y ∧ f (s.x dst) y = .ok r ∧ t = regWritten s dst r := by
  simp only [aluBinary, except_bind_ok, readReg_ok, writeAdvance_ok]
  constructor
  · rintro ⟨_, ⟨h, rfl⟩, y, hy, r, hr, -, ht⟩; exact ⟨h, y, r, hy, hr, ht⟩
  · rintro ⟨h, y, r, hy, hr, ht⟩; exact ⟨_, ⟨h, rfl⟩, y, hy, r, hr, h, ht⟩

theorem aluBinary_error {f : Word → Word → Except Raised Word} {dst : RegId} {b : Operand} {s : State} {e : Raised} :
    aluBinary f dst b s = .error e ↔
      (regIdOk dst = false ∧ e = .plain .invalidRegister) ∨
        (regIdOk dst = true ∧ (b.value s = .error e ∨ ∃ y, b.value s = .ok y ∧ f (s.x dst) y = .error e)) := by
  simp only [aluBinary, except_bind_error, readReg_ok, readReg_error, writeAdvance_error]
  constructor
  · rintro (h | ⟨_, ⟨h, rfl⟩, (hy | ⟨y, hy, (hr | ⟨r, -, h', -⟩)⟩)⟩)
    · exact .inl h
    · exact .inr ⟨h, .inl hy⟩
    · exact .inr ⟨h, .inr ⟨y, hy, hr⟩⟩
    · simp [h] at h'
  · rintro (h | ⟨h, hy | ⟨y, hy, hr⟩⟩)
    · exact .inl h
    · exact .inr ⟨_, ⟨h, rfl⟩, .inl hy⟩
    · exact .inr ⟨_, ⟨h, rfl⟩, .inr ⟨y, hy, .inl hr⟩⟩

theorem aluMove_ok {dst : RegId} {b : Operand} {s t : State} :
    aluMove dst b s = .ok t ↔ regIdOk dst = true ∧ ∃ y, b.value s = .ok y ∧ t = regWritten s dst y := by
  simp only [aluMove, except_bind_ok, writeAdvance_ok]
  constructor
  · rintro ⟨y, hy, h, ht⟩; exact ⟨h, y, hy, ht⟩
  · rintro ⟨h, y, hy, ht⟩; exact ⟨y, hy, h, ht⟩

theorem aluMove_error {dst : RegId} {b : Operand} {s : State} {e : Raised} :
    aluMove dst b s = .error e ↔
      b.value s = .error e ∨ ((∃ y, b.value s = .ok y) ∧ regIdOk dst = false ∧ e = .plain .invalidRegister) := by
  simp only [aluMove, except_bind_error, writeAdvance_error]
  constructor
  · rintro (h | ⟨y, hy, h⟩)
    · exact .inl h
    · exact .inr ⟨⟨y, hy⟩, h⟩
  · rintro (h | ⟨⟨y, hy⟩, h⟩)
    · exact .inl h
    · exact .inr ⟨y, hy, h⟩

theorem aluNegate_ok {dst : RegId} {s t : State} :
    aluNegate dst s = .ok t ↔ regIdOk dst = true ∧ t = regWritten s dst (0 - s.x dst) := by
  simp only [aluNegate, except_bind_ok, readReg_ok, writeAdvance_ok]
  constructor
  · rintro ⟨_, ⟨h, rfl⟩, -, ht⟩; exact ⟨h, ht⟩
  · rintro ⟨h, ht⟩; exact ⟨_, ⟨h, rfl⟩, h, ht⟩

theorem aluNegate_error {dst : RegId} {s : State} {e : Raised} :
    aluNegate dst s = .error e ↔ regIdOk dst = false ∧ e = .plain .invalidRegister := by
  simp only [aluNegate, except_bind_error, readReg_ok, readReg_error, writeAdvance_error]
  constructor
  · rintro (h | ⟨_, ⟨h, -⟩, h'⟩)
    · exact h
    · exact h'
  · exact .inl

theorem loadInto_ok {dst : RegId} {ea : Word} {n : Width} {s t : State} :
    loadInto dst ea n s = .ok t ↔
      regIdOk dst = true ∧ inBounds ea n s = true ∧
        t = regWritten s dst (Memory.readLE s.mem ea.toNat n.bytes) := by
  simp only [loadInto, except_bind_ok, memRead_ok, writeAdvance_ok]
  constructor
  · rintro ⟨_, ⟨hb, rfl⟩, h, ht⟩; exact ⟨h, hb, ht⟩
  · rintro ⟨h, hb, ht⟩; exact ⟨_, ⟨hb, rfl⟩, h, ht⟩

theorem loadInto_error {dst : RegId} {ea : Word} {n : Width} {s : State} {e : Raised} :
    loadInto dst ea n s = .error e ↔
      (inBounds ea n s = false ∧ e = .outOfBounds ea n) ∨
        (inBounds ea n s = true ∧ regIdOk dst = false ∧ e = .plain .invalidRegister) := by
  simp only [loadInto, except_bind_error, memRead_ok, memRead_error, writeAdvance_error]
  constructor
  · rintro (h | ⟨_, ⟨hb, -⟩, h⟩)
    · exact .inl h
    · exact .inr ⟨hb, h⟩
  · rintro (h | ⟨hb, h⟩)
    · exact .inl h
    · exact .inr ⟨_, ⟨hb, rfl⟩, h⟩

theorem loadIndirect_ok {dst src : RegId} {off : BitVec 16} {n : Width} {s t : State} :
    loadIndirect dst src off n s = .ok t ↔
      regIdOk src = true ∧ loadInto dst (indAddress (s.x src) off) n s = .ok t := by
  simp only [loadIndirect, except_bind_ok, readReg_ok]
  constructor
  · rintro ⟨_, ⟨h, rfl⟩, ht⟩; exact ⟨h, ht⟩
  · rintro ⟨h, ht⟩; exact ⟨_, ⟨h, rfl⟩, ht⟩

theorem loadIndirect_error {dst src : RegId} {off : BitVec 16} {n : Width} {s : State} {e : Raised} :
    loadIndirect dst src off n s = .error e ↔
      (regIdOk src = false ∧ e = .plain .invalidRegister) ∨
        (regIdOk src = true ∧ loadInto dst (indAddress (s.x src) off) n s = .error e) := by
  simp only [loadIndirect, except_bind_error, readReg_ok, readReg_error]
  constructor
  · rintro (h | ⟨_, ⟨h, rfl⟩, ht⟩)
    · exact .inl h
    · exact .inr ⟨h, ht⟩
  · rintro (h | ⟨h, ht⟩)
    · exact .inl h
    · exact .inr ⟨_, ⟨h, rfl⟩, ht⟩

theorem storeIndirect_ok {dst src : RegId} {off : BitVec 16} {n : Width} {s t : State} :
    storeIndirect dst src off n s = .ok t ↔
      regIdOk dst = true ∧ regIdOk src = true ∧ inBounds (indAddress (s.x dst) off) n s = true ∧
        t = memWritten s (Memory.writeLE s.mem (indAddress (s.x dst) off).toNat n.bytes (s.x src)) := by
  simp only [storeIndirect, except_bind_ok, readReg_ok, memWrite_ok, except_pure_ok, Except.ok.injEq]
  constructor
  · rintro ⟨_, ⟨hd, rfl⟩, _, ⟨hs, rfl⟩, _, ⟨hb, rfl⟩, rfl⟩; exact ⟨hd, hs, hb, rfl⟩
  · rintro ⟨hd, hs, hb, rfl⟩; exact ⟨_, ⟨hd, rfl⟩, _, ⟨hs, rfl⟩, _, ⟨hb, rfl⟩, rfl⟩

theorem storeIndirect_error {dst src : RegId} {off : BitVec 16} {n : Width} {s : State} {e : Raised} :
    storeIndirect dst src off n s = .error e ↔
      ((regIdOk dst && regIdOk src) = false ∧ e = .plain .invalidRegister) ∨
        ((regIdOk dst && regIdOk src) = true ∧ inBounds (indAddress (s.x dst) off) n s = false ∧
          e = .outOfBounds (indAddress (s.x dst) off) n) := by
  simp only [storeIndirect, except_bind_error, readReg_ok, readReg_error, memWrite_error, except_pure_ok]
  cases hd : regIdOk dst <;> cases hs : regIdOk src <;> simp

theorem condJump_ok {cond : Word → Word → Bool} {dst : RegId} {b : Operand} {off : BitVec 16} {s t : State} :
    condJump cond dst b off s = .ok t ↔
      regIdOk dst = true ∧ ∃ y, b.value s = .ok y ∧
        t = jumped s (if cond (s.x dst) y then s.pc + displacement off else s.pc + 1) := by
  simp only [condJump, except_bind_ok, readReg_ok, except_pure_ok, Except.ok.injEq]
  constructor
  · rintro ⟨_, ⟨h, rfl⟩, y, hy, rfl⟩
    refine ⟨h, y, hy, ?_⟩
    split <;> rfl
  · rintro ⟨h, y, hy, rfl⟩
    refine ⟨_, ⟨h, rfl⟩, y, hy, ?_⟩
    split <;> rfl

theorem condJump_error {cond : Word → Word → Bool} {dst : RegId} {b : Operand} {off : BitVec 16} {s : State}
    {e : Raised} :
    condJump cond dst b off s = .error e ↔
      (regIdOk dst = false ∧ e = .plain .invalidRegister) ∨ (regIdOk dst = true ∧ b.value s = .error e) := by
  simp only [condJump, except_bind_error, readReg_ok, readReg_error, except_pure_ok]
  constructor
  · rintro (h | ⟨_, ⟨h, -⟩, (hy | ⟨_, -, h'⟩)⟩)
    · exact .inl h
    · exact .inr ⟨h, hy⟩
    · cases h'
  · rintro (h | ⟨h, hy⟩)
    · exact .inl h
    · exact .inr ⟨_, ⟨h, rfl⟩, .inl hy⟩

theorem callBy_ok {d : Word} {s t : State} :
    callBy d s = .ok t ↔
      s.callStack.length ≠ s.params.maxCallDepth ∧ t = { s with callStack := s.pc :: s.callStack, pc := s.pc + d } := by
  unfold callBy
  split
  · simp_all
  · constructor
    · intro h; cases h; exact ⟨‹_›, rfl⟩
    · rintro ⟨-, rfl⟩; rfl

theorem callBy_error {d : Word} {s : State} {e : Raised} :
    callBy d s = .error e ↔ s.callStack.length = s.params.maxCallDepth ∧ e = .plain .stackOverflow := by
  by_cases h : s.callStack.length = s.params.maxCallDepth <;> simp [callBy, h, @eq_comm _ e]

theorem openInvocation_ok {s t : State} :
    openInvocation s = .ok t ↔
      s.cpiDepth.toNat ≠ s.params.maxCpiDepth ∧ t = { s with cpiDepth := s.cpiDepth + 1, pc := s.pc + 1 } := by
  unfold openInvocation
  split
  · simp_all
  · constructor
    · intro h; cases h; exact ⟨‹_›, rfl⟩
    · rintro ⟨-, rfl⟩; rfl

theorem openInvocation_error {s : State} {e : Raised} :
    openInvocation s = .error e ↔ s.cpiDepth.toNat = s.params.maxCpiDepth ∧ e = .plain .stackOverflow := by
  by_cases h : s.cpiDepth.toNat = s.params.maxCpiDepth <;> simp [openInvocation, h, @eq_comm _ e]

theorem closeInvocation_ok {s t : State} :
    closeInvocation s = .ok t ↔
      s.cpiDepth ≠ 0 ∧ t = { s with cpiDepth := s.cpiDepth - 1, pc := s.pc + 1 } := by
  unfold closeInvocation
  split
  · simp_all
  · constructor
    · intro h; cases h; exact ⟨‹_›, rfl⟩
    · rintro ⟨-, rfl⟩; rfl

theorem closeInvocation_error {s : State} {e : Raised} :
    closeInvocation s = .error e ↔ s.cpiDepth = 0 ∧ e = .plain .stackUnderflow := by
  by_cases h : s.cpiDepth = 0#64 <;> simp [closeInvocation, h, @eq_comm _ e]

/-! ## The end of an instruction -/

/-- What an instruction's dispatch can answer. -/
theorem finish_next {s t : State} {r : Except Raised State} :
    finish s r = .next t ↔ r = .ok t ∨ ∃ e, r = .error e ∧ t = haltFailure e s := by
  cases r with
  | ok u => simp [finish]
  | error e => simp [finish, eq_comm]

/-! ## The compute meter -/

theorem charge_ok {c : Category} {units : Nat} {s t : State} :
    charge c units s = .ok t ↔
      chargeFits s.meter c units = true ∧ t = s.withMeter (commitCharge s.meter c units) := by
  simp [charge, ite_eq_ok]

theorem charge_error {c : Category} {units : Nat} {s : State} {e : Raised} :
    charge c units s = .error e ↔ chargeFits s.meter c units = false ∧ e = .plain .insufficientBudget := by
  simp [charge, ite_eq_error]

/-- A charge that fits commits the exact sums, without wrap (40_compute_meter.md R118). -/
theorem commitCharge_exact {m : Meter} {c : Category} {units : Nat} (h : chargeFits m c units = true) :
    (commitCharge m c units).cuUsed.toNat = m.cuUsed.toNat + costCu m c units ∧
      (commitCharge m c units).cycUsed.toNat = m.cycUsed.toNat + costCyc m c units := by
  simp only [chargeFits, Bool.and_eq_true, decide_eq_true_eq] at h
  have h1 := m.cuLimit.isLt
  have h2 := m.cycLimit.isLt
  constructor
  · simp only [commitCharge, BitVec.toNat_ofNat]; exact Nat.mod_eq_of_lt (by omega)
  · simp only [commitCharge, BitVec.toNat_ofNat]; exact Nat.mod_eq_of_lt (by omega)

end Sys2Proof.Machine
end

