-- ==== Sys2Proof/Laws/Exec.lean ====
section
/-! SUPPORT. What an instruction and a step can do, said once: every later proof about exec or step is a short case
analysis on Effect, EngineEffect or the host's commands. -/

namespace Sys2Proof.Machine

/-! ## Instructions -/

/-- The states an instruction can answer. -/
inductive Effect (i : Instr) (s : State) : State → Prop where
  /-- one register written (42_alu.md R170, 43_load_store.md R220) -/
  | reg (dst : RegId) (v : Word) (hd : destination i = some dst) (hr : regIdOk dst = true) :
      Effect i s (regWritten s dst v)
  /-- bytes stored (43_load_store.md R235) -/
  | store (a : Word) (n : Width) (v : Word) (hi : isStore i = true) (hb : inBounds a n s = true) :
      Effect i s (memWritten s (Memory.writeLE s.mem a.toNat n.bytes v))
  /-- a jump, or the default advance alone (44_branch.md R250) -/
  | jump (target : Word) (hc : isControl i = true ∨ target = s.pc + 1) : Effect i s (jumped s target)
  /-- a call (45_call_exit_ext.md R290) -/
  | call (imm : BitVec 32) (hi : i = .call imm) (hd : s.callStack.length ≠ s.params.maxCallDepth) :
      Effect i s { s with callStack := s.pc :: s.callStack, pc := s.pc + immOperand imm }
  /-- a return from a call (45_call_exit_ext.md R291) -/
  | ret (top : Word) (rest : List Word) (hi : i = .exit) (hs : s.callStack = top :: rest) :
      Effect i s { s with callStack := rest, pc := top + 1 }
  /-- the end of the program (45_call_exit_ext.md R291) -/
  | success (hi : i = .exit) (hs : s.callStack = []) : Effect i s (haltSuccess (s.x 0) s)
  /-- a cross-program level opened (45_call_exit_ext.md R293) -/
  | opened (hi : i = .invoke) (hd : s.cpiDepth.toNat ≠ s.params.maxCpiDepth) :
      Effect i s { s with cpiDepth := s.cpiDepth + 1, pc := s.pc + 1 }
  /-- a cross-program level closed (45_call_exit_ext.md R295) -/
  | closed (hi : i = .cpiReturn) (hd : s.cpiDepth ≠ 0) :
      Effect i s { s with cpiDepth := s.cpiDepth - 1, pc := s.pc + 1 }
  /-- a failure (41_engine.md R150); no instruction itself runs out of budget -/
  | failure (e : Raised) (hk : e.kind ≠ .insufficientBudget) : Effect i s (haltFailure e s)

theorem operand_value_error_kind {b : Operand} {s : State} {e : Raised} (h : b.value s = .error e) :
    e.kind ≠ .insufficientBudget := by
  obtain ⟨_, _, _, rfl⟩ := operand_value_error.1 h
  simp [Raised.plain]

theorem Effect.of_alu {i : Instr} {f : Word → Word → Except Raised Word} {dst : RegId} {b : Operand} {s t : State}
    (hd : destination i = some dst) (hf : ∀ x y e, f x y = .error e → e.kind ≠ .insufficientBudget)
    (h : finish s (aluBinary f dst b s) = .next t) : Effect i s t := by
  obtain ho | ⟨e, he, rfl⟩ := finish_next.1 h
  · obtain ⟨hr, y, r, -, -, rfl⟩ := aluBinary_ok.1 ho
    exact .reg dst r hd hr
  · obtain ⟨-, rfl⟩ | ⟨-, h | ⟨y, -, h⟩⟩ := aluBinary_error.1 he
    · exact .failure _ (by simp [Raised.plain])
    · exact .failure _ (operand_value_error_kind h)
    · exact .failure _ (hf _ _ _ h)

theorem Effect.of_move {i : Instr} {dst : RegId} {b : Operand} {s t : State} (hd : destination i = some dst)
    (h : finish s (aluMove dst b s) = .next t) : Effect i s t := by
  obtain ho | ⟨e, he, rfl⟩ := finish_next.1 h
  · obtain ⟨hr, y, -, rfl⟩ := aluMove_ok.1 ho
    exact .reg dst y hd hr
  · obtain h | ⟨-, -, rfl⟩ := aluMove_error.1 he
    · exact .failure _ (operand_value_error_kind h)
    · exact .failure _ (by simp [Raised.plain])

theorem Effect.of_load {i : Instr} {dst : RegId} {ea : Word} {n : Width} {s t : State}
    (hd : destination i = some dst) (h : finish s (loadInto dst ea n s) = .next t) : Effect i s t := by
  obtain ho | ⟨e, he, rfl⟩ := finish_next.1 h
  · obtain ⟨hr, -, rfl⟩ := loadInto_ok.1 ho
    exact .reg dst _ hd hr
  · obtain ⟨-, rfl⟩ | ⟨-, -, rfl⟩ := loadInto_error.1 he
    · exact .failure _ (by simp [Raised.outOfBounds])
    · exact .failure _ (by simp [Raised.plain])

theorem Effect.of_loadIndirect {i : Instr} {dst src : RegId} {off : BitVec 16} {n : Width} {s t : State}
    (hd : destination i = some dst) (h : finish s (loadIndirect dst src off n s) = .next t) : Effect i s t := by
  obtain ho | ⟨e, he, rfl⟩ := finish_next.1 h
  · exact .of_load hd (finish_next.2 (.inl (loadIndirect_ok.1 ho).2))
  · obtain ⟨-, rfl⟩ | ⟨-, h⟩ := loadIndirect_error.1 he
    · exact .failure _ (by simp [Raised.plain])
    · exact .of_load hd (finish_next.2 (.inr ⟨e, h, rfl⟩))

theorem Effect.of_store {i : Instr} {dst src : RegId} {off : BitVec 16} {n : Width} {s t : State}
    (hi : isStore i = true) (h : finish s (storeIndirect dst src off n s) = .next t) : Effect i s t := by
  obtain ho | ⟨e, he, rfl⟩ := finish_next.1 h
  · obtain ⟨-, -, hb, rfl⟩ := storeIndirect_ok.1 ho
    exact .store _ n _ hi hb
  · obtain ⟨-, rfl⟩ | ⟨-, -, rfl⟩ := storeIndirect_error.1 he
    · exact .failure _ (by simp [Raised.plain])
    · exact .failure _ (by simp [Raised.outOfBounds])

theorem Effect.of_jump {i : Instr} {cond : Word → Word → Bool} {dst : RegId} {b : Operand} {off : BitVec 16}
    {s t : State} (hi : isControl i = true) (h : finish s (condJump cond dst b off s) = .next t) : Effect i s t := by
  obtain ho | ⟨e, he, rfl⟩ := finish_next.1 h
  · obtain ⟨-, y, -, rfl⟩ := condJump_ok.1 ho
    exact .jump _ (.inl hi)
  · obtain ⟨-, rfl⟩ | ⟨-, h⟩ := condJump_error.1 he
    · exact .failure _ (by simp [Raised.plain])
    · exact .failure _ (operand_value_error_kind h)

theorem divResult_error_kind (x y : Word) (e : Raised) (h : divResult x y = .error e) :
    e.kind ≠ .insufficientBudget := by
  unfold divResult at h
  split at h <;> cases h
  simp [Raised.plain]

theorem modResult_error_kind (x y : Word) (e : Raised) (h : modResult x y = .error e) :
    e.kind ≠ .insufficientBudget := by
  unfold modResult at h
  split at h <;> cases h
  simp [Raised.plain]

/-- Whatever an instruction answers is one of the effects. -/
theorem exec_effect {i : Instr} {s t : State} (h : exec i s = .next t) : Effect i s t := by
  cases i with
  | add64Imm | add64Reg | sub64Imm | sub64Reg | mul64Imm | mul64Reg | or64Imm | or64Reg | and64Imm | and64Reg
  | xor64Imm | xor64Reg | lsh64Imm | lsh64Reg | rsh64Imm | rsh64Reg | arsh64Imm | arsh64Reg =>
    exact .of_alu rfl (fun _ _ _ h => by cases h) h
  | div64Imm | div64Reg => exact .of_alu rfl divResult_error_kind h
  | mod64Imm | mod64Reg => exact .of_alu rfl modResult_error_kind h
  | mov64Imm | mov64Reg => exact .of_move rfl h
  | neg64 dst =>
    obtain ho | ⟨e, he, rfl⟩ := finish_next.1 h
    · obtain ⟨hr, rfl⟩ := aluNegate_ok.1 ho
      exact .reg dst _ rfl hr
    · obtain ⟨-, rfl⟩ := aluNegate_error.1 he
      exact .failure _ (by simp [Raised.plain])
  | lddw dst v =>
    obtain ho | ⟨e, he, rfl⟩ := finish_next.1 h
    · obtain ⟨hr, rfl⟩ := writeAdvance_ok.1 ho
      exact .reg dst v rfl hr
    · obtain ⟨-, rfl⟩ := writeAdvance_error.1 he
      exact .failure _ (by simp [Raised.plain])
  | ldabsb | ldabsh | ldabsw | ldabsdw => exact .of_load rfl h
  | ldxb | ldxh | ldxw | ldxdw => exact .of_loadIndirect rfl h
  | stxb | stxh | stxw | stxdw => exact .of_store rfl h
  | ja off => cases h; exact .jump _ (.inl rfl)
  | jeqImm | jeqReg | jneImm | jneReg | jgtImm | jgtReg | jgeImm | jgeReg | jltImm | jltReg | jleImm | jleReg | jsgtImm
  | jsgtReg | jsgeImm | jsgeReg | jsltImm | jsltReg | jsleImm | jsleReg => exact .of_jump rfl h
  | call imm =>
    obtain ho | ⟨e, he, rfl⟩ := finish_next.1 h
    · obtain ⟨hd, rfl⟩ := callBy_ok.1 ho
      exact .call imm rfl hd
    · obtain ⟨-, rfl⟩ := callBy_error.1 he
      exact .failure _ (by simp [Raised.plain])
  | exit =>
    cases h
    unfold returnOrHalt
    split
    · exact .ret _ _ rfl ‹_›
    · exact .success rfl ‹_›
  | invoke =>
    obtain ho | ⟨e, he, rfl⟩ := finish_next.1 h
    · obtain ⟨hd, rfl⟩ := openInvocation_ok.1 ho
      exact .opened rfl hd
    · obtain ⟨-, rfl⟩ := openInvocation_error.1 he
      exact .failure _ (by simp [Raised.plain])
  | log => cases h; exact .jump _ (.inr rfl)
  | cpiReturn =>
    obtain ho | ⟨e, he, rfl⟩ := finish_next.1 h
    · obtain ⟨hd, rfl⟩ := closeInvocation_ok.1 ho
      exact .closed rfl hd
    · obtain ⟨-, rfl⟩ := closeInvocation_error.1 he
      exact .failure _ (by simp [Raised.plain])

/-! ## Engine steps -/

/-- The states an engine step can answer: a halt before any instruction runs, a budget halt with its rollback, or an
instruction's answer after the charge and the count (41_engine.md R145 to R149). -/
inductive EngineEffect (s : State) : State → Prop where
  /-- the step ceiling, the fetch or an opcode with no row -/
  | early (k : FailKind) (hk : k = .stepLimitExceeded ∨ k = .pcOutOfBounds ∨ k = .invalidOpcode) :
      EngineEffect s (haltFailure (.plain k) s)
  /-- the charge does not fit: the halt, then the automatic rollback -/
  | overBudget (i : Instr) (hc : s.stepCount.toNat < s.params.maxSteps)
      (hf : chargeFits s.meter (chargeOf s.meter.cfg i).1 (chargeOf s.meter.cfg i).2 = false) :
      EngineEffect s (autoRollback (haltFailure (.plain .insufficientBudget) s))
  /-- an instruction charged, counted and dispatched -/
  | ran (i : Instr) (t : State) (hc : s.stepCount.toNat < s.params.maxSteps)
      (hf : chargeFits s.meter (chargeOf s.meter.cfg i).1 (chargeOf s.meter.cfg i).2 = true)
      (he : Effect i
        (countStep (s.withMeter (commitCharge s.meter (chargeOf s.meter.cfg i).1 (chargeOf s.meter.cfg i).2))) t) :
      EngineEffect s t

/-- Whatever an engine step answers is one of the engine's effects. -/
theorem engineStep_effect {s t : State} (h : engineStep s = .next t) : EngineEffect s t := by
  unfold engineStep at h
  split at h
  · cases h; exact .early _ (.inl rfl)
  · have hc : s.stepCount.toNat < s.params.maxSteps := by omega
    split at h
    · cases h; exact .early _ (.inr (.inl rfl))
    · split at h
      · cases h; exact .early _ (.inr (.inr rfl))
      · rename_i i _
        unfold meterAndRun at h
        split at h
        · obtain ⟨hf, rfl⟩ := charge_error.1 ‹_›
          cases h; exact .overBudget i hc hf
        · obtain ⟨hf, rfl⟩ := charge_ok.1 ‹_›
          exact .ran i t hc hf (exec_effect h)

/-- One step: the engine's effect while it is Running, else the host port's turn. -/
theorem step_cases {s t : State} (h : step s = .next t) :
    (s.engState = .running ∧ EngineEffect s t) ∨ (s.engState ≠ .running ∧ t = hostTurn s) := by
  unfold step at h
  split at h
  · exact .inl ⟨‹_›, engineStep_effect h⟩
  · cases h; exact .inr ⟨‹_›, rfl⟩

/-- The host port's turn: a pending RUN returns, or nothing is issued, or the oldest command is taken (41_engine.md R144,
log 5, log 6). -/
theorem hostTurn_cases (s : State) :
    (s.runPending = true ∧ hostTurn s = returnRun s) ∨
      (s.runPending = false ∧ s.hostIn = [] ∧ hostTurn s = s) ∨
        ∃ c rest, s.runPending = false ∧ s.hostIn = c :: rest ∧ hostTurn s = takeCommand c rest s := by
  unfold hostTurn
  cases hp : s.runPending with
  | true => exact .inl ⟨rfl, rfl⟩
  | false =>
    cases hc : s.hostIn with
    | nil => exact .inr (.inl ⟨rfl, rfl, rfl⟩)
    | cons c rest => exact .inr (.inr ⟨c, rest, rfl, rfl, rfl⟩)

/-! ## Checkpoint commands -/

/-- The automatic rollback with a transaction open: TXN_BASE restored, the stack and the transaction gone
(46_checkpoint.md R315, R321). -/
theorem autoRollback_of_open {s : State} {base : Snapshot} (h : s.ckpt.txnBase = some base) :
    autoRollback s =
      (restore base s).withCkpt { (restore base s).ckpt with stack := [], txnBase := none, dirty := false } := by
  simp [autoRollback, rollbackTransaction, h]

theorem beginTransaction_ok {cu cyc : Word} {s t : State} :
    beginTransaction cu cyc s = .ok t ↔
      s.txnOpen = false ∧
        t = { s with
              meter := { s.meter with cuLimit := cu, cycLimit := cyc, cuUsed := 0, cycUsed := 0 }
              ckpt :=
                { s.ckpt with
                  dirty := false
                  txnBase :=
                    some { capture s with cuUsed := 0, cycUsed := 0, dirty := false } } } := by
  cases h : s.txnOpen
  · constructor
    · intro ht
      simp only [beginTransaction, h] at ht
      cases ht
      exact ⟨rfl, rfl⟩
    · rintro ⟨-, rfl⟩
      simp only [beginTransaction, h]
      rfl
  · simp [beginTransaction, h]

theorem commitTransaction_ok {s t : State} :
    commitTransaction s = .ok t ↔
      s.txnOpen = true ∧ s.ckpt.stack = [] ∧ t = s.withCkpt { s.ckpt with txnBase := none, dirty := false } := by
  unfold commitTransaction State.ckptDepth
  cases h : s.txnOpen <;> cases hs : s.ckpt.stack <;> simp [@eq_comm _ _ t]

theorem rollbackTransaction_ok {s t : State} :
    rollbackTransaction s = .ok t ↔
      ∃ base, s.ckpt.txnBase = some base ∧
        t = (restore base s).withCkpt { (restore base s).ckpt with stack := [], txnBase := none, dirty := false } := by
  unfold rollbackTransaction
  cases h : s.ckpt.txnBase <;> simp [@eq_comm _ _ t]

theorem createCheckpoint_ok {s t : State} {id : Word} :
    createCheckpoint s = .ok (id, t) ↔
      s.txnOpen = true ∧ s.ckptDepth ≠ s.params.maxCheckpoints ∧ id = s.ckpt.nextId ∧
        ∃ u, charge .checkpoint s.meter.cfg.checkpointUnits.toNat s = .ok u ∧
          t = u.withCkpt
            { u.ckpt with
              stack := { id := s.ckpt.nextId, snap := capture s } :: u.ckpt.stack
              nextId := s.ckpt.nextId + 1 } := by
  unfold createCheckpoint
  cases h : s.txnOpen
  · simp
  · by_cases hd : s.ckptDepth = s.params.maxCheckpoints
    · simp [hd]
    · cases hc : charge .checkpoint s.meter.cfg.checkpointUnits.toNat s with
      | error e => simp [hd]
      | ok u => simp [hd, @eq_comm _ _ t, @eq_comm _ _ id]

theorem commitCheckpoint_ok {s t : State} {id : Word} :
    commitCheckpoint id s = .ok t ↔
      ∃ top rest, s.ckpt.stack = top :: rest ∧ id = top.id ∧
        t = s.withCkpt { s.ckpt with stack := rest, dirty := true } := by
  unfold commitCheckpoint
  cases h : s.ckpt.stack with
  | nil => simp
  | cons top rest => by_cases hi : id = top.id <;> simp [hi, @eq_comm _ _ t]

theorem rollbackCheckpoint_ok {s t : State} {id : Word} :
    rollbackCheckpoint id s = .ok t ↔
      ∃ top rest, s.ckpt.stack = top :: rest ∧ id = top.id ∧
        t = restore top.snap (s.withCkpt { s.ckpt with stack := rest }) := by
  unfold rollbackCheckpoint
  cases h : s.ckpt.stack with
  | nil => simp
  | cons top rest => by_cases hi : id = top.id <;> simp [hi, @eq_comm _ _ t]

/-! ## The output sink -/

/-- Word k of a value in the output sink is bits 32k to 32k+31, for each of its words (00_scope.md R8). -/
theorem sinkWords_getElem? {n : Nat} (v : BitVec (32 * n)) (k : Nat) :
    (sinkWords n v)[k]? = if k < n then some (v.extractLsb' (32 * k) 32) else none := by
  unfold sinkWords
  split <;> simp [*]

/-- The two words of a 64-bit value (00_scope.md R8). -/
theorem sinkWord64_words (v : Word) : sinkWord64 v = [v.extractLsb' 0 32, v.extractLsb' 32 32] := rfl

end Sys2Proof.Machine
end

