-- ==== Sys2Proof/Laws/PerInstr.lean ====
section
/-! SUPPORT. One family of per-instruction lemmas, about the instruction as syntax: the shape of its encoding. -/

namespace Sys2Proof.Laws

/-- The encoded form of an instruction: an 8-byte slot whose two register fields are exactly the ones its well-formedness
checks, or the wide form of lddw (30_encoding.md R81, R85, R89). -/
def EncodedForm.Statement (i : Instr) : Prop :=
  ∀ p : Params,
    (i.length = 8 ∧ ∃ opc dst src off imm,
      encode p i = encodeSlot opc dst src off imm ∧ i.wellFormed = (regIdOk dst && regIdOk src)) ∨
    (i.length = 16 ∧ ∃ dst imm64, encode p i = encodeWide wideOpcode dst imm64 ∧ i.wellFormed = regIdOk dst)

theorem EncodedForm.add64Imm (dst : RegId) (imm : BitVec 32) : EncodedForm.Statement (.add64Imm dst imm) :=
  fun _ => .inl ⟨rfl, _, _, _, _, _, rfl, rfl⟩

theorem EncodedForm.add64Reg (dst src : RegId) : EncodedForm.Statement (.add64Reg dst src) :=
  fun _ => .inl ⟨rfl, _, _, _, _, _, rfl, rfl⟩

theorem EncodedForm.sub64Imm (dst : RegId) (imm : BitVec 32) : EncodedForm.Statement (.sub64Imm dst imm) :=
  fun _ => .inl ⟨rfl, _, _, _, _, _, rfl, rfl⟩

theorem EncodedForm.sub64Reg (dst src : RegId) : EncodedForm.Statement (.sub64Reg dst src) :=
  fun _ => .inl ⟨rfl, _, _, _, _, _, rfl, rfl⟩

theorem EncodedForm.mul64Imm (dst : RegId) (imm : BitVec 32) : EncodedForm.Statement (.mul64Imm dst imm) :=
  fun _ => .inl ⟨rfl, _, _, _, _, _, rfl, rfl⟩

theorem EncodedForm.mul64Reg (dst src : RegId) : EncodedForm.Statement (.mul64Reg dst src) :=
  fun _ => .inl ⟨rfl, _, _, _, _, _, rfl, rfl⟩

theorem EncodedForm.div64Imm (dst : RegId) (imm : BitVec 32) : EncodedForm.Statement (.div64Imm dst imm) :=
  fun _ => .inl ⟨rfl, _, _, _, _, _, rfl, rfl⟩

theorem EncodedForm.div64Reg (dst src : RegId) : EncodedForm.Statement (.div64Reg dst src) :=
  fun _ => .inl ⟨rfl, _, _, _, _, _, rfl, rfl⟩

theorem EncodedForm.or64Imm (dst : RegId) (imm : BitVec 32) : EncodedForm.Statement (.or64Imm dst imm) :=
  fun _ => .inl ⟨rfl, _, _, _, _, _, rfl, rfl⟩

theorem EncodedForm.or64Reg (dst src : RegId) : EncodedForm.Statement (.or64Reg dst src) :=
  fun _ => .inl ⟨rfl, _, _, _, _, _, rfl, rfl⟩

theorem EncodedForm.and64Imm (dst : RegId) (imm : BitVec 32) : EncodedForm.Statement (.and64Imm dst imm) :=
  fun _ => .inl ⟨rfl, _, _, _, _, _, rfl, rfl⟩

theorem EncodedForm.and64Reg (dst src : RegId) : EncodedForm.Statement (.and64Reg dst src) :=
  fun _ => .inl ⟨rfl, _, _, _, _, _, rfl, rfl⟩

theorem EncodedForm.lsh64Imm (dst : RegId) (imm : BitVec 32) : EncodedForm.Statement (.lsh64Imm dst imm) :=
  fun _ => .inl ⟨rfl, _, _, _, _, _, rfl, rfl⟩

theorem EncodedForm.lsh64Reg (dst src : RegId) : EncodedForm.Statement (.lsh64Reg dst src) :=
  fun _ => .inl ⟨rfl, _, _, _, _, _, rfl, rfl⟩

theorem EncodedForm.rsh64Imm (dst : RegId) (imm : BitVec 32) : EncodedForm.Statement (.rsh64Imm dst imm) :=
  fun _ => .inl ⟨rfl, _, _, _, _, _, rfl, rfl⟩

theorem EncodedForm.rsh64Reg (dst src : RegId) : EncodedForm.Statement (.rsh64Reg dst src) :=
  fun _ => .inl ⟨rfl, _, _, _, _, _, rfl, rfl⟩

theorem EncodedForm.neg64 (dst : RegId) : EncodedForm.Statement (.neg64 dst) :=
  fun _ => .inl ⟨rfl, _, _, _, _, _, rfl, rfl⟩

theorem EncodedForm.mod64Imm (dst : RegId) (imm : BitVec 32) : EncodedForm.Statement (.mod64Imm dst imm) :=
  fun _ => .inl ⟨rfl, _, _, _, _, _, rfl, rfl⟩

theorem EncodedForm.mod64Reg (dst src : RegId) : EncodedForm.Statement (.mod64Reg dst src) :=
  fun _ => .inl ⟨rfl, _, _, _, _, _, rfl, rfl⟩

theorem EncodedForm.xor64Imm (dst : RegId) (imm : BitVec 32) : EncodedForm.Statement (.xor64Imm dst imm) :=
  fun _ => .inl ⟨rfl, _, _, _, _, _, rfl, rfl⟩

theorem EncodedForm.xor64Reg (dst src : RegId) : EncodedForm.Statement (.xor64Reg dst src) :=
  fun _ => .inl ⟨rfl, _, _, _, _, _, rfl, rfl⟩

theorem EncodedForm.mov64Imm (dst : RegId) (imm : BitVec 32) : EncodedForm.Statement (.mov64Imm dst imm) :=
  fun _ => .inl ⟨rfl, _, _, _, _, _, rfl, rfl⟩

theorem EncodedForm.mov64Reg (dst src : RegId) : EncodedForm.Statement (.mov64Reg dst src) :=
  fun _ => .inl ⟨rfl, _, _, _, _, _, rfl, rfl⟩

theorem EncodedForm.arsh64Imm (dst : RegId) (imm : BitVec 32) : EncodedForm.Statement (.arsh64Imm dst imm) :=
  fun _ => .inl ⟨rfl, _, _, _, _, _, rfl, rfl⟩

theorem EncodedForm.arsh64Reg (dst src : RegId) : EncodedForm.Statement (.arsh64Reg dst src) :=
  fun _ => .inl ⟨rfl, _, _, _, _, _, rfl, rfl⟩

theorem EncodedForm.lddw (dst : RegId) (imm64 : BitVec 64) : EncodedForm.Statement (.lddw dst imm64) :=
  fun _ => .inr ⟨rfl, _, _, rfl, Bool.and_true _⟩

theorem EncodedForm.ldabsb (dst : RegId) (imm : BitVec 32) : EncodedForm.Statement (.ldabsb dst imm) :=
  fun _ => .inl ⟨rfl, _, _, _, _, _, rfl, rfl⟩

theorem EncodedForm.ldabsh (dst : RegId) (imm : BitVec 32) : EncodedForm.Statement (.ldabsh dst imm) :=
  fun _ => .inl ⟨rfl, _, _, _, _, _, rfl, rfl⟩

theorem EncodedForm.ldabsw (dst : RegId) (imm : BitVec 32) : EncodedForm.Statement (.ldabsw dst imm) :=
  fun _ => .inl ⟨rfl, _, _, _, _, _, rfl, rfl⟩

theorem EncodedForm.ldabsdw (dst : RegId) (imm : BitVec 32) : EncodedForm.Statement (.ldabsdw dst imm) :=
  fun _ => .inl ⟨rfl, _, _, _, _, _, rfl, rfl⟩

theorem EncodedForm.ldxb (dst src : RegId) (off : BitVec 16) : EncodedForm.Statement (.ldxb dst src off) :=
  fun _ => .inl ⟨rfl, _, _, _, _, _, rfl, rfl⟩

theorem EncodedForm.ldxh (dst src : RegId) (off : BitVec 16) : EncodedForm.Statement (.ldxh dst src off) :=
  fun _ => .inl ⟨rfl, _, _, _, _, _, rfl, rfl⟩

theorem EncodedForm.ldxw (dst src : RegId) (off : BitVec 16) : EncodedForm.Statement (.ldxw dst src off) :=
  fun _ => .inl ⟨rfl, _, _, _, _, _, rfl, rfl⟩

theorem EncodedForm.ldxdw (dst src : RegId) (off : BitVec 16) : EncodedForm.Statement (.ldxdw dst src off) :=
  fun _ => .inl ⟨rfl, _, _, _, _, _, rfl, rfl⟩

theorem EncodedForm.stxb (dst src : RegId) (off : BitVec 16) : EncodedForm.Statement (.stxb dst src off) :=
  fun _ => .inl ⟨rfl, _, _, _, _, _, rfl, rfl⟩

theorem EncodedForm.stxh (dst src : RegId) (off : BitVec 16) : EncodedForm.Statement (.stxh dst src off) :=
  fun _ => .inl ⟨rfl, _, _, _, _, _, rfl, rfl⟩

theorem EncodedForm.stxw (dst src : RegId) (off : BitVec 16) : EncodedForm.Statement (.stxw dst src off) :=
  fun _ => .inl ⟨rfl, _, _, _, _, _, rfl, rfl⟩

theorem EncodedForm.stxdw (dst src : RegId) (off : BitVec 16) : EncodedForm.Statement (.stxdw dst src off) :=
  fun _ => .inl ⟨rfl, _, _, _, _, _, rfl, rfl⟩

theorem EncodedForm.ja (off : BitVec 16) : EncodedForm.Statement (.ja off) :=
  fun _ => .inl ⟨rfl, _, _, _, _, _, rfl, rfl⟩

theorem EncodedForm.jeqImm (dst : RegId) (imm : BitVec 32) (off : BitVec 16) : EncodedForm.Statement (.jeqImm dst imm off) :=
  fun _ => .inl ⟨rfl, _, _, _, _, _, rfl, rfl⟩

theorem EncodedForm.jeqReg (dst src : RegId) (off : BitVec 16) : EncodedForm.Statement (.jeqReg dst src off) :=
  fun _ => .inl ⟨rfl, _, _, _, _, _, rfl, rfl⟩

theorem EncodedForm.jgtImm (dst : RegId) (imm : BitVec 32) (off : BitVec 16) : EncodedForm.Statement (.jgtImm dst imm off) :=
  fun _ => .inl ⟨rfl, _, _, _, _, _, rfl, rfl⟩

theorem EncodedForm.jgtReg (dst src : RegId) (off : BitVec 16) : EncodedForm.Statement (.jgtReg dst src off) :=
  fun _ => .inl ⟨rfl, _, _, _, _, _, rfl, rfl⟩

theorem EncodedForm.jgeImm (dst : RegId) (imm : BitVec 32) (off : BitVec 16) : EncodedForm.Statement (.jgeImm dst imm off) :=
  fun _ => .inl ⟨rfl, _, _, _, _, _, rfl, rfl⟩

theorem EncodedForm.jgeReg (dst src : RegId) (off : BitVec 16) : EncodedForm.Statement (.jgeReg dst src off) :=
  fun _ => .inl ⟨rfl, _, _, _, _, _, rfl, rfl⟩

theorem EncodedForm.jltImm (dst : RegId) (imm : BitVec 32) (off : BitVec 16) : EncodedForm.Statement (.jltImm dst imm off) :=
  fun _ => .inl ⟨rfl, _, _, _, _, _, rfl, rfl⟩

theorem EncodedForm.jltReg (dst src : RegId) (off : BitVec 16) : EncodedForm.Statement (.jltReg dst src off) :=
  fun _ => .inl ⟨rfl, _, _, _, _, _, rfl, rfl⟩

theorem EncodedForm.jleImm (dst : RegId) (imm : BitVec 32) (off : BitVec 16) : EncodedForm.Statement (.jleImm dst imm off) :=
  fun _ => .inl ⟨rfl, _, _, _, _, _, rfl, rfl⟩

theorem EncodedForm.jleReg (dst src : RegId) (off : BitVec 16) : EncodedForm.Statement (.jleReg dst src off) :=
  fun _ => .inl ⟨rfl, _, _, _, _, _, rfl, rfl⟩

theorem EncodedForm.jneImm (dst : RegId) (imm : BitVec 32) (off : BitVec 16) : EncodedForm.Statement (.jneImm dst imm off) :=
  fun _ => .inl ⟨rfl, _, _, _, _, _, rfl, rfl⟩

theorem EncodedForm.jneReg (dst src : RegId) (off : BitVec 16) : EncodedForm.Statement (.jneReg dst src off) :=
  fun _ => .inl ⟨rfl, _, _, _, _, _, rfl, rfl⟩

theorem EncodedForm.jsgtImm (dst : RegId) (imm : BitVec 32) (off : BitVec 16) : EncodedForm.Statement (.jsgtImm dst imm off) :=
  fun _ => .inl ⟨rfl, _, _, _, _, _, rfl, rfl⟩

theorem EncodedForm.jsgtReg (dst src : RegId) (off : BitVec 16) : EncodedForm.Statement (.jsgtReg dst src off) :=
  fun _ => .inl ⟨rfl, _, _, _, _, _, rfl, rfl⟩

theorem EncodedForm.jsgeImm (dst : RegId) (imm : BitVec 32) (off : BitVec 16) : EncodedForm.Statement (.jsgeImm dst imm off) :=
  fun _ => .inl ⟨rfl, _, _, _, _, _, rfl, rfl⟩

theorem EncodedForm.jsgeReg (dst src : RegId) (off : BitVec 16) : EncodedForm.Statement (.jsgeReg dst src off) :=
  fun _ => .inl ⟨rfl, _, _, _, _, _, rfl, rfl⟩

theorem EncodedForm.jsltImm (dst : RegId) (imm : BitVec 32) (off : BitVec 16) : EncodedForm.Statement (.jsltImm dst imm off) :=
  fun _ => .inl ⟨rfl, _, _, _, _, _, rfl, rfl⟩

theorem EncodedForm.jsltReg (dst src : RegId) (off : BitVec 16) : EncodedForm.Statement (.jsltReg dst src off) :=
  fun _ => .inl ⟨rfl, _, _, _, _, _, rfl, rfl⟩

theorem EncodedForm.jsleImm (dst : RegId) (imm : BitVec 32) (off : BitVec 16) : EncodedForm.Statement (.jsleImm dst imm off) :=
  fun _ => .inl ⟨rfl, _, _, _, _, _, rfl, rfl⟩

theorem EncodedForm.jsleReg (dst src : RegId) (off : BitVec 16) : EncodedForm.Statement (.jsleReg dst src off) :=
  fun _ => .inl ⟨rfl, _, _, _, _, _, rfl, rfl⟩

theorem EncodedForm.call (imm : BitVec 32) : EncodedForm.Statement (.call imm) :=
  fun _ => .inl ⟨rfl, _, _, _, _, _, rfl, rfl⟩

theorem EncodedForm.exit : EncodedForm.Statement (.exit) :=
  fun _ => .inl ⟨rfl, _, _, _, _, _, rfl, rfl⟩

theorem EncodedForm.invoke : EncodedForm.Statement (.invoke) :=
  fun _ => .inl ⟨rfl, _, _, _, _, _, rfl, rfl⟩

theorem EncodedForm.log : EncodedForm.Statement (.log) :=
  fun _ => .inl ⟨rfl, _, _, _, _, _, rfl, rfl⟩

theorem EncodedForm.cpiReturn : EncodedForm.Statement (.cpiReturn) :=
  fun _ => .inl ⟨rfl, _, _, _, _, _, rfl, rfl⟩

end Sys2Proof.Laws
end

