-- ==== Sys2Proof/Tests/Slice0.lean ====
section
/-! SUPPORT. Tests of the model and the witnesses of the statements' hypotheses. The expected results come from the spec:
95_test_vectors.md where a test names a vector, else the encodings of 30_encoding.md and the rules a test names. -/

namespace Sys2Proof.Tests

open Sys2Proof.Machine

/-! ## WellFormed: each check refuses an ill-formed term (30_encoding.md R89) -/

/-- A destination above 10 is refused in every instruction that has one. -/
theorem test_destination_check_refuses :
    ([
      .add64Imm 11 0, .add64Reg 11 0, .sub64Imm 11 0, .sub64Reg 11 0, .mul64Imm 11 0, .mul64Reg 11 0,
      .div64Imm 11 0, .div64Reg 11 0, .or64Imm 11 0, .or64Reg 11 0, .and64Imm 11 0, .and64Reg 11 0,
      .lsh64Imm 11 0, .lsh64Reg 11 0, .rsh64Imm 11 0, .rsh64Reg 11 0, .neg64 11, .mod64Imm 11 0,
      .mod64Reg 11 0, .xor64Imm 11 0, .xor64Reg 11 0, .mov64Imm 11 0, .mov64Reg 11 0, .arsh64Imm 11 0,
      .arsh64Reg 11 0, .lddw 11 0, .ldabsb 11 0, .ldabsh 11 0, .ldabsw 11 0, .ldabsdw 11 0, .ldxb 11 0 0,
      .ldxh 11 0 0, .ldxw 11 0 0, .ldxdw 11 0 0, .stxb 11 0 0, .stxh 11 0 0, .stxw 11 0 0, .stxdw 11 0 0,
      .jeqImm 11 0 0, .jeqReg 11 0 0, .jgtImm 11 0 0, .jgtReg 11 0 0, .jgeImm 11 0 0, .jgeReg 11 0 0,
      .jltImm 11 0 0, .jltReg 11 0 0, .jleImm 11 0 0, .jleReg 11 0 0, .jneImm 11 0 0, .jneReg 11 0 0,
      .jsgtImm 11 0 0, .jsgtReg 11 0 0, .jsgeImm 11 0 0, .jsgeReg 11 0 0, .jsltImm 11 0 0, .jsltReg 11 0 0,
      .jsleImm 11 0 0, .jsleReg 11 0 0
    ] : List Instr).map Instr.wellFormed = List.replicate 58 false := by decide

/-- A source above 10 is refused in every instruction that has one. -/
theorem test_source_check_refuses :
    ([
      .add64Reg 0 15, .sub64Reg 0 15, .mul64Reg 0 15, .div64Reg 0 15, .or64Reg 0 15, .and64Reg 0 15,
      .lsh64Reg 0 15, .rsh64Reg 0 15, .mod64Reg 0 15, .xor64Reg 0 15, .mov64Reg 0 15, .arsh64Reg 0 15,
      .ldxb 0 15 0, .ldxh 0 15 0, .ldxw 0 15 0, .ldxdw 0 15 0, .stxb 0 15 0, .stxh 0 15 0, .stxw 0 15 0,
      .stxdw 0 15 0, .jeqReg 0 15 0, .jgtReg 0 15 0, .jgeReg 0 15 0, .jltReg 0 15 0, .jleReg 0 15 0,
      .jneReg 0 15 0, .jsgtReg 0 15 0, .jsgeReg 0 15 0, .jsltReg 0 15 0, .jsleReg 0 15 0
    ] : List Instr).map Instr.wellFormed = List.replicate 30 false := by decide

/-- Register 10 is the last that is accepted (10_state.md R20). -/
theorem test_register_ten_is_accepted :
    (Instr.add64Reg 10 10).wellFormed = true ∧ (Instr.add64Reg 11 10).wellFormed = false ∧
      (Instr.stxw 10 11 0).wellFormed = false := by decide

/-! ## Decoding: one written-out word for every instruction (30_encoding.md R81 to R93)

Byte 0 is the opcode, byte 1 the registers (source high), bytes 2 and 3 the offset, bytes 4 to 7 the immediate, each
lowest byte first; a field its format does not use holds a value the decoder must ignore (R95). -/

/-- The ALU rows 0x07 to 0x7f. -/
theorem test_decode_alu_first_half :
    [
      (64, 0x8000000180009307),
      (64, 0x7ffffffffffe560f),
      (64, 0x7fffffff00031917),
      (64, 0xfffffffe7fff811f),
      (64, 0xfffffffe80004427),
      (64, 0x12345678fffe072f),
      (64, 0x1234567800037a37),
      (64, 0x800000017fff323f),
      (64, 0x800000018000a547),
      (64, 0x7ffffffffffe684f),
      (64, 0x7fffffff00032057),
      (64, 0xfffffffe7fff935f),
      (64, 0xfffffffe80005667),
      (64, 0x12345678fffe196f),
      (64, 0x1234567800038177),
      (64, 0x800000017fff447f)
    ].map (fun w => decodeTableWord w.1 w.2) =
    [
      some (.add64Imm 3 0x80000001),
      some (.add64Reg 6 5),
      some (.sub64Imm 9 0x7fffffff),
      some (.sub64Reg 1 8),
      some (.mul64Imm 4 0xfffffffe),
      some (.mul64Reg 7 0),
      some (.div64Imm 10 0x12345678),
      some (.div64Reg 2 3),
      some (.or64Imm 5 0x80000001),
      some (.or64Reg 8 6),
      some (.and64Imm 0 0x7fffffff),
      some (.and64Reg 3 9),
      some (.lsh64Imm 6 0xfffffffe),
      some (.lsh64Reg 9 1),
      some (.rsh64Imm 1 0x12345678),
      some (.rsh64Reg 4 4)
    ] := by decide

/-- The ALU rows 0x87 to 0xcf. -/
theorem test_decode_alu_second_half :
    [
      (64, 0x8000000180000787),
      (64, 0x7ffffffffffe7a97),
      (64, 0x7fffffff0003329f),
      (64, 0xfffffffe7fffa5a7),
      (64, 0xfffffffe800068af),
      (64, 0x12345678fffe20b7),
      (64, 0x12345678000393bf),
      (64, 0x800000017fff56c7),
      (64, 0x80000001800019cf)
    ].map (fun w => decodeTableWord w.1 w.2) =
    [
      some (.neg64 7),
      some (.mod64Imm 10 0x7fffffff),
      some (.mod64Reg 2 3),
      some (.xor64Imm 5 0xfffffffe),
      some (.xor64Reg 8 6),
      some (.mov64Imm 0 0x12345678),
      some (.mov64Reg 3 9),
      some (.arsh64Imm 6 0x80000001),
      some (.arsh64Reg 9 1)
    ] := by decide

/-- The wide load, the loads and the stores. -/
theorem test_decode_loads_and_stores :
    [
      (128, 0x8877665544332211fffffffffffe8118),
      (64, 0x7fffffff00034430),
      (64, 0xfffffffe7fff0728),
      (64, 0xfffffffe80007a20),
      (64, 0x12345678fffe3238),
      (64, 0x123456780003a571),
      (64, 0x800000017fff6869),
      (64, 0x8000000180002061),
      (64, 0x7ffffffffffe9379),
      (64, 0x7fffffff00035673),
      (64, 0xfffffffe7fff196b),
      (64, 0xfffffffe80008163),
      (64, 0x12345678fffe447b)
    ].map (fun w => decodeTableWord w.1 w.2) =
    [
      some (.lddw 1 0x8877665544332211),
      some (.ldabsb 4 0x7fffffff),
      some (.ldabsh 7 0xfffffffe),
      some (.ldabsw 10 0xfffffffe),
      some (.ldabsdw 2 0x12345678),
      some (.ldxb 5 10 0x3),
      some (.ldxh 8 6 0x7fff),
      some (.ldxw 0 2 0x8000),
      some (.ldxdw 3 9 0xfffe),
      some (.stxb 6 5 0x3),
      some (.stxh 9 1 0x7fff),
      some (.stxw 1 8 0x8000),
      some (.stxdw 4 4 0xfffe)
    ] := by decide

/-- The unconditional, equality and unsigned jumps. -/
theorem test_decode_jumps_unsigned :
    [
      (64, 0x1234567800030705),
      (64, 0x800000017fff7a15),
      (64, 0x800000018000321d),
      (64, 0x7ffffffffffea525),
      (64, 0x7fffffff0003682d),
      (64, 0xfffffffe7fff2035),
      (64, 0xfffffffe8000933d),
      (64, 0x12345678fffe56a5),
      (64, 0x12345678000319ad),
      (64, 0x800000017fff81b5),
      (64, 0x80000001800044bd),
      (64, 0x7ffffffffffe0755),
      (64, 0x7fffffff00037a5d)
    ].map (fun w => decodeTableWord w.1 w.2) =
    [
      some (.ja 0x3),
      some (.jeqImm 10 0x80000001 0x7fff),
      some (.jeqReg 2 3 0x8000),
      some (.jgtImm 5 0x7fffffff 0xfffe),
      some (.jgtReg 8 6 0x3),
      some (.jgeImm 0 0xfffffffe 0x7fff),
      some (.jgeReg 3 9 0x8000),
      some (.jltImm 6 0x12345678 0xfffe),
      some (.jltReg 9 1 0x3),
      some (.jleImm 1 0x80000001 0x7fff),
      some (.jleReg 4 4 0x8000),
      some (.jneImm 7 0x7fffffff 0xfffe),
      some (.jneReg 10 7 0x3)
    ] := by decide

/-- The signed jumps. -/
theorem test_decode_jumps_signed :
    [
      (64, 0xfffffffe7fff3265),
      (64, 0xfffffffe8000a56d),
      (64, 0x12345678fffe6875),
      (64, 0x123456780003207d),
      (64, 0x800000017fff93c5),
      (64, 0x80000001800056cd),
      (64, 0x7ffffffffffe19d5),
      (64, 0x7fffffff000381dd)
    ].map (fun w => decodeTableWord w.1 w.2) =
    [
      some (.jsgtImm 2 0xfffffffe 0x7fff),
      some (.jsgtReg 5 10 0x8000),
      some (.jsgeImm 8 0x12345678 0xfffe),
      some (.jsgeReg 0 2 0x3),
      some (.jsltImm 3 0x80000001 0x7fff),
      some (.jsltReg 6 5 0x8000),
      some (.jsleImm 9 0x7fffffff 0xfffe),
      some (.jsleReg 1 8 0x3)
    ] := by decide

/-- Call, exit and the extensions. -/
theorem test_decode_call_exit_extensions :
    [
      (64, 0xfffffffe7fff4485),
      (64, 0xfffffffe80000795),
      (64, 0x12345678fffe7ae0),
      (64, 0x12345678000332e1),
      (64, 0x800000017fffa5e2)
    ].map (fun w => decodeTableWord w.1 w.2) =
    [
      some (.call 0xfffffffe),
      some .exit,
      some .invoke,
      some .log,
      some .cpiReturn
    ] := by decide

/-- A stream's opcode bytes outside the map, its bad nibbles and its truncation are refused (vectors E1, E3, E5, E6,
E10, E12, E13, E14). -/
theorem test_decode_refusals :
    (decodeOne Params.reference [0xb7, 0x0b, 0, 0, 0, 0, 0, 0] = .error .invalidRegister) ∧
    (decodeOne Params.reference [0x8f, 0x01, 0, 0, 0, 0, 0, 0] = .error .invalidOpcode) ∧
    (decodeOne Params.reference [0xb7, 0, 0, 0, 0x2a, 0, 0] = .error .truncatedInstruction) ∧
    (decodeOne Params.reference [0x18, 1, 0, 0, 0, 0, 0, 0, 1, 0, 0, 0] = .error .truncatedInstruction) ∧
    (decodeOne Params.reference [0x95, 0xab, 0, 0, 0, 0, 0, 0] = .error .invalidRegister) ∧
    (decodeOne Params.reference [0x62, 1, 0, 0, 5, 0, 0, 0] = .error .invalidOpcode) ∧
    (decodeOne Params.reference [0x45, 1, 2, 0, 1, 0, 0, 0] = .error .invalidOpcode) ∧
    (decodeOne Params.reference [0x04, 1, 0, 0, 1, 0, 0, 0] = .error .invalidOpcode) := by decide

/-- Vector E4: the register check comes before the opcode check. -/
theorem test_register_check_before_opcode :
    decodeOne Params.reference [0xff, 0xbb, 0, 0, 0, 0, 0, 0] = .error .invalidRegister := by decide

/-- Vectors E2 and E7: the second instruction's failure has index 1 and byte offset 8. -/
theorem test_program_decode_failures :
    decodeProgram Params.reference [0xb7, 0, 0, 0, 0x2a, 0, 0, 0, 0x95, 0xc0, 0, 0, 0, 0, 0, 0] =
        .error ⟨.invalidRegister, 8, 1⟩ ∧
      decodeProgram Params.reference [0x95, 0, 0, 0, 0, 0, 0, 0, 0x18, 1, 0, 0, 0, 0, 0, 0] =
        .error ⟨.truncatedInstruction, 8, 1⟩ := by decide

/-- Vector E11: the wide form's bytes 4 to 7 are ignored, and it is one instruction. -/
theorem test_program_decode_wide :
    (decodeProgram Params.reference
        [0x18, 1, 0, 0, 0xff, 0xff, 0xff, 0xff, 1, 0, 0, 0, 0, 0, 0, 0, 0x95, 0, 0, 0, 0, 0, 0, 0]).toOption.map
      (fun ds => ds.map fun d => d.instr? Params.reference) = some [some (.lddw 1 1), some .exit] := by decide

/-! ## One instruction each -/

/-- A Running machine at pc 4 with given x[1], x[2] and memory. -/
def machine (x1 x2 : Word) (mem : Memory) : State :=
  { State.reset with regs := #v[0, x1, x2, 0, 0, 0, 0, 0, 0, 0, 0], pc := 4, mem := mem, engState := .running }

/-- The bytes 1 to 8 at the last eight addresses (vector M1). -/
def lastEight : Memory :=
  [(65528, 1), (65529, 2), (65530, 3), (65531, 4), (65532, 5), (65533, 6), (65534, 7), (65535, 8)]

/-- A register and the pc after an instruction. -/
def regAndPc (r : RegId) : Host.Outcome State Fault Refusal → Option (Word × Word)
  | .next s => some (s.x r, s.pc)
  | .fault _ => none
  | .refused _ => none

/-- The memory after an instruction. -/
def memory : Host.Outcome State Fault Refusal → Option Memory
  | .next s => some s.mem
  | .fault _ => none
  | .refused _ => none

/-- The halt latches after an instruction: engine state, FAIL_CODE, FAIL_PC, FAIL_ADDR, FAIL_WIDTH. -/
def halt : Host.Outcome State Fault Refusal → Option (EngState × BitVec 8 × Word × Word × BitVec 4)
  | .next s => some (s.engState, s.latches.failCode, s.latches.failPc, s.latches.failAddr, s.latches.failWidth)
  | .fault _ => none
  | .refused _ => none

/-- Vector A1. -/
theorem test_add64_imm_wraps :
    regAndPc 1 (exec (.add64Imm 1 1) (machine 0xffffffffffffffff 0 [])) = some (0, 5) := by decide

/-- R172, source and destination distinct. -/
theorem test_add64_reg : regAndPc 1 (exec (.add64Reg 1 2) (machine 5 9 [])) = some (14, 5) := by decide

/-- Vector A2. -/
theorem test_sub64_imm_borrows :
    regAndPc 1 (exec (.sub64Imm 1 1) (machine 0 0 [])) = some (0xffffffffffffffff, 5) := by decide

/-- R174: the destination minus the source. -/
theorem test_sub64_reg : regAndPc 1 (exec (.sub64Reg 1 2) (machine 9 5 [])) = some (4, 5) := by decide

/-- Vector A4. -/
theorem test_mul64_imm :
    regAndPc 1 (exec (.mul64Imm 1 0xffffffff) (machine 5 0 [])) = some (0xfffffffffffffffb, 5) := by decide

/-- Vector A3. -/
theorem test_mul64_reg_wraps :
    regAndPc 1 (exec (.mul64Reg 1 2) (machine 0x100000000 0x100000000 [])) = some (0, 5) := by decide

/-- Vector A6. -/
theorem test_div64_imm_unsigned :
    regAndPc 1 (exec (.div64Imm 1 2) (machine 0xfffffffffffffff9 0 [])) = some (0x7ffffffffffffffc, 5) := by decide

/-- Vector A8: code 7, FAIL_PC the instruction. -/
theorem test_div64_imm_by_zero :
    halt (exec (.div64Imm 1 0) (machine 5 0 [])) = some (.haltedFailure, 7, 4, 0, 0) := by decide

/-- R178: the destination divided by the source. -/
theorem test_div64_reg : regAndPc 1 (exec (.div64Reg 1 2) (machine 20 6 [])) = some (3, 5) := by decide

/-- Vector A9. -/
theorem test_mod64_imm : regAndPc 1 (exec (.mod64Imm 1 0xffffffff) (machine 7 0 [])) = some (7, 5) := by decide

/-- Vector A10. -/
theorem test_mod64_reg : regAndPc 1 (exec (.mod64Reg 1 2) (machine 0xfffffffffffffff9 2 [])) = some (1, 5) := by decide

/-- Vector A12. -/
theorem test_mod64_reg_by_zero :
    halt (exec (.mod64Reg 1 1) (machine 0 0 [])) = some (.haltedFailure, 7, 4, 0, 0) := by decide

/-- Vector A13. -/
theorem test_or64_imm : regAndPc 1 (exec (.or64Imm 1 0xf) (machine 0xf0 0 [])) = some (0xff, 5) := by decide

/-- R182. -/
theorem test_or64_reg : regAndPc 1 (exec (.or64Reg 1 2) (machine 0xf0 0x3c [])) = some (0xfc, 5) := by decide

/-- Vector A15. -/
theorem test_and64_imm_sign_extends :
    regAndPc 1 (exec (.and64Imm 1 0xffffff00) (machine 0x123456789abcdef0 0 [])) =
      some (0x123456789abcde00, 5) := by decide

/-- R184. -/
theorem test_and64_reg : regAndPc 1 (exec (.and64Reg 1 2) (machine 0xf0 0x3c [])) = some (0x30, 5) := by decide

/-- R185 on a negative immediate. -/
theorem test_xor64_imm_sign_extends :
    regAndPc 1 (exec (.xor64Imm 1 0xffffffff) (machine 0xf0 0 [])) = some (0xffffffffffffff0f, 5) := by decide

/-- Vector A16. -/
theorem test_xor64_reg_same : regAndPc 1 (exec (.xor64Reg 1 1) (machine 0x1234 0 [])) = some (0, 5) := by decide

/-- Vector A17. -/
theorem test_lsh64_imm_amount_mod_64 : regAndPc 1 (exec (.lsh64Imm 1 64) (machine 1 0 [])) = some (1, 5) := by decide

/-- Vector A18. -/
theorem test_lsh64_reg : regAndPc 1 (exec (.lsh64Reg 1 2) (machine 1 65 [])) = some (2, 5) := by decide

/-- Vector A19. -/
theorem test_rsh64_imm : regAndPc 1 (exec (.rsh64Imm 1 63) (machine 0x8000000000000000 0 [])) = some (1, 5) := by decide

/-- R190. -/
theorem test_rsh64_reg :
    regAndPc 1 (exec (.rsh64Reg 1 2) (machine 0x8000000000000000 68 [])) = some (0x0800000000000000, 5) := by decide

/-- Vector A20. -/
theorem test_arsh64_imm :
    regAndPc 1 (exec (.arsh64Imm 1 63) (machine 0x8000000000000000 0 [])) = some (0xffffffffffffffff, 5) := by decide

/-- Vector A21. -/
theorem test_arsh64_reg :
    regAndPc 1 (exec (.arsh64Reg 1 2) (machine 0x7fffffffffffffff 0xffffffffffffffff [])) = some (0, 5) := by decide

/-- Vector A22. -/
theorem test_neg64 : regAndPc 1 (exec (.neg64 1) (machine 1 0 [])) = some (0xffffffffffffffff, 5) := by decide

/-- Vector A23. -/
theorem test_neg64_most_negative :
    regAndPc 1 (exec (.neg64 1) (machine 0x8000000000000000 0 [])) = some (0x8000000000000000, 5) := by decide

/-- Vector A25. -/
theorem test_mov64_imm :
    regAndPc 1 (exec (.mov64Imm 1 0xffffffff) (machine 0 0 [])) = some (0xffffffffffffffff, 5) := by decide

/-- Vector A27. -/
theorem test_mov64_imm_r10 : regAndPc 10 (exec (.mov64Imm 10 256) (machine 0 0 [])) = some (256, 5) := by decide

/-- Vector A26. -/
theorem test_mov64_reg : regAndPc 1 (exec (.mov64Reg 1 2) (machine 0 9 [])) = some (9, 5) := by decide

/-- Vector M14. -/
theorem test_lddw :
    regAndPc 3 (exec (.lddw 3 0xffffffffffffffff) (machine 0 0 [])) = some (0xffffffffffffffff, 5) := by decide

/-- Vector M5: the last byte. -/
theorem test_ldabsb : regAndPc 0 (exec (.ldabsb 0 65535) (machine 0 0 [(65535, 0x5a)])) = some (0x5a, 5) := by decide

/-- Vector M6. -/
theorem test_ldabsb_at_capacity :
    halt (exec (.ldabsb 0 65536) (machine 0 0 [])) = some (.haltedFailure, 2, 4, 65536, 1) := by decide

/-- R223 over the bytes of M7. -/
theorem test_ldabsh :
    regAndPc 0 (exec (.ldabsh 0 101) (machine 0 0 [(100, 0xef), (101, 0xbe), (102, 0xad), (103, 0xde)])) =
      some (0xadbe, 5) := by decide

/-- Scenario S4: zero-extended. -/
theorem test_ldabsw :
    regAndPc 0 (exec (.ldabsw 0 100) (machine 0 0 [(100, 0xef), (101, 0xbe), (102, 0xad), (103, 0xde)])) =
      some (0xdeadbeef, 5) := by decide

/-- Vector M4. -/
theorem test_ldabsw_negative_address :
    halt (exec (.ldabsw 0 0xffffffff) (machine 0 0 [])) =
      some (.haltedFailure, 2, 4, 0xffffffffffffffff, 4) := by decide

/-- R225 over the bytes of M1. -/
theorem test_ldabsdw :
    regAndPc 0 (exec (.ldabsdw 0 65528) (machine 0 0 lastEight)) = some (0x0807060504030201, 5) := by decide

/-- Vector M9. -/
theorem test_ldxb :
    regAndPc 0 (exec (.ldxb 0 2 3) (machine 0 100 [(100, 0xef), (101, 0xbe), (102, 0xad), (103, 0xde)])) =
      some (0xde, 5) := by decide

/-- Vector M3. -/
theorem test_ldxb_address_wraps :
    halt (exec (.ldxb 0 1 0xffff) (machine 0 0 [])) = some (.haltedFailure, 2, 4, 0xffffffffffffffff, 1) := by decide

/-- Vector M8. -/
theorem test_ldxh :
    regAndPc 0 (exec (.ldxh 0 2 1) (machine 0 100 [(100, 0xef), (101, 0xbe), (102, 0xad), (103, 0xde)])) =
      some (0xadbe, 5) := by decide

/-- R228 with a negative displacement. -/
theorem test_ldxw :
    regAndPc 0 (exec (.ldxw 0 2 0xfffc) (machine 0 104 [(100, 0xef), (101, 0xbe), (102, 0xad), (103, 0xde)])) =
      some (0xdeadbeef, 5) := by decide

/-- Vector M1. -/
theorem test_ldxdw_last :
    regAndPc 0 (exec (.ldxdw 0 1 0) (machine 65528 0 lastEight)) = some (0x0807060504030201, 5) := by decide

/-- Vector M2. -/
theorem test_ldxdw_past_the_end :
    halt (exec (.ldxdw 0 1 0) (machine 65529 0 [])) = some (.haltedFailure, 2, 4, 65529, 8) := by decide

/-- Vector M10. -/
theorem test_stxb : memory (exec (.stxb 2 1 0) (machine 0x1234 200 [])) = some [(200, 0x34)] := by decide

/-- Vector M13. -/
theorem test_stxb_address_out_of_bounds :
    halt (exec (.stxb 1 1 0) (machine 0xffffffffffffffff 0 [])) =
      some (.haltedFailure, 2, 4, 0xffffffffffffffff, 1) := by decide

/-- R231 with a negative displacement. -/
theorem test_stxh :
    memory (exec (.stxh 2 1 0xffff) (machine 0x1234 200 [])) = some [(199, 0x34), (200, 0x12)] := by decide

/-- Vector M7. -/
theorem test_stxw :
    memory (exec (.stxw 2 1 0) (machine 0xdeadbeef 100 [])) =
      some [(100, 0xef), (101, 0xbe), (102, 0xad), (103, 0xde)] := by decide

/-- R233: a zero byte leaves no cell. -/
theorem test_stxdw :
    memory (exec (.stxdw 2 1 0) (machine 0x0100000000000002 8 [(8, 1), (9, 1)])) = some [(8, 2), (15, 1)] := by decide

/-- Vector M12. -/
theorem test_stxdw_writes_nothing_out_of_bounds :
    memory (exec (.stxdw 2 1 0) (machine 0x1122334455667788 65530 [])) = some [] := by decide

/-- Vector B1. -/
theorem test_ja_backwards : regAndPc 0 (exec (.ja 0xfffe) (machine 0 0 [])) = some (0, 2) := by decide

/-- Vector B2: not taken. -/
theorem test_jeq_imm_extends :
    regAndPc 1 (exec (.jeqImm 1 0xffffffff 3) (machine 0x00000000ffffffff 0 [])) =
      some (0x00000000ffffffff, 5) := by decide

/-- R253. -/
theorem test_jeq_reg_taken : regAndPc 1 (exec (.jeqReg 1 2 3) (machine 7 7 [])) = some (7, 7) := by decide

/-- R262. -/
theorem test_jne_imm_taken : regAndPc 1 (exec (.jneImm 1 0 0xfffe) (machine 1 0 [])) = some (1, 2) := by decide

/-- Vector B8: not taken. -/
theorem test_jne_reg_same : regAndPc 1 (exec (.jneReg 1 1 5) (machine 3 0 [])) = some (3, 5) := by decide

/-- Vector B3: taken. -/
theorem test_jgt_imm_unsigned :
    regAndPc 1 (exec (.jgtImm 1 1 2) (machine 0xffffffffffffffff 0 [])) = some (0xffffffffffffffff, 6) := by decide

/-- R255: not taken on equality. -/
theorem test_jgt_reg_equal : regAndPc 1 (exec (.jgtReg 1 2 2) (machine 3 3 [])) = some (3, 5) := by decide

/-- R256: taken on equality. -/
theorem test_jge_imm_equal : regAndPc 1 (exec (.jgeImm 1 3 2) (machine 3 0 [])) = some (3, 6) := by decide

/-- Vector B7: taken. -/
theorem test_jge_reg_same : regAndPc 1 (exec (.jgeReg 1 1 5) (machine 3 0 [])) = some (3, 9) := by decide

/-- R258 against a negative immediate: taken. -/
theorem test_jlt_imm_unsigned : regAndPc 1 (exec (.jltImm 1 0xffffffff 2) (machine 3 0 [])) = some (3, 6) := by decide

/-- Vector B6: not taken. -/
theorem test_jlt_reg_unsigned :
    regAndPc 1 (exec (.jltReg 1 2 2) (machine 0x8000000000000000 0 [])) = some (0x8000000000000000, 5) := by decide

/-- R260: taken on equality. -/
theorem test_jle_imm_equal : regAndPc 1 (exec (.jleImm 1 3 2) (machine 3 0 [])) = some (3, 6) := by decide

/-- R261: not taken. -/
theorem test_jle_reg_greater :
    regAndPc 1 (exec (.jleReg 1 2 2) (machine 0xffffffffffffffff 3 [])) = some (0xffffffffffffffff, 5) := by decide

/-- Vector B4: not taken. -/
theorem test_jsgt_imm_signed :
    regAndPc 1 (exec (.jsgtImm 1 1 2) (machine 0xffffffffffffffff 0 [])) = some (0xffffffffffffffff, 5) := by decide

/-- R265: taken. -/
theorem test_jsgt_reg_signed :
    regAndPc 1 (exec (.jsgtReg 1 2 2) (machine 1 0xffffffffffffffff [])) = some (1, 6) := by decide

/-- R266: taken on equality with -1. -/
theorem test_jsge_imm_signed :
    regAndPc 1 (exec (.jsgeImm 1 0xffffffff 2) (machine 0xffffffffffffffff 0 [])) =
      some (0xffffffffffffffff, 6) := by decide

/-- R267: not taken. -/
theorem test_jsge_reg_signed :
    regAndPc 1 (exec (.jsgeReg 1 2 2) (machine 0xffffffffffffffff 0 [])) = some (0xffffffffffffffff, 5) := by decide

/-- Vector B5: taken. -/
theorem test_jslt_imm_signed :
    regAndPc 1 (exec (.jsltImm 1 0 2) (machine 0x8000000000000000 0 [])) = some (0x8000000000000000, 6) := by decide

/-- R269: not taken. -/
theorem test_jslt_reg_signed :
    regAndPc 1 (exec (.jsltReg 1 2 2) (machine 0 0xffffffffffffffff [])) = some (0, 5) := by decide

/-- R270: taken on equality. -/
theorem test_jsle_imm_signed : regAndPc 1 (exec (.jsleImm 1 0 2) (machine 0 0 [])) = some (0, 6) := by decide

/-- R271: not taken. -/
theorem test_jsle_reg_signed :
    regAndPc 1 (exec (.jsleReg 1 2 2) (machine 1 0xffffffffffffffff [])) = some (1, 5) := by decide

/-- R290 with displacement -3. -/
theorem test_call_backwards : regAndPc 0 (exec (.call 0xfffffffd) (machine 0 0 [])) = some (0, 1) := by decide

/-- R290, vector X2: code 5 at 64 entries. -/
theorem test_call_at_the_bound :
    halt (exec (.call 0) { machine 0 0 [] with callStack := List.replicate 64 0 }) =
      some (.haltedFailure, 5, 4, 0, 0) := by decide

/-- R291: resumes after the call. -/
theorem test_exit_returns :
    regAndPc 0 (exec .exit { machine 0 0 [] with callStack := [9, 1] }) = some (0, 10) := by decide

/-- Vector X1: success, no failure latched. -/
theorem test_exit_halts : halt (exec .exit (machine 0 0 [])) = some (.haltedSuccess, 0, 0, 0, 0) := by decide

/-- R293. -/
theorem test_invoke_advances : regAndPc 0 (exec (.invoke) (machine 0 0 [])) = some (0, 5) := by decide

/-- Vector X5: code 5 at depth 4. -/
theorem test_invoke_at_the_bound :
    halt (exec .invoke { machine 0 0 [] with cpiDepth := 4 }) = some (.haltedFailure, 5, 4, 0, 0) := by decide

/-- Vector X6. -/
theorem test_log_advances : regAndPc 0 (exec (.log) (machine 0 0 [])) = some (0, 5) := by decide

/-- Vector X4, the second instruction. -/
theorem test_return_advances :
    regAndPc 0 (exec .cpiReturn { machine 0 0 [] with cpiDepth := 1 }) = some (0, 5) := by decide

/-- Vector X4, the third instruction: code 6. -/
theorem test_return_underflows :
    halt (exec .cpiReturn (machine 0 0 [])) = some (.haltedFailure, 6, 4, 0, 0) := by decide


/-! ## Steps and host commands -/

/-- The program of scenario S1, placed by the word, runs as the first instruction after reset (R194). -/
theorem test_placed_word_runs :
    regAndPc 0 (step (State.reset.withFetchWord 64 0x0000002a000000b7)) = some (42, 1) := by decide

/-- A Running machine with one `ja +0` loaded, an open transaction and given limits. -/
def looping (cu cyc : Word) : State :=
  let s := { State.reset with meter := { State.reset.meter with cuLimit := cu, cycLimit := cyc } }
  { s with
    engState := .running
    prog := [{ opc := 0x05, dst := 0, src := 0, off := 0, imm := 0 }]
    ckpt := { s.ckpt with txnBase := some (capture s) } }

/-- What a step leaves of the run: engine state, FAIL_CODE, STEP_COUNT, CU_USED, RES_CU_USED, TXN_OPEN. -/
def runView : Host.Outcome State Fault Refusal → Option (EngState × BitVec 8 × Word × Word × Word × Bool)
  | .next s => some (s.engState, s.latches.failCode, s.stepCount, s.meter.cuUsed, s.latches.resCuUsed, s.txnOpen)
  | .fault _ => none
  | .refused _ => none

/-- Vector B11: at the ceiling the step halts with code 11, charging nothing. -/
theorem test_step_limit :
    runView (step { looping 9 9 with stepCount := 1000000 }) = some (.haltedFailure, 11, 1000000, 0, 0, true) := by
  decide

/-- Vector B12: the step that exceeds the budget halts with code 1, latches the used budget and rolls back. -/
theorem test_budget_exhaustion :
    runView
        (step { looping 5 5 with
          stepCount := 5
          meter := { (looping 5 5).meter with cuUsed := 5, cycUsed := 5 } }) =
      some (.haltedFailure, 1, 5, 0, 5, false) := by decide

/-- Vector B10: a jump past the end halts at the next fetch with code 10. -/
theorem test_pc_out_of_bounds :
    runView (step { looping 5 5 with pc := 5, stepCount := 1 }) = some (.haltedFailure, 10, 1, 0, 0, true) := by decide

/-- An instruction charged: `invoke` costs 20 (vector X4). -/
theorem test_invoke_costs_twenty :
    runView (step { looping 1000 1000 with prog := [{ opc := 0xe0, dst := 0, src := 0, off := 0, imm := 0 }] }) =
      some (.running, 0, 1, 20, 0, true) := by decide

/-- Program P1's counts: PROG_LEN 2, PROG_BYTES 16, the engine Running, and RUN not answered yet (R144). -/
theorem test_run_loads_the_program :
    let r := hostCommand (.run [0xb7, 0, 0, 0, 0x2a, 0, 0, 0, 0x95, 0, 0, 0, 0, 0, 0, 0])
      { looping 9 9 with engState := .idle }
    r.1 = none ∧ r.2.runPending = true ∧ r.2.prog.length = 2 ∧ r.2.progBytes = 16 ∧ r.2.engState = .running := by decide

/-- The answers given after each of n machine steps. -/
def answersAfter (n : Nat) (s : State) : List HostResponse := (after n s).hostOut

/-- RUN of a program of one exit returns only after the halt: no answer when it is taken, none when the engine halts, one
from the step after that (R144). -/
theorem test_run_returns_after_the_halt :
    let s := { looping 9 9 with engState := .idle, hostIn := [.run [0x95, 0, 0, 0, 0, 0, 0, 0], .accountRead] }
    (after 1 s).engState = .running ∧ answersAfter 1 s = [] ∧ (after 2 s).engState = .haltedSuccess ∧
      answersAfter 2 s = [] ∧ answersAfter 3 s = [.done] ∧ answersAfter 4 s = [.done, .accounts s.accounts] := by
  decide

/-- Vector E5: the failure is latched, FAIL_PC the index and FAIL_ADDR the offset, and nothing is loaded. -/
theorem test_run_latches_decode_failure :
    let t := (hostCommand (.run [0x95, 0, 0, 0, 0, 0, 0, 0, 0xb7, 0, 0]) { looping 9 9 with engState := .idle }).2
    t.engState = .haltedFailure ∧ t.latches.failCode = 9 ∧ t.latches.failPc = 1 ∧ t.latches.failAddr = 8 ∧
      t.prog = [] := by decide

/-- Vector K6: RUN without a transaction is refused. -/
theorem test_run_needs_transaction :
    (hostCommand (.run []) State.reset).1 = some (.error .noCheckpointAvailable) := by decide

/-- CSR values right after reset: STATUS, CKPT_NEXT_ID, the factors, MULT[4], an unmapped index (R45, R48, R113). -/
theorem test_reset_registers :
    [0x00, 0x0d, 0x18, 0x19, 0x2c, 0x16].map (fun i => (hostCommand (.csrRead i) State.reset).1) =
      [some (.value 0), some (.value 1), some (.value 1000), some (.value 1000), some (.value 200000),
        some (.error .invalidRegister)] := by decide

/-- The worked costs of vectors C1, C2 and C3 (the second after UPDATE_FACTORS). -/
theorem test_costs :
    costCu State.reset.meter .hash 1 = 50 ∧ costCu State.reset.meter .memory 10 = 12 ∧
      costCu { State.reset.meter with memPressure := 1500 } .memory 10 = 18 := by decide

/-- Vector C8: a bad category. -/
theorem test_charge_category :
    (hostCommand (.charge 8 1) (looping 9 9)).1 = some (.error .invalidRegister) ∧
      (hostCommand (.charge 7 0) (looping 9 9)).1 = some .done := by decide

/-- Vector K1, steps 1 and 2: the first checkpoint has id 1 and costs 10. -/
theorem test_create_checkpoint :
    let s := (hostCommand (.beginTransaction 100 100) State.reset).2
    let r := hostCommand .createCheckpoint s
    r.1 = some (.value 1) ∧ r.2.meter.cuUsed = 10 ∧ r.2.ckpt.nextId = 2 ∧ r.2.ckptTopId = 1 := by decide

/-- Vector K2: the charge fails, nothing is pushed and nothing rolls back. -/
theorem test_create_checkpoint_over_budget :
    let r := hostCommand .createCheckpoint (looping 9 9)
    r.1 = some (.error .insufficientBudget) ∧ r.2.ckptDepth = 0 ∧ r.2.txnOpen = true := by decide

/-- Vector K4: the rollback truncates the log. -/
theorem test_rollback_truncates_log :
    let a : LogEntry := ⟨[1]⟩
    let s := (hostCommand .createCheckpoint { looping 99 99 with log := [a] }).2
    let t := (hostCommand (.rollbackCheckpoint 1) { s with log := [a, ⟨[2]⟩, ⟨[3]⟩] }).2
    t.log = [a] ∧ (hostCommand (.logRead 1) t).1 = some (.error .memoryOutOfBounds) := by decide

/-- The example sink packing after program P1's exit (R398). -/
theorem test_sink_example :
    sinkExample (haltSuccess 42 State.reset) = [1, 42, 0, 0, 0, 0, 0] := by decide

/-- A 64-bit value exported at index 1 and a 256-bit hash root: low word first, consecutive indices (R8). -/
theorem test_sink_low_word_first :
    sinkAt 1 (sinkWord64 0x1122334455667788) = [(1, 0x55667788), (2, 0x11223344)] ∧
      sinkHash256 0x0000000800000007000000060000000500000004000000030000000200000001 =
        [1, 2, 3, 4, 5, 6, 7, 8] := by decide

/-! ## Witnesses: concrete states and operands that meet each statement's hypotheses

Where a statement has several clauses, the witness meets each at a boundary of its range. -/

theorem witness_AddSubtractMultiplyResults : regIdOk 10 = true ∧ regIdOk 0 = true := by decide

theorem witness_DivideRemainderResults :
    regIdOk 10 = true ∧ regIdOk 1 = true ∧
      ((1 : BitVec 32).signExtend 64 ≠ (0 : Word)) ∧ ((0 : BitVec 32).signExtend 64 = (0 : Word)) ∧
      (machine 1 0 []).x 1 ≠ 0 ∧ (machine 0 0 []).x 1 = 0 := by decide

theorem witness_BitwiseResults : regIdOk 0 = true ∧ regIdOk 10 = true := by decide

theorem witness_ShiftResults : regIdOk 10 = true ∧ regIdOk 10 = true := by decide

theorem witness_NegateMoveResults : regIdOk 10 = true ∧ regIdOk 1 = true := by decide

theorem witness_LddwResult : regIdOk 10 = true := by decide

/-- The last address of each width that is inside, and the first that is not. -/
theorem witness_AbsoluteLoadResults :
    regIdOk 10 = true ∧
      ((65535 : BitVec 32).signExtend 64).toNat + 1 ≤ State.reset.params.memCapacity ∧
      State.reset.params.memCapacity < ((65536 : BitVec 32).signExtend 64).toNat + 1 ∧
      ((65534 : BitVec 32).signExtend 64).toNat + 2 ≤ State.reset.params.memCapacity ∧
      State.reset.params.memCapacity < ((65535 : BitVec 32).signExtend 64).toNat + 2 ∧
      ((65532 : BitVec 32).signExtend 64).toNat + 4 ≤ State.reset.params.memCapacity ∧
      State.reset.params.memCapacity < ((65533 : BitVec 32).signExtend 64).toNat + 4 ∧
      ((65528 : BitVec 32).signExtend 64).toNat + 8 ≤ State.reset.params.memCapacity ∧
      State.reset.params.memCapacity < ((65529 : BitVec 32).signExtend 64).toNat + 8 := by decide

/-- The effective address of base register 1 and displacement -1 on a machine with a given x[1]. -/
def addressBelow (x1 : Word) : Nat := ((machine x1 0 []).x 1 + (0xffff : BitVec 16).signExtend 64).toNat

theorem witness_IndirectLoadResults :
    regIdOk 10 = true ∧ regIdOk 1 = true ∧
      addressBelow 65536 + 1 ≤ 65536 ∧ 65536 < addressBelow 65537 + 1 ∧
      addressBelow 65535 + 2 ≤ 65536 ∧ 65536 < addressBelow 65536 + 2 ∧
      addressBelow 65533 + 4 ≤ 65536 ∧ 65536 < addressBelow 65534 + 4 ∧
      addressBelow 65529 + 8 ≤ 65536 ∧ 65536 < addressBelow 65530 + 8 ∧
      (machine 0 0 []).params.memCapacity = 65536 := by decide

theorem witness_StoreResults :
    regIdOk 1 = true ∧ regIdOk 10 = true ∧ Memory.wf (machine 65536 0 [(65535, 7)]).mem = true ∧
      addressBelow 65536 + 1 ≤ 65536 ∧ 65536 < addressBelow 65537 + 1 ∧
      addressBelow 65535 + 2 ≤ 65536 ∧ 65536 < addressBelow 65536 + 2 ∧
      addressBelow 65533 + 4 ≤ 65536 ∧ 65536 < addressBelow 65534 + 4 ∧
      addressBelow 65529 + 8 ≤ 65536 ∧ 65536 < addressBelow 65530 + 8 := by decide

/-- Operands that are equal and operands that are not. -/
theorem witness_EqualityJumpResults :
    regIdOk 1 = true ∧ regIdOk 2 = true ∧ (machine 3 3 []).x 1 = (machine 3 3 []).x 2 ∧
      (machine 3 4 []).x 1 ≠ (machine 3 4 []).x 2 ∧ (machine 3 4 []).x 1 = (3 : BitVec 32).signExtend 64 := by decide

/-- Operands below, equal and above, at the ends of the unsigned range. -/
theorem witness_UnsignedJumpResults :
    regIdOk 1 = true ∧ regIdOk 2 = true ∧
      ((machine 0 0xffffffffffffffff []).x 1).toNat < ((machine 0 0xffffffffffffffff []).x 2).toNat ∧
      ((machine 5 5 []).x 1).toNat = ((machine 5 5 []).x 2).toNat ∧
      ((machine 1 0 []).x 1).toNat > ((machine 1 0 []).x 2).toNat := by decide

/-- Operands below, equal and above, at the ends of the signed range. -/
theorem witness_SignedJumpResults :
    regIdOk 1 = true ∧ regIdOk 2 = true ∧
      ((machine 0x8000000000000000 0x7fffffffffffffff []).x 1).toInt <
        ((machine 0x8000000000000000 0x7fffffffffffffff []).x 2).toInt ∧
      ((machine 5 5 []).x 1).toInt = ((machine 5 5 []).x 2).toInt ∧
      ((machine 0 0 []).x 1).toInt > ((0xffffffff : BitVec 32)).toInt := by decide

/-- Depth 63, the last that can call, and depth 64. -/
theorem witness_CallResult :
    ({ State.reset with callStack := List.replicate 63 1 } : State).callStack.length ≠
        State.reset.params.maxCallDepth ∧
      ({ State.reset with callStack := List.replicate 64 1 } : State).callStack.length =
        State.reset.params.maxCallDepth := by decide

theorem witness_ExitResult :
    ({ State.reset with callStack := [7] } : State).callStack = 7 :: [] ∧ State.reset.callStack = [] := by decide

/-- Depths 3 and 4 for invoke, 1 and 0 for return, with the reference parameters. -/
theorem witness_ExtensionResults :
    Params.reference.Valid ∧
      ({ State.reset with cpiDepth := 3 } : State).cpiDepth.toNat ≠ State.reset.params.maxCpiDepth ∧
      ({ State.reset with cpiDepth := 4 } : State).cpiDepth.toNat = State.reset.params.maxCpiDepth ∧
      ({ State.reset with cpiDepth := 1 } : State).cpiDepth ≠ 0 ∧ State.reset.cpiDepth = 0 := by decide

theorem witness_RegisterFileContract :
    (10 : RegId).toNat ≤ 10 ∧ (0 : RegId).toNat ≤ 10 ∧ 10 < (11 : RegId).toNat := by decide

theorem witness_CheckedMemoryRead :
    (65528 : Word).toNat + Width.bytes .dw ≤ State.reset.params.memCapacity ∧
      State.reset.params.memCapacity < (65529 : Word).toNat + Width.bytes .dw := by decide

theorem witness_CheckedMemoryWrite :
    Memory.wf (machine 0 0 [(9, 1)]).mem = true ∧
      (65535 : Word).toNat + Width.bytes .b ≤ State.reset.params.memCapacity ∧
      State.reset.params.memCapacity < (65536 : Word).toNat + Width.bytes .b := by decide

theorem witness_MixedWidthReadBack :
    Memory.wf State.reset.mem = true ∧ State.reset.params.memCapacity ≤ 2 ^ 64 ∧
      (∃ t, memWrite 65528 .dw 0x0807060504030201 State.reset = .ok t) ∧ 7 < 8 :=
  ⟨by decide, by decide, ⟨_, rfl⟩, by decide⟩

/-- A state with one open checkpoint, made by the command itself. -/
def withCheckpoint : State := (hostCommand .createCheckpoint (looping 10 10)).2

/-- A transaction base under an open checkpoint; a step at the ceiling, one past the program, one over budget and one that fits. -/
theorem witness_StepPhasesInOrder :
    ((∃ base, withCheckpoint.ckpt.txnBase = some base) ∧ withCheckpoint.ckpt.stack ≠ []) ∧
      (looping 1 1).engState = .running ∧
      (looping 1 1).params.maxSteps ≤ ({ looping 1 1 with stepCount := 1000000 } : State).stepCount.toNat ∧
      ({ looping 1 1 with stepCount := 999999 } : State).stepCount.toNat < (looping 1 1).params.maxSteps ∧
      (looping 1 1).prog.length ≤ ({ looping 1 1 with pc := 1 } : State).pc.toNat ∧
      ((looping 1 1).prog[(looping 1 1).pc.toNat]?).bind (Decoded.instr? (looping 1 1).params) = some (.ja 0) ∧
      (∃ e, charge .control 1 (looping 0 0) = .error e) ∧ ∃ t, charge .control 1 (looping 1 1) = .ok t :=
  ⟨⟨⟨_, rfl⟩, by decide⟩, by decide, by decide, by decide, by decide, by decide, ⟨_, rfl⟩, ⟨_, rfl⟩⟩

theorem witness_StepRunsPlacedInstruction :
    State.reset.params.Valid ∧ (Instr.add64Reg 10 10).wellFormed = true ∧
      ∃ t, charge .arith 1 (placeInstruction (encode State.reset.params (.add64Reg 10 10) ++ []) State.reset) = .ok t :=
  ⟨by decide, by decide, ⟨_, rfl⟩⟩

theorem witness_IdleWithoutCommandsStays :
    State.reset.engState ≠ .running ∧ State.reset.runPending = false ∧ State.reset.hostIn = [] ∧
      (haltSuccess 0 State.reset).engState ≠ .running ∧ (haltSuccess 0 State.reset).runPending = false ∧
      (haltSuccess 0 State.reset).hostIn = [] := by decide

/-- A Running block, a halted one with a RUN to return, a block with two commands issued. -/
theorem witness_HostCommandsTakenInOrder :
    ((looping 1 1).engState = .running ∧ ∃ t, step (looping 1 1) = .next t) ∧
      ((haltSuccess 0 { State.reset with runPending := true }).engState ≠ .running ∧
        (haltSuccess 0 { State.reset with runPending := true }).runPending = true) ∧
      State.reset.engState ≠ .running ∧ State.reset.runPending = false ∧
      ({ State.reset with hostIn := [.accountRead, .commitTransaction] } : State).hostIn =
        .accountRead :: [.commitTransaction] :=
  ⟨⟨by decide, _, rfl⟩, by decide, by decide, by decide, by decide⟩

theorem witness_HostErrorsChangeNothing :
    (hostCommand .commitTransaction State.reset).1 = some (.error .noCheckpointAvailable) := by decide

theorem witness_InstructionFrame :
    (∃ t, exec (.add64Imm 1 1) (machine 0 0 []) = .next t) ∧ destination (.add64Imm 1 1) ≠ some 2 ∧
      isStore (.add64Imm 1 1) = false ∧ Instr.add64Imm 1 1 ≠ .exit ∧
      (∀ imm, Instr.add64Imm 1 1 ≠ .call imm) ∧ Instr.add64Imm 1 1 ≠ .invoke ∧ Instr.add64Imm 1 1 ≠ .cpiReturn :=
  ⟨⟨_, rfl⟩, by decide, by decide, by decide, by simp, by decide, by decide⟩

theorem witness_GuestCannotWriteHostSide :
    ∃ t, exec (.stxb 1 2 0) (machine 8 9 []) = .next t ∧ t.engState = (machine 8 9 []).engState ∧
      (machine 8 9 []).engState = .running :=
  ⟨_, rfl, by decide, by decide⟩

/-- Two states that differ only in what the host holds. -/
theorem witness_GuestReadsOnlyGuestState :
    guestView (machine 8 9 []) = guestView { machine 8 9 [] with log := [⟨[1]⟩], stepCount := 3 } ∧
      (∃ t, exec (.stxb 1 2 0) (machine 8 9 []) = .next t) ∧
      ∃ t, exec (.stxb 1 2 0) { machine 8 9 [] with log := [⟨[1]⟩], stepCount := 3 } = .next t :=
  ⟨rfl, ⟨_, rfl⟩, ⟨_, rfl⟩⟩

theorem witness_FailingInstructionIsPrecise :
    (machine 8 0 []).engState = .running ∧
      ∃ t, exec (.div64Reg 1 2) (machine 8 0 []) = .next t ∧ t.engState = .haltedFailure :=
  ⟨by decide, _, rfl, by decide⟩

theorem witness_DefaultAdvanceOfCompletedInstruction :
    isControl .log = false ∧ (machine 0 0 []).engState = .running ∧
      ∃ t, exec .log (machine 0 0 []) = .next t ∧ t.engState = .running :=
  ⟨by decide, by decide, _, rfl, by decide⟩

theorem witness_IllFormedInstructionHalts :
    (Instr.mov64Reg 0 11).wellFormed = false ∧ (Instr.stxw 15 0 0).wellFormed = false := by decide

/-- At the limit (cost 1 in both domains, MULT 1000, factors 1000) and one past it. -/
theorem witness_ChargeCommitsOrRefuses :
    1 = 1 * (looping 1 1).meter.cfg.baseRate.toNat * (multOf (looping 1 1).meter.cfg .arith).toNat *
        (looping 1 1).meter.memPressure.toNat * (looping 1 1).meter.proofComplexity.toNat / 10 ^ 9 ∧
      1 = 1 * (looping 1 1).meter.cfg.cyclesPerCu.toNat ∧
      ((looping 1 1).meter.cuUsed.toNat + 1 ≤ (looping 1 1).meter.cuLimit.toNat ∧
        (looping 1 1).meter.cycUsed.toNat + 1 ≤ (looping 1 1).meter.cycLimit.toNat) ∧
      ¬((looping 1 0).meter.cuUsed.toNat + 1 ≤ (looping 1 0).meter.cuLimit.toNat ∧
        (looping 1 0).meter.cycUsed.toNat + 1 ≤ (looping 1 0).meter.cycLimit.toNat) := by decide

theorem witness_ZeroCostChargeChangesNothing :
    MeterOk State.reset.meter ∧ costCu { State.reset.meter with memPressure := 0 } .sigverify 1000 = 0 ∧
      costCu State.reset.meter .sigverify 0 = 0 := by
  refine ⟨?_, by decide, by decide⟩
  unfold MeterOk
  decide

theorem witness_EngineStepNeverLowersUsedCounters :
    (looping 1 1).engState = .running ∧
      ∃ t, step (looping 1 1) = .next t ∧ t.latches.failCode ≠ FailKind.insufficientBudget.code :=
  ⟨by decide, _, rfl, by decide⟩

theorem witness_FactorsAndConfigurationNeverRescale :
    ((0 : BitVec 32) = 0 ∨ (1 : BitVec 32) = 0) ∧ ∃ t, csrWrite 0x2f 7 State.reset = .ok t :=
  ⟨by decide, _, rfl⟩

/-- The indexes at the ends of each range of the register map. -/
theorem witness_CsrPortAccess :
    (0x2f : BitVec 8) ∈
        [0x20, 0x21, 0x22, 0x23, 0x24, 0x25, 0x28, 0x29, 0x2a, 0x2b, 0x2c, 0x2d, 0x2e, (0x2f : BitVec 8)] ∧
      (0x26 : BitVec 8) ∉
        [0x20, 0x21, 0x22, 0x23, 0x24, 0x25, 0x28, 0x29, 0x2a, 0x2b, 0x2c, 0x2d, 0x2e, (0x2f : BitVec 8)] ∧
      (0x15 : BitVec 8).toNat ≤ 0x15 ∧ (0x20 ≤ (0x25 : BitVec 8).toNat ∧ (0x25 : BitVec 8).toNat ≤ 0x25) ∧
      ¬((0x16 : BitVec 8).toNat ≤ 0x15 ∨ (0x16 : BitVec 8) = 0x18 ∨ (0x16 : BitVec 8) = 0x19 ∨
        (0x20 ≤ (0x16 : BitVec 8).toNat ∧ (0x16 : BitVec 8).toNat ≤ 0x25) ∨
        (0x28 ≤ (0x16 : BitVec 8).toNat ∧ (0x16 : BitVec 8).toNat ≤ 0x2f)) := by decide

/-- No transaction; a stream of 7 bytes; the empty stream, which decodes. -/
theorem witness_RunCommandStartsOrRejects :
    State.reset.txnOpen = false ∧ (looping 1 1).txnOpen = true ∧
      decodeProgram (looping 1 1).params [0x95, 0, 0, 0, 0, 0, 0] = .error ⟨.truncatedInstruction, 0, 0⟩ ∧
      decodeProgram (looping 1 1).params [] = .ok [] := by decide

theorem witness_TransactionCommands :
    (looping 1 1).ckpt.txnBase.isSome = true ∧ State.reset.ckpt.txnBase = none ∧ withCheckpoint.ckpt.stack ≠ [] ∧
      (looping 1 1).ckpt.stack = [] ∧ ∃ base, (looping 1 1).ckpt.txnBase = some base :=
  ⟨by decide, by decide, by decide, by decide, _, rfl⟩

/-- The same state with MAX_CHECKPOINTS 1. -/
def fullStack : State := { withCheckpoint with params := { withCheckpoint.params with maxCheckpoints := 1 } }

/-- No transaction; a full stack; a charge one short; a charge that just fits. -/
theorem witness_CreateCheckpointCommand :
    State.reset.ckpt.txnBase = none ∧
      fullStack.ckpt.txnBase.isSome = true ∧ fullStack.ckpt.stack.length = fullStack.params.maxCheckpoints ∧
      (looping 10 10).ckpt.stack.length ≠ (looping 10 10).params.maxCheckpoints ∧
      (∃ e, charge .checkpoint 10 (looping 10 9) = .error e) ∧ ∃ t, charge .checkpoint 10 (looping 10 10) = .ok t :=
  ⟨by decide, by decide, by decide, by decide, ⟨_, rfl⟩, ⟨_, rfl⟩⟩

/-- The empty stack, for which every id is wrong, and a stack whose top has id 1. -/
theorem witness_ResolveCheckpointCommands :
    State.reset.ckpt.stack = [] ∧ (withCheckpoint.ckpt.stack.map fun c => c.id) = [1] := by decide

theorem witness_LogAndAccountCommands :
    (0 : Word).toNat < ({ State.reset with log := [⟨[1]⟩] } : State).log.length ∧
      ({ State.reset with log := [⟨[1]⟩] } : State).log.length ≤ (1 : Word).toNat := by decide

theorem witness_RegisterMemoryAndChargePorts :
    10 < (11 : RegId).toNat ∧ (10 : RegId).toNat ≤ 10 ∧
      State.reset.params.memCapacity < (65533 : Word).toNat + Width.bytes .w ∧
      (65532 : Word).toNat + Width.bytes .w ≤ State.reset.params.memCapacity ∧
      7 < (8 : Word).toNat ∧ (7 : Word).toNat ≤ 7 ∧
      (∃ t, charge .checkpoint 10 (looping 10 10) = .ok t) ∧ ∃ e, charge .checkpoint 10 (looping 9 10) = .error e :=
  ⟨by decide, by decide, by decide, by decide, by decide, by decide, ⟨_, rfl⟩, ⟨_, rfl⟩⟩

/-- A good Running state: an open transaction, an instruction placed. -/
def goodState : State := State.reset.withFetchWord 64 0x0000002a000000b7

theorem goodState_inv : Inv goodState where
  params := by decide
  memory := by unfold MemoryOk; decide
  meter := by unfold MeterOk; decide
  bounds := by unfold BoundsOk; decide
  program := by unfold ProgramOk; decide
  latches := by unfold LatchesOk; decide
  snapshots := by unfold SnapshotsOk SnapshotOk MemoryOk; decide
  transaction := by unfold TransactionOk; decide

theorem witness_EveryStepKeepsTheInvariant : Inv goodState ∧ ∃ t, step goodState = .next t :=
  ⟨goodState_inv, _, rfl⟩

theorem witness_PowerOnMeetsTheInvariant : Params.reference.Valid := by decide

theorem witness_EveryStepKeepsCheckpointIdsRising :
    IdsOk withCheckpoint ∧ withCheckpoint.ckpt.nextId ≠ BitVec.allOnes 64 ∧ ∃ t, step withCheckpoint = .next t :=
  ⟨by unfold IdsOk; decide, by decide, _, rfl⟩

/-- The start of a run and its last step before the ceiling. -/
theorem witness_EveryRunTerminates :
    goodState.params.Valid ∧ goodState.engState = .running ∧ goodState.stepCount.toNat ≤ goodState.params.maxSteps ∧
      ({ goodState with stepCount := 1000000 } : State).stepCount.toNat ≤ goodState.params.maxSteps := by decide

/-- A checkpoint created, one step taken, then rolled back. -/
theorem witness_CheckpointRollbackIsARoundTrip :
    IdsOk (looping 11 11) ∧ (looping 11 11).ckpt.nextId.toNat + 1 + 1 < 2 ^ 64 ∧
      ∃ s1 u, createCheckpoint (looping 11 11) = .ok (1, s1) ∧ rollbackCheckpoint 1 (after 1 s1) = .ok u :=
  ⟨by unfold IdsOk; decide, by decide, _, _, rfl, rfl⟩

/-- A transaction with no budget, and a program of one exit. -/
theorem witness_BudgetExhaustionRestoresTheTransactionBase :
    let s := { State.reset with hostIn := [.beginTransaction 0 0, .run [0x95, 0, 0, 0, 0, 0, 0, 0]] }
    s.engState ≠ .running ∧ s.runPending = false ∧ s.txnOpen = false ∧ s.ckpt.stack = [] ∧ (after (1 + 2) s).engState = .haltedFailure ∧
      (after (1 + 2) s).latches.failCode = FailKind.insufficientBudget.code := by decide

theorem witness_DecodeOfEncodeIsIdentity : Params.reference.Valid ∧ (Instr.ldxdw 10 0 0x8000).wellFormed = true := by
  decide

theorem witness_DecodeProgramOfEncodedInstructions :
    Params.reference.Valid ∧ ∀ i ∈ [Instr.lddw 10 (BitVec.allOnes 64), .exit], i.wellFormed = true := by decide

theorem witness_OpcodeMapHasNoOverlap : Params.reference.Valid := by decide

/-- 7 bytes; 15 bytes of the wide form; nibbles 11 and 10; an opcode outside the map and one inside; two well-formed
instructions with a tail that fails. -/
theorem witness_DecodeFailureOrder :
    [0x95, 0, 0, 0, 0, 0, (0 : Byte)].length < 8 ∧
      [0x18, 0, 0, 0, 0, 0, 0, 0, 0, 0, 0, 0, 0, 0, (0 : Byte)].length < 16 ∧
      8 ≤ [0x95, 0xab, 0, 0, 0, 0, 0, (0 : Byte)].length ∧ (0x95 : Byte) ≠ 0x18 ∧
      10 < (0xab : Byte).toNat % 16 ∧ (0xab : Byte).toNat / 16 ≤ 10 ∧ 10 < (0xba : Byte).toNat / 16 ∧
      (0xaa : Byte).toNat % 16 ≤ 10 ∧ (0xaa : Byte).toNat / 16 ≤ 10 ∧
      (0x8f : Byte) ∉ (opcodeMap Params.reference).map Prod.fst ∧
      (0x95 : Byte) ∈ (opcodeMap Params.reference).map Prod.fst ∧
      decodeOne Params.reference [0x8f, 0, 0, 0, 0, 0, 0, 0] = .error .invalidOpcode ∧
      Params.reference.Valid ∧ (∀ i ∈ [Instr.lddw 10 (BitVec.allOnes 64), .exit], i.wellFormed = true) := by decide

/-- The same list: the failure is at offset 24 and index 2. -/
theorem test_later_decode_failure :
    decodeProgram Params.reference
        ([Instr.lddw 10 (BitVec.allOnes 64), .exit].flatMap (encode Params.reference) ++ [0x95, 0, 0]) =
      .error ⟨.truncatedInstruction, 24, 2⟩ := by decide

/-- Two records of add64 (imm) that differ only in the fields its format does not use. -/
theorem witness_UnusedFieldsAreIgnored :
    let d : Decoded := { opc := 0x07, dst := 1, src := 0, off := 0, imm := 5 }
    let d' : Decoded := { opc := 0x07, dst := 1, src := 9, off := 77, imm := 5 }
    d'.opc = d.opc ∧ d'.dst = d.dst ∧ d'.imm = d.imm ∧ d' ≠ d := by decide

/-- The last address that holds a whole word. -/
theorem witness_StoreThenLoadAbsoluteWord :
    regIdOk 1 = true ∧ regIdOk 2 = true ∧ regIdOk 0 = true ∧ Memory.wf (machine 65532 9 []).mem = true ∧
      (machine 65532 9 []).x 1 + (0 : BitVec 16).signExtend 64 = (65532 : BitVec 32).signExtend 64 ∧
      ((65532 : BitVec 32).signExtend 64).toNat + 4 ≤ (machine 65532 9 []).params.memCapacity ∧
      ∃ t, exec (.stxw 1 2 0) (machine 65532 9 []) = .next t :=
  ⟨by decide, by decide, by decide, by decide, by decide, by decide, _, rfl⟩

end Sys2Proof.Tests
end

