-- ==== Sys2Proof/Proofs/StatusRegister.lean ====
section
/-! SUPPORT. The STATUS register (10_state.md R47): one rule for a bit of the packed word, and from it each field. -/

namespace Sys2Proof.Machine

theorem csrRead_status (s : State) : csrRead 0x00 s = .ok (statusWord s) := rfl

/-! ## One bit of the packed word -/

/-- A flag placed at bit `i` of a word: that bit is the flag and every other bit is 0. -/
theorem getLsbD_flag_shiftLeft (b : Bool) (i : Nat) {k : Nat} (hk : k < 64) :
    ((BitVec.ofBool b).setWidth 64 <<< i).getLsbD k = (decide (k = i) && b) := by
  rcases lt_trichotomy k i with below | rfl | above
  · simp [below, below.ne]
  · simp [hk]
  · have shifted : k - i ≠ 0 := by omega
    simp [above.ne', shifted, BitVec.getLsbD_ofBool]

/-- The fields of STATUS sit at bits 0, 2, 3 and 8; a bit of the word is the disjunction of what each field puts there. -/
theorem statusWord_getLsbD (s : State) {k : Nat} (hk : k < 64) :
    (statusWord s).getLsbD k =
      (s.engState.code.getLsbD k || (decide (k = 2) && s.txnOpen) || (decide (k = 3) && s.ckpt.dirty) ||
        (!decide (k < 8) && s.latches.failCode.getLsbD (k - 8))) := by
  simp only [statusWord, BitVec.getLsbD_or, getLsbD_flag_shiftLeft _ _ hk]
  simp [hk]

/-! ## The fields -/

theorem statusWord_engState (s : State) : (statusWord s).extractLsb' 0 2 = s.engState.code := by
  apply BitVec.eq_of_getLsbD_eq
  intro i hi
  have inWord : i < 64 := by omega
  have notOther : i ≠ 2 ∧ i ≠ 3 ∧ i < 8 := by omega
  rw [BitVec.getLsbD_extractLsb', Nat.zero_add, statusWord_getLsbD s inWord]
  simp [hi, notOther]

theorem statusWord_txnOpen (s : State) : (statusWord s).getLsbD 2 = s.txnOpen := by
  rw [statusWord_getLsbD s (by omega)]
  simp

theorem statusWord_dirty (s : State) : (statusWord s).getLsbD 3 = s.ckpt.dirty := by
  rw [statusWord_getLsbD s (by omega)]
  simp

theorem statusWord_failCode (s : State) : (statusWord s).extractLsb' 8 8 = s.latches.failCode := by
  apply BitVec.eq_of_getLsbD_eq
  intro i hi
  have inWord : 8 + i < 64 := by omega
  have notEng : s.engState.code.getLsbD (8 + i) = false := BitVec.getLsbD_of_ge _ _ (by omega)
  have notFlag : 8 + i ≠ 2 ∧ 8 + i ≠ 3 := by omega
  rw [BitVec.getLsbD_extractLsb', statusWord_getLsbD s inWord]
  simp [hi, notEng, notFlag]

theorem statusWord_unusedBit (s : State) {k : Nat} (hk : (4 ≤ k ∧ k < 8) ∨ 16 ≤ k) :
    (statusWord s).getLsbD k = false := by
  by_cases hin : k < 64
  case neg => exact BitVec.getLsbD_of_ge _ _ (by omega)
  case pos =>
    have notEng : s.engState.code.getLsbD k = false := BitVec.getLsbD_of_ge _ _ (by omega)
    have notFlag : k ≠ 2 ∧ k ≠ 3 := by omega
    have notFail : 8 ≤ k → s.latches.failCode.getLsbD (k - 8) = false := fun _ =>
      BitVec.getLsbD_of_ge _ _ (by omega)
    rw [statusWord_getLsbD s hin]
    simpa [notEng, notFlag] using notFail

/-! ## The statement -/

/-- Settles O40: index 0 reads the packed word, whose fields are read off bit by bit. -/
theorem statusRegisterPacking : Obligations.StatusRegisterPacking := by
  intro s
  refine ⟨statusWord s, csrRead_status s, ?engState, statusWord_txnOpen s, statusWord_dirty s,
    statusWord_failCode s, fun _ => statusWord_unusedBit s⟩
  case engState =>
    rw [statusWord_engState]
    cases s.engState <;> rfl

end Sys2Proof.Machine
end

