-- ==== Sys2Proof/Proofs/CheckedMemory.lean ====
section
/-! SUPPORT. The checked access (20_memory.md R62, R63): the sum a read answers, and the bytes a write leaves. -/

namespace Sys2Proof.Machine

/-! ## The bounds test -/

theorem inBounds_eq_false_iff {addr : Word} {n : Width} {s : State} :
    inBounds addr n s = false ↔ s.params.memCapacity < addr.toNat + n.bytes := by
  simp [inBounds]

theorem Width.bytes_le_eight (n : Width) : n.bytes ≤ 8 := by
  cases n <;> decide

/-! ## The little-endian sum -/

@[simp] theorem littleEndian_zero (m : Memory) (a : Nat) : littleEndian m a 0 = 0 := rfl

/-- The sum read in Horner form, as `Memory.readLE` recurses: the byte at the address is the lowest. -/
theorem littleEndian_succ (m : Memory) (a n : Nat) :
    littleEndian m a (n + 1) = (Memory.get m a).toNat + 2 ^ 8 * littleEndian m (a + 1) n := by
  have shifted : ∀ k, (Memory.get m (a + (k + 1))).toNat * 2 ^ (8 * (k + 1)) =
      2 ^ 8 * ((Memory.get m (a + 1 + k)).toNat * 2 ^ (8 * k)) := fun k => by
    rw [Nat.add_right_comm a 1 k, Nat.add_assoc a k 1, Nat.mul_succ, pow_add]
    ring
  simp only [littleEndian, Finset.sum_range_succ', shifted, Finset.mul_sum]
  simp [Nat.add_comm]

theorem littleEndian_lt (m : Memory) (a n : Nat) : littleEndian m a n < 2 ^ (8 * n) := by
  induction n generalizing a with
  | zero => simp
  | succ n ih =>
    have lowest := (Memory.get m a).isLt
    have rest := ih (a + 1)
    rw [littleEndian_succ, Nat.mul_succ, pow_add]
    omega

/-- A byte and a word whose shift by one byte loses nothing do not overlap, so their disjunction is their sum. -/
theorem toNat_byte_or_shiftLeft (b : Byte) {w : Word} (hw : w.toNat < 2 ^ 56) :
    (b.setWidth 64 ||| w <<< 8).toNat = b.toNat + 2 ^ 8 * w.toNat := by
  have kept : w.toNat <<< 8 % 2 ^ 64 = w.toNat <<< 8 :=
    Nat.mod_eq_of_lt (by rw [Nat.shiftLeft_eq]; omega)
  have byteKept : b.toNat % 2 ^ 64 = b.toNat := Nat.mod_eq_of_lt (by omega)
  rw [BitVec.toNat_or, BitVec.toNat_setWidth, BitVec.toNat_shiftLeft, kept, byteKept, Nat.or_comm,
    ← Nat.shiftLeft_add_eq_or_of_lt b.isLt, Nat.shiftLeft_eq]
  omega

/-- A read of at most a word answers the sum of R62 (20_memory.md). -/
theorem Memory.toNat_readLE (m : Memory) (a : Nat) {n : Nat} (hn : n ≤ 8) :
    (Memory.readLE m a n).toNat = littleEndian m a n := by
  induction n generalizing a with
  | zero => rfl
  | succ n ih =>
    have rest := ih (a + 1) (by omega)
    have fits : (Memory.readLE m (a + 1) n).toNat < 2 ^ 56 :=
      calc (Memory.readLE m (a + 1) n).toNat
        _ = littleEndian m (a + 1) n := rest
        _ < 2 ^ (8 * n) := littleEndian_lt m (a + 1) n
        _ ≤ 2 ^ 56 := Nat.pow_le_pow_right (by omega) (by omega)
    rw [Memory.readLE, toNat_byte_or_shiftLeft _ fits, rest, littleEndian_succ]

/-! ## The bytes a write leaves -/

theorem byteOf_eq_setWidth_shiftRight (v : Word) (k : Nat) : byteOf v k = (v >>> (8 * k)).setWidth 8 := by
  apply BitVec.eq_of_getLsbD_eq
  intro i hi
  simp [byteOf, hi]

theorem Memory.storedAt_writeLE {m : Memory} (h : Memory.wf m = true) (a n : Nat) (v : Word) :
    StoredAt m (Memory.writeLE m a n v) a n v := by
  intro b
  rw [Memory.get_writeLE h, byteOf_eq_setWidth_shiftRight]

/-! ## The statements -/

/-- Settles O19: in bounds the word read is the sum, since no width exceeds a word. -/
theorem checkedMemoryRead : Obligations.CheckedMemoryRead := by
  intro s addr n
  constructor
  · intro inside
    exact ⟨Memory.readLE s.mem addr.toNat n.bytes, memRead_ok.2 ⟨inBounds_iff.2 inside, rfl⟩,
      Memory.toNat_readLE s.mem addr.toNat n.bytes_le_eight⟩
  · intro outside
    exact memRead_error.2 ⟨inBounds_eq_false_iff.2 outside, rfl⟩

/-- Settles O20: the memory written is `Memory.writeLE`, whose every byte and canonical form are known. -/
theorem checkedMemoryWrite : Obligations.CheckedMemoryWrite := by
  intro s addr n v canonical
  constructor
  · intro inside
    exact ⟨Memory.writeLE s.mem addr.toNat n.bytes v, memWrite_ok.2 ⟨inBounds_iff.2 inside, rfl⟩,
      Memory.storedAt_writeLE canonical addr.toNat n.bytes v, Memory.writeLE_wf canonical addr.toNat n.bytes v⟩
  · intro outside
    exact memWrite_error.2 ⟨inBounds_eq_false_iff.2 outside, rfl⟩

end Sys2Proof.Machine
end

