-- ==== Sys2Proof/Proofs/ComputeMeter.lean ====
section
/-! SUPPORT. The compute meter (40_compute_meter.md R114 to R121): the budget condition as an inequality in exact
integers, the cost when a dynamic factor is 0, and what a CSR write can answer. -/

namespace Sys2Proof.Machine

/-! ## The budget condition -/

theorem chargeFits_iff {m : Meter} {c : Category} {units : Nat} :
    chargeFits m c units = true ↔
      m.cuUsed.toNat + costCu m c units ≤ m.cuLimit.toNat ∧
        m.cycUsed.toNat + costCyc m c units ≤ m.cycLimit.toNat := by
  simp [chargeFits]

/-! ## The dynamic factors -/

/-- The exact product of R114 has a factor 0, so its floor is 0 (40_compute_meter.md R120). -/
theorem costCu_eq_zero_of_factor {m : Meter} (h : m.memPressure = 0 ∨ m.proofComplexity = 0) (c : Category)
    (units : Nat) : costCu m c units = 0 := by
  obtain noPressure | noComplexity := h
  · simp [costCu, noPressure]
  · simp [costCu, noComplexity]

/-! ## The CSR port -/

/-- A CSR write that succeeds writes the meter's configuration and nothing else (10_state.md R46). -/
theorem csrWrite_ok {i : BitVec 8} {v : Word} {s t : State} :
    csrWrite i v s = .ok t ↔
      ∃ write, csrWriteRows.lookup i = some write ∧
        t = s.withMeter { s.meter with cfg := write s.meter.cfg (v.setWidth 32) } := by
  cases hrow : csrWriteRows.lookup i with
  | none => simp [csrWrite, hrow]
  | some write => simp [csrWrite, hrow, @eq_comm _ t]

/-! ## The statements -/

/-- Settles O34: a charge that fits commits the exact sums, and one that does not fit raises. -/
theorem chargeCommitsOrRefuses : Obligations.ChargeCommitsOrRefuses := by
  rintro s c units _ _ rfl rfl
  constructor
  · intro within
    have fits : chargeFits s.meter c units = true := chargeFits_iff.2 within
    obtain ⟨cuExact, cycExact⟩ := commitCharge_exact fits
    exact ⟨_, _, cuExact, cycExact, charge_ok.2 ⟨fits, rfl⟩⟩
  · intro beyond
    have exceeds : chargeFits s.meter c units = false := Bool.eq_false_iff.2 (mt chargeFits_iff.1 beyond)
    exact charge_error.2 ⟨exceeds, rfl⟩

/-- Settles O37: UPDATE_FACTORS is one update of the meter, and a CSR write leaves all of the meter but its
configuration. -/
theorem factorsAndConfigurationNeverRescale : Obligations.FactorsAndConfigurationNeverRescale := by
  intro s t mp cl i v c units
  refine ⟨rfl, fun factorZero => costCu_eq_zero_of_factor factorZero c units, ?csrWrite⟩
  case csrWrite =>
    intro written
    obtain ⟨_, -, rfl⟩ := csrWrite_ok.1 written
    exact ⟨rfl, rfl⟩

end Sys2Proof.Machine
end

