-- ==== Sys2Proof/Proofs/EngineStep.lean ====
section
/-! SUPPORT. The engine's step phase by phase (41_engine.md R145 to R149): the equation of each branch of the step, and
what the automatic rollback leaves unchanged (46_checkpoint.md R321). -/

namespace Sys2Proof.Machine

/-! ## The phases of a Running step -/

theorem step_of_running {s : State} (running : s.engState = .running) : step s = engineStep s :=
  if_pos running

theorem engineStep_of_ceiling {s : State} (ceiling : s.params.maxSteps ≤ s.stepCount.toNat) :
    engineStep s = .next (haltFailure (.plain .stepLimitExceeded) s) :=
  if_pos ceiling

theorem fetch_eq_none_iff {s : State} : fetch s = none ↔ s.prog.length ≤ s.pc.toNat :=
  List.getElem?_eq_none_iff

theorem engineStep_of_fetch_none {s : State} (below : s.stepCount.toNat < s.params.maxSteps) (ended : fetch s = none) :
    engineStep s = .next (haltFailure (.plain .pcOutOfBounds) s) := by
  simp [engineStep, below, ended]

theorem engineStep_of_fetch_some {s : State} {d : Decoded} {i : Instr} (below : s.stepCount.toNat < s.params.maxSteps)
    (fetched : fetch s = some d) (stands : d.instr? s.params = some i) : engineStep s = meterAndRun i s := by
  simp [engineStep, below, fetched, stands]

theorem meterAndRun_of_charge_error {i : Instr} {s : State} {e : Raised}
    (unaffordable : charge (chargeOf s.meter.cfg i).1 (chargeOf s.meter.cfg i).2 s = .error e) :
    meterAndRun i s = .next (autoRollback (haltFailure e s)) := by
  simp [meterAndRun, unaffordable]

theorem meterAndRun_of_charge_ok {i : Instr} {s t : State}
    (charged : charge (chargeOf s.meter.cfg i).1 (chargeOf s.meter.cfg i).2 s = .ok t) :
    meterAndRun i s = exec i (countStep t) := by
  simp [meterAndRun, charged]

/-! ## What a charge and the rollback leave unchanged -/

theorem charge_stepCount {c : Category} {units : Nat} {s t : State} (charged : charge c units s = .ok t) :
    t.stepCount = s.stepCount := by
  obtain ⟨-, rfl⟩ := charge_ok.1 charged
  rfl

/-- The count goes on from what it was before the charge (41_engine.md R148). -/
theorem countStep_of_charge_ok {c : Category} {units : Nat} {s t : State} (charged : charge c units s = .ok t) :
    countStep t = { t with stepCount := s.stepCount + 1 } := by
  rw [← charge_stepCount charged]
  rfl

/-- With no transaction open the rollback changes nothing (log 21). -/
theorem autoRollback_of_closed {s : State} (closed : s.ckpt.txnBase = none) : autoRollback s = s := by
  simp [autoRollback, rollbackTransaction, closed]

@[simp] theorem autoRollback_engState (s : State) : (autoRollback s).engState = s.engState := by
  cases base? : s.ckpt.txnBase with
  | none => rw [autoRollback_of_closed base?]
  | some base => simp [autoRollback_of_open base?]

@[simp] theorem autoRollback_latches (s : State) : (autoRollback s).latches = s.latches := by
  cases base? : s.ckpt.txnBase with
  | none => rw [autoRollback_of_closed base?]
  | some base => simp [autoRollback_of_open base?]

/-! ## The statements -/

/-- Settles O17: each halt is one `State.latchHalt`, an update of the engine state and the latches alone. -/
theorem haltsWriteLatchesOnly : Obligations.HaltsWriteLatchesOnly := by
  intro s e code
  constructor
  case left => unfold haltFailure State.latchHalt; rfl
  case right => unfold haltSuccess State.latchHalt; rfl

/-- Settles O22: each phase is one branch of the step, taken when the phases before it passed; the only failure a charge
raises is InsufficientBudget. -/
theorem stepPhasesInOrder : Obligations.StepPhasesInOrder := by
  refine ⟨?rollback, fun s running => ?phases⟩
  case rollback =>
    intro s base opened
    exact ⟨autoRollback_of_open opened, autoRollback_engState s, autoRollback_latches s⟩
  case phases =>
    rw [step_of_running running]
    refine ⟨engineStep_of_ceiling, fun below ended => ?fetch, fun below d i fetched stands => ?dispatch⟩
    case fetch => exact engineStep_of_fetch_none below (fetch_eq_none_iff.2 ended)
    case dispatch =>
      rw [engineStep_of_fetch_some below fetched stands]
      constructor
      · intro e unaffordable
        obtain ⟨-, rfl⟩ := charge_error.1 unaffordable
        exact meterAndRun_of_charge_error unaffordable
      · intro t charged
        rw [meterAndRun_of_charge_ok charged, countStep_of_charge_ok charged]

end Sys2Proof.Machine
end

