-- ==== Sys2Proof/Proofs/Alu.lean ====
section
/-! SUPPORT. The arithmetic and bitwise instructions (42_alu.md R170 to R197): the row of a base opcode, each result in
the rules' own integer terms, and the two ends of the template of R170. -/

namespace Sys2Proof.Machine

/-! ## Rows of the opcode map -/

/-- A base row holds for all parameters: the map is searched in order and the extension rows come last (30_encoding.md
R92). -/
theorem rowIs_of_baseOpcodeRows {opc : Byte} {make : Decoded → Instr} (row : baseOpcodeRows.lookup opc = some make)
    (p : Params) : RowIs p opc make := by
  rintro d rfl
  simp [Decoded.instr?, opcodeMap, List.lookup_append, row]

/-! ## Results in exact integers -/

theorem mulResult_eq (a b : Word) : mulResult a b = .ok (BitVec.ofNat 64 (a.toNat * b.toNat)) := rfl

theorem divResult_of_ne_zero (a : Word) {b : Word} (nonzero : b ≠ 0) :
    divResult a b = .ok (BitVec.ofNat 64 (a.toNat / b.toNat)) := by
  rw [divResult, if_neg nonzero, BitVec.udiv_eq, BitVec.udiv_def]

theorem divResult_of_eq_zero (a : Word) {b : Word} (zero : b = 0) :
    divResult a b = .error (.plain .divisionByZero) :=
  if_pos zero

/-- The remainder as 42_alu.md R179 writes it: the dividend less the divisor times the quotient. -/
theorem modResult_of_ne_zero (a : Word) {b : Word} (nonzero : b ≠ 0) :
    modResult a b = .ok (BitVec.ofNat 64 (a.toNat - b.toNat * (a.toNat / b.toNat))) := by
  rw [modResult, if_neg nonzero, BitVec.umod_eq, BitVec.umod_def, ← Nat.mod_eq_sub]

theorem modResult_of_eq_zero (a : Word) {b : Word} (zero : b = 0) :
    modResult a b = .error (.plain .divisionByZero) :=
  if_pos zero

/-- The low 6 bits of the operand are its remainder modulo 64 (42_alu.md R196). -/
theorem shiftAmount_eq_mod (b : Word) : shiftAmount b = b.toNat % 64 := by
  rw [shiftAmount, BitVec.toNat_and]
  exact Nat.and_two_pow_sub_one_eq_mod b.toNat 6

theorem lshResult_eq (a b : Word) : lshResult a b = .ok (a <<< (b.toNat % 64)) := by
  rw [lshResult, shiftAmount_eq_mod]

theorem rshResult_eq (a b : Word) : rshResult a b = .ok (a >>> (b.toNat % 64)) := by
  rw [rshResult, shiftAmount_eq_mod]

theorem arshResult_eq (a b : Word) : arshResult a b = .ok (a.sshiftRight (b.toNat % 64)) := by
  rw [arshResult, shiftAmount_eq_mod]

/-! ## The operand B -/

theorem operand_value_imm (imm : BitVec 32) (s : State) : (Operand.imm imm).value s = .ok (imm.signExtend 64) := rfl

theorem operand_value_reg {src : RegId} (srcOk : regIdOk src = true) (s : State) :
    (Operand.reg src).value s = .ok (s.x src) :=
  readReg_ok.2 ⟨srcOk, rfl⟩

/-! ## The ends of the template -/

section
variable {f : Word → Word → Except Raised Word} {s : State} {dst : RegId} {b : Operand} {y r : Word} {e : Raised}

theorem finish_aluBinary_ok (dstOk : regIdOk dst = true) (value : b.value s = .ok y) (result : f (s.x dst) y = .ok r) :
    finish s (aluBinary f dst b s) = .next (regWritten s dst r) :=
  finish_next.2 (.inl (aluBinary_ok.2 ⟨dstOk, y, r, value, result, rfl⟩))

theorem finish_aluBinary_error (dstOk : regIdOk dst = true) (value : b.value s = .ok y)
    (failure : f (s.x dst) y = .error e) : finish s (aluBinary f dst b s) = .next (haltFailure e s) :=
  finish_next.2 (.inr ⟨e, aluBinary_error.2 (.inr ⟨dstOk, .inr ⟨y, value, failure⟩⟩), rfl⟩)

theorem finish_aluNegate (dstOk : regIdOk dst = true) :
    finish s (aluNegate dst s) = .next (regWritten s dst (0 - s.x dst)) :=
  finish_next.2 (.inl (aluNegate_ok.2 ⟨dstOk, rfl⟩))

theorem finish_aluMove (dstOk : regIdOk dst = true) (value : b.value s = .ok y) :
    finish s (aluMove dst b s) = .next (regWritten s dst y) :=
  finish_next.2 (.inl (aluMove_ok.2 ⟨dstOk, y, value, rfl⟩))

/-- Both outcomes of a division, by the divisor (42_alu.md R177). -/
theorem finish_aluBinary_divResult (dstOk : regIdOk dst = true) (value : b.value s = .ok y) :
    (y ≠ 0 → finish s (aluBinary divResult dst b s) =
      .next (regWritten s dst (BitVec.ofNat 64 ((s.x dst).toNat / y.toNat)))) ∧
    (y = 0 → finish s (aluBinary divResult dst b s) = .next (haltFailure (.plain .divisionByZero) s)) :=
  ⟨fun nonzero => finish_aluBinary_ok dstOk value (divResult_of_ne_zero _ nonzero),
    fun zero => finish_aluBinary_error dstOk value (divResult_of_eq_zero _ zero)⟩

/-- Both outcomes of a remainder, by the divisor (42_alu.md R179). -/
theorem finish_aluBinary_modResult (dstOk : regIdOk dst = true) (value : b.value s = .ok y) :
    (y ≠ 0 → finish s (aluBinary modResult dst b s) =
      .next (regWritten s dst
        (BitVec.ofNat 64 ((s.x dst).toNat - y.toNat * ((s.x dst).toNat / y.toNat))))) ∧
    (y = 0 → finish s (aluBinary modResult dst b s) = .next (haltFailure (.plain .divisionByZero) s)) :=
  ⟨fun nonzero => finish_aluBinary_ok dstOk value (modResult_of_ne_zero _ nonzero),
    fun zero => finish_aluBinary_error dstOk value (modResult_of_eq_zero _ zero)⟩

end

/-! ## The statements

Each instruction's exec is the template on its operand, and each row is read off the map. -/

/-- Settles O1: a wrapped sum, difference or product cannot fail; the product wrapped is the exact product's low word. -/
theorem addSubtractMultiplyResults : Obligations.AddSubtractMultiplyResults := by
  intro p s dst src imm dstOk srcOk
  have immValue := operand_value_imm imm s
  have regValue := operand_value_reg srcOk s
  exact ⟨⟨rowIs_of_baseOpcodeRows rfl p, finish_aluBinary_ok dstOk immValue rfl⟩,
    ⟨rowIs_of_baseOpcodeRows rfl p, finish_aluBinary_ok dstOk regValue rfl⟩,
    ⟨rowIs_of_baseOpcodeRows rfl p, finish_aluBinary_ok dstOk immValue rfl⟩,
    ⟨rowIs_of_baseOpcodeRows rfl p, finish_aluBinary_ok dstOk regValue rfl⟩,
    ⟨rowIs_of_baseOpcodeRows rfl p, finish_aluBinary_ok dstOk immValue (mulResult_eq _ _)⟩,
    ⟨rowIs_of_baseOpcodeRows rfl p, finish_aluBinary_ok dstOk regValue (mulResult_eq _ _)⟩⟩

/-- Settles O2: whether the divisor is zero decides between the result and the halt. -/
theorem divideRemainderResults : Obligations.DivideRemainderResults := by
  intro p s dst src imm dstOk srcOk
  have immValue := operand_value_imm imm s
  have regValue := operand_value_reg srcOk s
  exact ⟨⟨rowIs_of_baseOpcodeRows rfl p, finish_aluBinary_divResult dstOk immValue⟩,
    ⟨rowIs_of_baseOpcodeRows rfl p, finish_aluBinary_divResult dstOk regValue⟩,
    ⟨rowIs_of_baseOpcodeRows rfl p, finish_aluBinary_modResult dstOk immValue⟩,
    ⟨rowIs_of_baseOpcodeRows rfl p, finish_aluBinary_modResult dstOk regValue⟩⟩

/-- Settles O3: a bitwise result cannot fail. -/
theorem bitwiseResults : Obligations.BitwiseResults := by
  intro p s dst src imm dstOk srcOk
  have immValue := operand_value_imm imm s
  have regValue := operand_value_reg srcOk s
  exact ⟨⟨rowIs_of_baseOpcodeRows rfl p, finish_aluBinary_ok dstOk immValue rfl⟩,
    ⟨rowIs_of_baseOpcodeRows rfl p, finish_aluBinary_ok dstOk regValue rfl⟩,
    ⟨rowIs_of_baseOpcodeRows rfl p, finish_aluBinary_ok dstOk immValue rfl⟩,
    ⟨rowIs_of_baseOpcodeRows rfl p, finish_aluBinary_ok dstOk regValue rfl⟩,
    ⟨rowIs_of_baseOpcodeRows rfl p, finish_aluBinary_ok dstOk immValue rfl⟩,
    ⟨rowIs_of_baseOpcodeRows rfl p, finish_aluBinary_ok dstOk regValue rfl⟩⟩

/-- Settles O4: the amount the model masks out of the operand is the operand modulo 64. -/
theorem shiftResults : Obligations.ShiftResults := by
  intro p s dst src imm dstOk srcOk
  have immValue := operand_value_imm imm s
  have regValue := operand_value_reg srcOk s
  exact ⟨⟨rowIs_of_baseOpcodeRows rfl p, finish_aluBinary_ok dstOk immValue (lshResult_eq _ _)⟩,
    ⟨rowIs_of_baseOpcodeRows rfl p, finish_aluBinary_ok dstOk regValue (lshResult_eq _ _)⟩,
    ⟨rowIs_of_baseOpcodeRows rfl p, finish_aluBinary_ok dstOk immValue (rshResult_eq _ _)⟩,
    ⟨rowIs_of_baseOpcodeRows rfl p, finish_aluBinary_ok dstOk regValue (rshResult_eq _ _)⟩,
    ⟨rowIs_of_baseOpcodeRows rfl p, finish_aluBinary_ok dstOk immValue (arshResult_eq _ _)⟩,
    ⟨rowIs_of_baseOpcodeRows rfl p, finish_aluBinary_ok dstOk regValue (arshResult_eq _ _)⟩⟩

/-- Settles O5: a negation reads only its destination, a move only its operand. -/
theorem negateMoveResults : Obligations.NegateMoveResults := by
  intro p s dst src imm dstOk srcOk
  have immValue := operand_value_imm imm s
  have regValue := operand_value_reg srcOk s
  exact ⟨⟨rowIs_of_baseOpcodeRows rfl p, finish_aluNegate dstOk⟩,
    ⟨rowIs_of_baseOpcodeRows rfl p, finish_aluMove dstOk immValue⟩,
    ⟨rowIs_of_baseOpcodeRows rfl p, finish_aluMove dstOk regValue⟩⟩

end Sys2Proof.Machine
end


-- ==== Sys2Proof/Proofs/LoadStore.lean ====
section
/-! SUPPORT. The loads and the stores (43_load_store.md R220 to R235): the word a load reads as the sum of 20_memory.md
R62, and both outcomes of each addressing template, by the bounds of its effective address. -/

namespace Sys2Proof.Machine

/-! ## The word a load reads -/

theorem Memory.readLE_eq_ofNat_littleEndian (m : Memory) (a : Nat) {n : Nat} (hn : n ≤ 8) :
    Memory.readLE m a n = BitVec.ofNat 64 (littleEndian m a n) := by
  rw [← Memory.toNat_readLE m a hn, BitVec.ofNat_toNat, BitVec.setWidth_eq]

/-! ## The outcomes of the templates -/

section
variable {s : State} {dst src : RegId}

/-- Both outcomes of a load from an effective address (20_memory.md R62, 43_load_store.md R235). -/
theorem finish_loadInto (dstOk : regIdOk dst = true) (ea : Word) (n : Width) :
    (ea.toNat + n.bytes ≤ s.params.memCapacity → finish s (loadInto dst ea n s) =
      .next (regWritten s dst (BitVec.ofNat 64 (littleEndian s.mem ea.toNat n.bytes)))) ∧
    (s.params.memCapacity < ea.toNat + n.bytes → finish s (loadInto dst ea n s) =
      .next (haltFailure (.outOfBounds ea n) s)) := by
  constructor
  · intro inside
    rw [← Memory.readLE_eq_ofNat_littleEndian s.mem ea.toNat n.bytes_le_eight]
    exact finish_next.2 (.inl (loadInto_ok.2 ⟨dstOk, inBounds_iff.2 inside, rfl⟩))
  · intro outside
    exact finish_next.2
      (.inr ⟨_, loadInto_error.2 (.inl ⟨inBounds_eq_false_iff.2 outside, rfl⟩), rfl⟩)

/-- The base register is read in the state the load starts from, so also when it is the destination (43_load_store.md
R235). -/
theorem loadIndirect_eq_loadInto (srcOk : regIdOk src = true) (off : BitVec 16) (n : Width) :
    loadIndirect dst src off n s = loadInto dst (indAddress (s.x src) off) n s := by
  rw [loadIndirect, readReg_ok.2 ⟨srcOk, rfl⟩]
  rfl

/-- Both outcomes of an indirect load (43_load_store.md R220). -/
theorem finish_loadIndirect (dstOk : regIdOk dst = true) (srcOk : regIdOk src = true) (off : BitVec 16) (n : Width) :
    ((s.x src + off.signExtend 64).toNat + n.bytes ≤ s.params.memCapacity →
      finish s (loadIndirect dst src off n s) = .next (regWritten s dst
        (BitVec.ofNat 64 (littleEndian s.mem (s.x src + off.signExtend 64).toNat n.bytes)))) ∧
    (s.params.memCapacity < (s.x src + off.signExtend 64).toNat + n.bytes →
      finish s (loadIndirect dst src off n s) =
        .next (haltFailure (.outOfBounds (s.x src + off.signExtend 64) n) s)) := by
  rw [loadIndirect_eq_loadInto srcOk]
  exact finish_loadInto dstOk (indAddress (s.x src) off) n

/-- Both outcomes of a store (20_memory.md R63, 43_load_store.md R220). -/
theorem finish_storeIndirect (dstOk : regIdOk dst = true) (srcOk : regIdOk src = true)
    (canonical : Memory.wf s.mem = true) (off : BitVec 16) (n : Width) :
    ((s.x dst + off.signExtend 64).toNat + n.bytes ≤ s.params.memCapacity →
      ∃ m, finish s (storeIndirect dst src off n s) = .next (memWritten s m) ∧
        StoredAt s.mem m (s.x dst + off.signExtend 64).toNat n.bytes (s.x src)) ∧
    (s.params.memCapacity < (s.x dst + off.signExtend 64).toNat + n.bytes →
      finish s (storeIndirect dst src off n s) =
        .next (haltFailure (.outOfBounds (s.x dst + off.signExtend 64) n) s)) := by
  constructor
  · intro inside
    exact ⟨Memory.writeLE s.mem (indAddress (s.x dst) off).toNat n.bytes (s.x src),
      finish_next.2 (.inl (storeIndirect_ok.2 ⟨dstOk, srcOk, inBounds_iff.2 inside, rfl⟩)),
      Memory.storedAt_writeLE canonical _ _ _⟩
  · intro outside
    have idsOk : (regIdOk dst && regIdOk src) = true := by rw [dstOk, srcOk]; rfl
    exact finish_next.2
      (.inr ⟨_, storeIndirect_error.2 (.inr ⟨idsOk, inBounds_eq_false_iff.2 outside, rfl⟩), rfl⟩)

end

/-! ## The statements

Each instruction's exec is its template at one width, and each row is read off the map. -/

/-- Settles O7: the bounds of the sign-extended immediate decide between the load and the halt. -/
theorem absoluteLoadResults : Obligations.AbsoluteLoadResults := by
  intro p s dst imm dstOk
  have load := finish_loadInto (s := s) dstOk (absAddress imm)
  exact ⟨⟨rowIs_of_baseOpcodeRows rfl p, load .b⟩, ⟨rowIs_of_baseOpcodeRows rfl p, load .h⟩,
    ⟨rowIs_of_baseOpcodeRows rfl p, load .w⟩, ⟨rowIs_of_baseOpcodeRows rfl p, load .dw⟩⟩

/-- Settles O8: the bounds of base plus displacement, wrapped, decide between the load and the halt. -/
theorem indirectLoadResults : Obligations.IndirectLoadResults := by
  intro p s dst src off dstOk srcOk
  have load := finish_loadIndirect (s := s) dstOk srcOk off
  exact ⟨⟨rowIs_of_baseOpcodeRows rfl p, load .b⟩, ⟨rowIs_of_baseOpcodeRows rfl p, load .h⟩,
    ⟨rowIs_of_baseOpcodeRows rfl p, load .w⟩, ⟨rowIs_of_baseOpcodeRows rfl p, load .dw⟩⟩

/-- Settles O9: the bounds of the wrapped address decide between the bytes written and the halt. -/
theorem storeResults : Obligations.StoreResults := by
  intro p s dst src off dstOk srcOk canonical
  have store := finish_storeIndirect dstOk srcOk canonical off
  exact ⟨⟨rowIs_of_baseOpcodeRows rfl p, store .b⟩, ⟨rowIs_of_baseOpcodeRows rfl p, store .h⟩,
    ⟨rowIs_of_baseOpcodeRows rfl p, store .w⟩, ⟨rowIs_of_baseOpcodeRows rfl p, store .dw⟩⟩

end Sys2Proof.Machine
end


-- ==== Sys2Proof/Proofs/Branch.lean ====
section
/-! SUPPORT. The jumps (44_branch.md R250 to R271): each comparison as the relation its rule writes, and the two ends of
the template of R250 in one rule. -/

namespace Sys2Proof.Machine

/-! ## The comparisons -/

section
variable {a b : Word}

theorem condEq_iff : condEq a b = true ↔ a = b := beq_iff_eq

theorem condNe_iff : condNe a b = true ↔ a ≠ b := bne_iff_ne

theorem condGt_iff : condGt a b = true ↔ a.toNat > b.toNat := BitVec.ult_iff_toNat_lt

theorem condGe_iff : condGe a b = true ↔ a.toNat ≥ b.toNat := BitVec.ule_iff_toNat_le

theorem condLt_iff : condLt a b = true ↔ a.toNat < b.toNat := BitVec.ult_iff_toNat_lt

theorem condLe_iff : condLe a b = true ↔ a.toNat ≤ b.toNat := BitVec.ule_iff_toNat_le

theorem condSgt_iff : condSgt a b = true ↔ a.toInt > b.toInt := BitVec.slt_iff_toInt_lt

theorem condSge_iff : condSge a b = true ↔ a.toInt ≥ b.toInt := BitVec.sle_iff_toInt_le

theorem condSlt_iff : condSlt a b = true ↔ a.toInt < b.toInt := BitVec.slt_iff_toInt_lt

theorem condSle_iff : condSle a b = true ↔ a.toInt ≤ b.toInt := BitVec.sle_iff_toInt_le

end

/-! ## The template -/

/-- Taken and not taken, by what the comparison says of its operands (44_branch.md R250). -/
theorem finish_condJump {cond : Word → Word → Bool} {s : State} {dst : RegId} {b : Operand} {y : Word}
    {taken : Prop} [Decidable taken] (dstOk : regIdOk dst = true) (value : b.value s = .ok y)
    (comparison : cond (s.x dst) y = true ↔ taken) (off : BitVec 16) :
    finish s (condJump cond dst b off s) =
      .next (jumped s (if taken then s.pc + off.signExtend 64 else s.pc + 1)) := by
  rw [← if_congr comparison rfl rfl]
  exact finish_next.2 (.inl (condJump_ok.2 ⟨dstOk, y, value, rfl⟩))

/-! ## The statements

Each instruction's exec is the template on its comparison and operand, and each row is read off the map. -/

/-- Settles O10: `ja` is the displacement alone, with no comparison and no default advance. -/
theorem jumpAlwaysResult : Obligations.JumpAlwaysResult := by
  intro p s off
  exact ⟨rowIs_of_baseOpcodeRows rfl p, (finish_next (s := s)).2 (.inl rfl)⟩

/-- Settles O11: the comparison is equality of the two words, or its negation. -/
theorem equalityJumpResults : Obligations.EqualityJumpResults := by
  intro p s dst src imm off dstOk srcOk
  have immValue := operand_value_imm imm s
  have regValue := operand_value_reg srcOk s
  exact ⟨⟨rowIs_of_baseOpcodeRows rfl p, finish_condJump dstOk immValue condEq_iff off⟩,
    ⟨rowIs_of_baseOpcodeRows rfl p, finish_condJump dstOk regValue condEq_iff off⟩,
    ⟨rowIs_of_baseOpcodeRows rfl p, finish_condJump dstOk immValue condNe_iff off⟩,
    ⟨rowIs_of_baseOpcodeRows rfl p, finish_condJump dstOk regValue condNe_iff off⟩⟩

/-- Settles O12: the comparison is the order of the operands' unsigned values. -/
theorem unsignedJumpResults : Obligations.UnsignedJumpResults := by
  intro p s dst src imm off dstOk srcOk
  have immValue := operand_value_imm imm s
  have regValue := operand_value_reg srcOk s
  exact ⟨⟨rowIs_of_baseOpcodeRows rfl p, finish_condJump dstOk immValue condGt_iff off⟩,
    ⟨rowIs_of_baseOpcodeRows rfl p, finish_condJump dstOk regValue condGt_iff off⟩,
    ⟨rowIs_of_baseOpcodeRows rfl p, finish_condJump dstOk immValue condGe_iff off⟩,
    ⟨rowIs_of_baseOpcodeRows rfl p, finish_condJump dstOk regValue condGe_iff off⟩,
    ⟨rowIs_of_baseOpcodeRows rfl p, finish_condJump dstOk immValue condLt_iff off⟩,
    ⟨rowIs_of_baseOpcodeRows rfl p, finish_condJump dstOk regValue condLt_iff off⟩,
    ⟨rowIs_of_baseOpcodeRows rfl p, finish_condJump dstOk immValue condLe_iff off⟩,
    ⟨rowIs_of_baseOpcodeRows rfl p, finish_condJump dstOk regValue condLe_iff off⟩⟩

/-- Settles O13: the comparison is the order of the operands' signed values; sign extension keeps the immediate's. -/
theorem signedJumpResults : Obligations.SignedJumpResults := by
  intro p s dst src imm off dstOk srcOk
  have immValue := operand_value_imm imm s
  have regValue := operand_value_reg srcOk s
  have immSigned : (imm.signExtend 64).toInt = imm.toInt := BitVec.toInt_signExtend_of_le (by decide)
  rw [← immSigned]
  exact ⟨⟨rowIs_of_baseOpcodeRows rfl p, finish_condJump dstOk immValue condSgt_iff off⟩,
    ⟨rowIs_of_baseOpcodeRows rfl p, finish_condJump dstOk regValue condSgt_iff off⟩,
    ⟨rowIs_of_baseOpcodeRows rfl p, finish_condJump dstOk immValue condSge_iff off⟩,
    ⟨rowIs_of_baseOpcodeRows rfl p, finish_condJump dstOk regValue condSge_iff off⟩,
    ⟨rowIs_of_baseOpcodeRows rfl p, finish_condJump dstOk immValue condSlt_iff off⟩,
    ⟨rowIs_of_baseOpcodeRows rfl p, finish_condJump dstOk regValue condSlt_iff off⟩,
    ⟨rowIs_of_baseOpcodeRows rfl p, finish_condJump dstOk immValue condSle_iff off⟩,
    ⟨rowIs_of_baseOpcodeRows rfl p, finish_condJump dstOk regValue condSle_iff off⟩⟩

end Sys2Proof.Machine
end


-- ==== Sys2Proof/Proofs/Checkpoint.lean ====
section
/-! SUPPORT. The commands of the checkpoint engine (46_checkpoint.md R311 to R318, R327): when each one is refused, beside
the rules of Laws that say when it succeeds, and the two ways the host port passes the outcome on. -/

namespace Sys2Proof.Machine

/-! ## The transaction flag -/

theorem State.txnOpen_eq_false_iff {s : State} : s.txnOpen = false ↔ s.ckpt.txnBase = none :=
  Option.isSome_eq_false_iff.trans Option.isNone_iff_eq_none

/-! ## Refusals

NoCheckpointAvailable is the only error these five commands have. -/

section
variable {s : State} {k : FailKind}

theorem beginTransaction_error {cu cyc : Word} :
    beginTransaction cu cyc s = .error k ↔ s.txnOpen = true ∧ k = .noCheckpointAvailable := by
  cases opened : s.txnOpen <;> simp [beginTransaction, opened, eq_comm]

theorem commitTransaction_error :
    commitTransaction s = .error k ↔
      (s.ckpt.txnBase = none ∨ s.ckpt.stack ≠ []) ∧ k = .noCheckpointAvailable := by
  have refused : (!s.txnOpen || decide (s.ckptDepth > 0)) = true ↔ s.ckpt.txnBase = none ∨ s.ckpt.stack ≠ [] := by
    simp [State.ckptDepth, State.txnOpen_eq_false_iff, List.length_pos_iff]
  rw [← refused]
  unfold commitTransaction
  split <;> simp [*, eq_comm]

theorem rollbackTransaction_error :
    rollbackTransaction s = .error k ↔ s.ckpt.txnBase = none ∧ k = .noCheckpointAvailable := by
  cases base : s.ckpt.txnBase <;> simp [rollbackTransaction, base, eq_comm]

theorem commitCheckpoint_error {id : Word} :
    commitCheckpoint id s = .error k ↔
      (∀ top rest, s.ckpt.stack = top :: rest → id ≠ top.id) ∧ k = .noCheckpointAvailable := by
  unfold commitCheckpoint
  cases s.ckpt.stack with
  | nil => simp [eq_comm]
  | cons top rest => by_cases isTop : id = top.id <;> simp [isTop, eq_comm]

/-- A rollback of a checkpoint is refused when its commit is (46_checkpoint.md R317, R318). -/
theorem rollbackCheckpoint_error {id : Word} :
    rollbackCheckpoint id s = .error k ↔
      (∀ top rest, s.ckpt.stack = top :: rest → id ≠ top.id) ∧ k = .noCheckpointAvailable := by
  rw [← commitCheckpoint_error]
  unfold rollbackCheckpoint commitCheckpoint
  cases s.ckpt.stack with
  | nil => rfl
  | cons top rest => by_cases isTop : id = top.id <;> simp [isTop]

end

/-! ## The host port's answer -/

theorem answer_of_ok (s : State) {t : State} {r : Except FailKind State} (done : r = .ok t) :
    answer s r = (some .done, t) := by rw [done]; rfl

theorem answer_of_error (s : State) {k : FailKind} {r : Except FailKind State} (refused : r = .error k) :
    answer s r = (some (.error k), s) := by rw [refused]; rfl

theorem logRead_of_lt {s : State} {i : Word} (h : i.toNat < s.log.length) : logRead i s = .entry s.log[i.toNat] := by
  simp [logRead, h]

theorem logRead_of_le {s : State} {i : Word} (h : s.log.length ≤ i.toNat) : logRead i s = .error .memoryOutOfBounds := by
  simp [logRead, h]

/-! ## The statements -/

/-- Settles O42: the model's two functions name the statement's fields one by one. -/
theorem captureAndRestoreFields : Obligations.CaptureAndRestoreFields := fun _ _ => ⟨rfl, rfl⟩

/-- Settles O43: each command's success and refusal, as the host port answers them. -/
theorem transactionCommands : Obligations.TransactionCommands := by
  intro s cu cyc
  refine ⟨?beginRefused, ?begin, ?commitRefused, ?commit, ?rollbackRefused, ?rollback⟩
  case beginRefused =>
    intro opened
    exact answer_of_error s (beginTransaction_error.2 ⟨opened, rfl⟩)
  case begin =>
    intro closed
    exact answer_of_ok s (beginTransaction_ok.2 ⟨State.txnOpen_eq_false_iff.2 closed, rfl⟩)
  case commitRefused =>
    intro unresolved
    exact answer_of_error s (commitTransaction_error.2 ⟨unresolved, rfl⟩)
  case commit =>
    intro opened noCheckpoint
    exact answer_of_ok s (commitTransaction_ok.2 ⟨opened, noCheckpoint, rfl⟩)
  case rollbackRefused =>
    intro closed
    exact answer_of_error s (rollbackTransaction_error.2 ⟨closed, rfl⟩)
  case rollback =>
    intro base opened
    exact answer_of_ok s (rollbackTransaction_ok.2 ⟨base, opened, rfl⟩)

/-- Settles O45: both commands succeed on the id on top and are refused on every other. -/
theorem resolveCheckpointCommands : Obligations.ResolveCheckpointCommands := by
  intro s id
  constructor
  · intro notTop
    exact ⟨answer_of_error s (commitCheckpoint_error.2 ⟨notTop, rfl⟩),
      answer_of_error s (rollbackCheckpoint_error.2 ⟨notTop, rfl⟩)⟩
  · intro top rest stack isTop
    exact ⟨answer_of_ok s (commitCheckpoint_ok.2 ⟨top, rest, stack, isTop, rfl⟩),
      answer_of_ok s (rollbackCheckpoint_ok.2 ⟨top, rest, stack, isTop, rfl⟩)⟩

/-- Settles O46: LOG_LEN splits the reads; the other three commands have no condition. -/
theorem logAndAccountCommands : Obligations.LogAndAccountCommands := by
  intro s e i a
  have readAnswer : hostCommand (.logRead i) s = (some (logRead i s), s) := rfl
  refine ⟨rfl, ?inside, ?outside, rfl, rfl⟩
  case inside =>
    intro below
    rw [readAnswer, logRead_of_lt below]
  case outside =>
    intro above
    rw [readAnswer, logRead_of_le above]

end Sys2Proof.Machine
end

