-- ==== Sys2Proof/Proofs/Decoder.lean ====
section
/-! SUPPORT. The decoder against the encoder (30_encoding.md R80 to R103): the map has one row for each opcode byte, the
bytes of an instruction decode to a record that stands for it, and a stream is decoded instruction by instruction up to
its first failure. -/

namespace Sys2Proof.Machine

/-! ## The opcode map -/

/-- A byte selects no row of a table exactly when no row begins with it (30_encoding.md R90). -/
theorem lookup_eq_none_iff_not_mem {α : Type} {rows : List (Byte × α)} {opc : Byte} :
    rows.lookup opc = none ↔ opc ∉ rows.map Prod.fst := by
  rw [List.lookup_eq_none_iff]
  grind

theorem instr?_isNone_iff {p : Params} {d : Decoded} :
    (d.instr? p).isNone = true ↔ d.opc ∉ (opcodeMap p).map Prod.fst := by
  rw [← lookup_eq_none_iff_not_mem]
  simp [Decoded.instr?]

/-- An extension row holds when its byte is no base row's: the base rows are searched first (30_encoding.md R92). -/
theorem rowIs_of_extOpcodeRows {p : Params} {opc : Byte} {make : Decoded → Instr}
    (fresh : opc ∉ baseOpcodeRows.map Prod.fst) (row : (extOpcodeRows p).lookup opc = some make) :
    RowIs p opc make := by
  rintro d rfl
  simp [Decoded.instr?, opcodeMap, List.lookup_append, lookup_eq_none_iff_not_mem.2 fresh, row]

section
variable {p : Params} (valid : p.Valid)
include valid

theorem rowIs_extInvoke : RowIs p p.extInvoke (formatExt .invoke) := by
  obtain ⟨-, -, -, -, -, -, -, -, -, invokeFresh, -, -⟩ := valid
  exact rowIs_of_extOpcodeRows invokeFresh (by simp [extOpcodeRows])

theorem rowIs_extLog : RowIs p p.extLog (formatExt .log) := by
  obtain ⟨-, -, -, -, -, -, invokeLog, -, -, -, logFresh, -⟩ := valid
  exact rowIs_of_extOpcodeRows logFresh (by simp [extOpcodeRows, List.lookup_cons, beq_false_of_ne invokeLog.symm])

theorem rowIs_extReturn : RowIs p p.extReturn (formatExt .cpiReturn) := by
  obtain ⟨-, -, -, -, -, -, -, invokeReturn, logReturn, -, -, returnFresh⟩ := valid
  have row : (extOpcodeRows p).lookup p.extReturn = some (formatExt .cpiReturn) := by
    simp [extOpcodeRows, List.lookup_cons, beq_false_of_ne invokeReturn.symm, beq_false_of_ne logReturn.symm]
  exact rowIs_of_extOpcodeRows returnFresh row

/-- The wide form's opcode is a base row, so no extension row is wide (30_encoding.md R98). -/
theorem ext_ne_wideOpcode : p.extInvoke ≠ wideOpcode ∧ p.extLog ≠ wideOpcode ∧ p.extReturn ≠ wideOpcode := by
  obtain ⟨-, -, -, -, -, -, -, -, -, invokeFresh, logFresh, returnFresh⟩ := valid
  have wideRow : wideOpcode ∈ baseOpcodeRows.map Prod.fst := by decide
  exact ⟨fun h => invokeFresh (h ▸ wideRow), fun h => logFresh (h ▸ wideRow), fun h => returnFresh (h ▸ wideRow)⟩

end

/-! ## The bytes of one instruction -/

/-- The record of an 8-byte instruction with these fields (30_encoding.md R91). -/
def slotRecord (opc : Byte) (dst src : RegId) (off : BitVec 16) (imm : BitVec 32) : Decoded :=
  { opc, dst, src, off := off.signExtend 64, imm := imm.signExtend 64 }

/-- The record of a wide instruction with these fields (30_encoding.md R85, R91). -/
def wideRecord (dst : RegId) (imm : BitVec 64) : Decoded :=
  { opc := wideOpcode, dst, src := 0, off := (0 : BitVec 16).signExtend 64, imm }

section
variable (opc : Byte) (dst src : RegId) (off : BitVec 16) (imm : BitVec 32)

@[simp] theorem slotRecord_dst : (slotRecord opc dst src off imm).dst = dst := rfl

@[simp] theorem slotRecord_src : (slotRecord opc dst src off imm).src = src := rfl

@[simp] theorem slotRecord_off16 : (slotRecord opc dst src off imm).off16 = off :=
  signExtend_setWidth (by decide) off

@[simp] theorem slotRecord_imm32 : (slotRecord opc dst src off imm).imm32 = imm :=
  signExtend_setWidth (by decide) imm

end

theorem imm64_bytes (v : BitVec 64) :
    ((v.extractLsb' 32 32).extractLsb' 24 8 ++ (v.extractLsb' 32 32).extractLsb' 16 8 ++
        (v.extractLsb' 32 32).extractLsb' 8 8 ++ (v.extractLsb' 32 32).extractLsb' 0 8 ++
        (v.extractLsb' 0 32).extractLsb' 24 8 ++ (v.extractLsb' 0 32).extractLsb' 16 8 ++
        (v.extractLsb' 0 32).extractLsb' 8 8 ++ (v.extractLsb' 0 32).extractLsb' 0 8 : BitVec 64) = v := by
  apply BitVec.eq_of_getLsbD_eq
  intro i hi
  simp only [BitVec.getLsbD_append, BitVec.getLsbD_extractLsb']
  grind

theorem decodeFields_encodeSlot {opc : Byte} (narrow : opc ≠ wideOpcode) (dst src : RegId) (off : BitVec 16)
    (imm : BitVec 32) (rest : List Byte) :
    decodeFields (encodeSlot opc dst src off imm ++ rest) = some (slotRecord opc dst src off imm) := by
  simp only [encodeSlot, headBytes, imm32Bytes, List.cons_append, List.nil_append, decodeFields, narrow, if_false,
    registers_low, registers_high, off_bytes, imm_bytes, slotRecord]

theorem decodeFields_encodeWide (dst : RegId) (imm : BitVec 64) (rest : List Byte) :
    decodeFields (encodeWide wideOpcode dst imm ++ rest) = some (wideRecord dst imm) := by
  simp only [encodeWide, headBytes, imm32Bytes, List.cons_append, List.nil_append, decodeFields, if_true,
    registers_low, registers_high, off_bytes, imm64_bytes, wideRecord]

/-- The bytes are an instruction's own: they have its length, and whatever follows them the decoder takes exactly them
as a record that stands for it. -/
def DecodesTo (p : Params) (bytes : List Byte) (i : Instr) : Prop :=
  bytes.length = i.length ∧
    ∀ rest, ∃ d, decodeOne p (bytes ++ rest) = .ok (d, i.length) ∧ d.instr? p = some i

/-- An 8-byte slot decodes to what its row makes of its fields, its two register ids being in range. -/
theorem decodesTo_encodeSlot {p : Params} {opc : Byte} {make : Decoded → Instr} {dst src : RegId} {off : BitVec 16}
    {imm : BitVec 32} {i : Instr} (row : RowIs p opc make) (narrow : opc ≠ wideOpcode)
    (stands : make (slotRecord opc dst src off imm) = i) (slotLength : i.length = 8)
    (checks : i.wellFormed = (regIdOk dst && regIdOk src)) (wf : i.wellFormed = true) :
    DecodesTo p (encodeSlot opc dst src off imm) i := by
  refine ⟨slotLength ▸ rfl, fun rest => ⟨slotRecord opc dst src off imm, decodeOne_ok.2 ?_, ?stands⟩⟩
  case stands => rw [row _ rfl, stands]
  obtain ⟨dstOk, srcOk⟩ := Bool.and_eq_true_iff.1 (checks ▸ wf)
  have length8 : i.length = opcodeLength opc := by rw [slotLength, opcodeLength, if_neg narrow]
  exact ⟨decodeFields_encodeSlot narrow dst src off imm rest, dstOk, srcOk, by rw [row _ rfl]; rfl, length8⟩

theorem decodesTo_encodeWide {p : Params} {dst : RegId} (imm : BitVec 64)
    (wf : (Instr.lddw dst imm).wellFormed = true) :
    DecodesTo p (encodeWide wideOpcode dst imm) (.lddw dst imm) := by
  have row : RowIs p wideOpcode (formatLdImm64 .lddw) := rowIs_of_baseOpcodeRows rfl p
  have dstOk : regIdOk dst = true := (Bool.and_eq_true_iff.1 wf).1
  exact ⟨rfl, fun rest => ⟨wideRecord dst imm,
    decodeOne_ok.2 ⟨decodeFields_encodeWide dst imm rest, dstOk, rfl, by rw [row _ rfl]; rfl, rfl⟩, row _ rfl⟩⟩

/-- Every well-formed instruction's bytes are its own: its row is the map's, and its format keeps each field it uses. -/
theorem decodesTo_encode {p : Params} (valid : p.Valid) {i : Instr} (wf : i.wellFormed = true) :
    DecodesTo p (encode p i) i := by
  obtain ⟨invokeNarrow, logNarrow, returnNarrow⟩ := ext_ne_wideOpcode valid
  cases i with
  | add64Imm | sub64Imm | mul64Imm | div64Imm | or64Imm | and64Imm | lsh64Imm | rsh64Imm | mod64Imm | xor64Imm
  | mov64Imm | arsh64Imm =>
    exact decodesTo_encodeSlot (rowIs_of_baseOpcodeRows rfl p) (by decide) (by simp [formatAluImm]) rfl rfl wf
  | add64Reg | sub64Reg | mul64Reg | div64Reg | or64Reg | and64Reg | lsh64Reg | rsh64Reg | mod64Reg | xor64Reg
  | mov64Reg | arsh64Reg | neg64 =>
    exact decodesTo_encodeSlot (rowIs_of_baseOpcodeRows rfl p) (by decide) rfl rfl rfl wf
  | lddw dst imm => exact decodesTo_encodeWide imm wf
  | ldabsb | ldabsh | ldabsw | ldabsdw =>
    exact decodesTo_encodeSlot (rowIs_of_baseOpcodeRows rfl p) (by decide) (by simp [formatLdAbs]) rfl rfl wf
  | ldxb | ldxh | ldxw | ldxdw =>
    exact decodesTo_encodeSlot (rowIs_of_baseOpcodeRows rfl p) (by decide) (by simp [formatLdx]) rfl rfl wf
  | stxb | stxh | stxw | stxdw =>
    exact decodesTo_encodeSlot (rowIs_of_baseOpcodeRows rfl p) (by decide) (by simp [formatStx]) rfl rfl wf
  | ja => exact decodesTo_encodeSlot (rowIs_of_baseOpcodeRows rfl p) (by decide) (by simp [formatJa]) rfl rfl wf
  | jeqImm | jgtImm | jgeImm | jltImm | jleImm | jneImm | jsgtImm | jsgeImm | jsltImm | jsleImm =>
    exact decodesTo_encodeSlot (rowIs_of_baseOpcodeRows rfl p) (by decide) (by simp [formatJmpImm]) rfl rfl wf
  | jeqReg | jgtReg | jgeReg | jltReg | jleReg | jneReg | jsgtReg | jsgeReg | jsltReg | jsleReg =>
    exact decodesTo_encodeSlot (rowIs_of_baseOpcodeRows rfl p) (by decide) (by simp [formatJmpReg]) rfl rfl wf
  | call => exact decodesTo_encodeSlot (rowIs_of_baseOpcodeRows rfl p) (by decide) (by simp [formatCall]) rfl rfl wf
  | exit => exact decodesTo_encodeSlot (rowIs_of_baseOpcodeRows rfl p) (by decide) rfl rfl rfl wf
  | invoke => exact decodesTo_encodeSlot (rowIs_extInvoke valid) invokeNarrow rfl rfl rfl wf
  | log => exact decodesTo_encodeSlot (rowIs_extLog valid) logNarrow rfl rfl rfl wf
  | cpiReturn => exact decodesTo_encodeSlot (rowIs_extReturn valid) returnNarrow rfl rfl rfl wf

/-! ## What DecodeOne answers at the head of a stream -/

theorem decodeOne_of_truncated {p : Params} {bytes : List Byte} (ended : decodeFields bytes = none) :
    decodeOne p bytes = .error .truncatedInstruction := by
  simp [decodeOne, ended]

theorem eight_le_opcodeLength (opc : Byte) : 8 ≤ opcodeLength opc := by
  unfold opcodeLength
  split <;> omega

theorem regIdOk_iff_le {r : RegId} : regIdOk r = true ↔ r.toNat ≤ 10 := by
  rw [regIdOk, decide_eq_true_eq]
  omega

theorem toNat_low_nibble (b : Byte) : (b.extractLsb' 0 4).toNat = b.toNat % 16 := by
  simp

theorem toNat_high_nibble (b : Byte) : (b.extractLsb' 4 4).toNat = b.toNat / 16 := by
  have := b.isLt
  simp [Nat.shiftRight_eq_div_pow]
  omega

section
variable {p : Params} {d : Decoded} {bytes : List Byte} (whole : decodeFields bytes = some d)
include whole

/-- The register check comes before the opcode's (30_encoding.md R89, 60_exceptions.md R354). -/
theorem decodeOne_of_bad_register (bad : ¬ (regIdOk d.dst = true ∧ regIdOk d.src = true)) :
    decodeOne p bytes = .error .invalidRegister := by
  simp only [decodeOne, whole, ← Bool.and_eq_true, Bool.not_eq_true] at bad ⊢
  simp [bad]

theorem decodeOne_of_unknown_opcode (dstOk : regIdOk d.dst = true) (srcOk : regIdOk d.src = true)
    (unknown : d.opc ∉ (opcodeMap p).map Prod.fst) : decodeOne p bytes = .error .invalidOpcode := by
  simp only [decodeOne, whole, dstOk, srcOk, instr?_isNone_iff.2 unknown]
  rfl

theorem decodeOne_of_known_opcode (dstOk : regIdOk d.dst = true) (srcOk : regIdOk d.src = true)
    (known : d.opc ∈ (opcodeMap p).map Prod.fst) : decodeOne p bytes = .ok (d, opcodeLength d.opc) := by
  have isRow : (d.instr? p).isSome = true := by
    rw [← Option.not_isNone, Bool.not_eq_true', ← Bool.not_eq_true, instr?_isNone_iff, not_not]
    exact known
  exact decodeOne_ok.2 ⟨whole, dstOk, srcOk, isRow, rfl⟩

end

/-! ## Whole programs -/

@[simp] theorem decodeLoop_nil (p : Params) (fuel c i : Nat) : decodeLoop p fuel [] c i = .ok [] := by
  cases fuel <;> rfl

theorem decodeLoop_of_error {p : Params} {bytes : List Byte} {e : DecodeFailure} (nonempty : bytes ≠ [])
    (failed : decodeOne p bytes = .error e) (fuel c i : Nat) :
    decodeLoop p (fuel + 1) bytes c i = .error ⟨e, c, i⟩ := by
  cases bytes with
  | nil => contradiction
  | cons b tail => simp [decodeLoop, failed]

theorem decodeLoop_of_ok {p : Params} {bytes : List Byte} {d : Decoded} {n : Nat}
    (accepted : decodeOne p bytes = .ok (d, n)) (fuel c i : Nat) :
    decodeLoop p (fuel + 1) bytes c i = (decodeLoop p fuel (bytes.drop n) (c + n) (i + 1)).map (d :: ·) := by
  cases bytes with
  | nil => cases accepted
  | cons b tail =>
    simp only [decodeLoop, accepted]
    cases decodeLoop p fuel ((b :: tail).drop n) (c + n) (i + 1) <;> rfl

/-- The decoder goes through the bytes of well-formed instructions one index each and then goes on with the rest of the
stream (30_encoding.md R87, R102). -/
theorem decodeLoop_flatMap_encode {p : Params} (valid : p.Valid) {is : List Instr}
    (wf : ∀ i ∈ is, i.wellFormed = true) (fuel : Nat) (bytes : List Byte) (c k : Nat) :
    ∃ ds : List Decoded, ds.map (fun d => d.instr? p) = is.map some ∧
      decodeLoop p (is.length + fuel) (is.flatMap (encode p) ++ bytes) c k =
        (decodeLoop p fuel bytes (c + (is.map Instr.length).sum) (k + is.length)).map (ds ++ ·) := by
  induction is generalizing c k with
  | nil =>
    refine ⟨[], rfl, ?_⟩
    simp only [List.length_nil, Nat.zero_add, List.flatMap_nil, List.nil_append, List.map_nil, List.sum_nil,
      Nat.add_zero]
    cases decodeLoop p fuel bytes c k <;> rfl
  | cons i is ih =>
    obtain ⟨iWf, isWf⟩ := List.forall_mem_cons.1 wf
    obtain ⟨length, decodes⟩ := decodesTo_encode valid iWf
    obtain ⟨d, accepted, stands⟩ := decodes (is.flatMap (encode p) ++ bytes)
    obtain ⟨ds, standAll, loop⟩ := ih isWf (c + i.length) (k + 1)
    refine ⟨d :: ds, by simp [stands, standAll], ?_⟩
    have fuelSucc : (i :: is).length + fuel = is.length + fuel + 1 := by simp; omega
    have offset : c + i.length + (is.map Instr.length).sum = c + ((i :: is).map Instr.length).sum := by
      simp [Nat.add_assoc]
    have index : k + 1 + is.length = k + (i :: is).length := by simp; omega
    rw [List.flatMap_cons, List.append_assoc, fuelSucc, decodeLoop_of_ok accepted, ← length, List.drop_left, length,
      loop, offset, index]
    cases decodeLoop p fuel bytes (c + ((i :: is).map Instr.length).sum) (k + (i :: is).length) <;> rfl

/-- The stream's length is fuel enough, since no instruction has no bytes. -/
theorem length_le_length_flatMap_encode {p : Params} (valid : p.Valid) {is : List Instr}
    (wf : ∀ i ∈ is, i.wellFormed = true) : is.length ≤ (is.flatMap (encode p)).length := by
  induction is with
  | nil => simp
  | cons i is ih =>
    obtain ⟨iWf, isWf⟩ := List.forall_mem_cons.1 wf
    obtain ⟨-, decodes⟩ := decodesTo_encode valid iWf
    obtain ⟨d, accepted, -⟩ := decodes []
    obtain ⟨atLeast, within⟩ := decodeOne_length accepted
    have rest := ih isWf
    simp only [List.append_nil] at within
    simp only [List.flatMap_cons, List.length_append, List.length_cons]
    omega

/-- The program decoder on the bytes of well-formed instructions followed by more (30_encoding.md R87). -/
theorem decodeProgram_flatMap_encode {p : Params} (valid : p.Valid) {is : List Instr}
    (wf : ∀ i ∈ is, i.wellFormed = true) (bytes : List Byte) :
    ∃ (ds : List Decoded) (fuel : Nat), ds.map (fun d => d.instr? p) = is.map some ∧ bytes.length ≤ fuel ∧
      decodeProgram p (is.flatMap (encode p) ++ bytes) =
        (decodeLoop p fuel bytes (is.map Instr.length).sum is.length).map (ds ++ ·) := by
  obtain ⟨extra, enough⟩ := Nat.exists_eq_add_of_le (length_le_length_flatMap_encode valid wf)
  obtain ⟨ds, standAll, loop⟩ := decodeLoop_flatMap_encode valid wf (extra + bytes.length) bytes 0 0
  refine ⟨ds, extra + bytes.length, standAll, by omega, ?_⟩
  rw [decodeProgram, List.length_append, enough, Nat.add_assoc, loop, Nat.zero_add, Nat.zero_add]

theorem decodeProgram_of_error {p : Params} {bytes : List Byte} {e : DecodeFailure} (nonempty : bytes ≠ [])
    (failed : decodeOne p bytes = .error e) : decodeProgram p bytes = .error ⟨e, 0, 0⟩ := by
  cases bytes with
  | nil => contradiction
  | cons b tail => exact decodeLoop_of_error nonempty failed tail.length 0 0

/-! ## The fields a row uses -/

/-- A row whose instruction is told by a part of the record: records that agree on that part stand for the same
instruction (30_encoding.md R93, R95). -/
def RowUses (p : Params) (opc : Byte) (Agree : Decoded → Decoded → Prop) : Prop :=
  ∃ make, RowIs p opc make ∧ ∀ d d', Agree d d' → make d' = make d

theorem RowUses.of_base {p : Params} {opc : Byte} {make : Decoded → Instr} {Agree : Decoded → Decoded → Prop}
    (row : baseOpcodeRows.lookup opc = some make) (congruent : ∀ d d', Agree d d' → make d' = make d) :
    RowUses p opc Agree :=
  ⟨make, rowIs_of_baseOpcodeRows row p, congruent⟩

theorem instr?_eq_of_rowUses {p : Params} (Agree : Decoded → Decoded → Prop) {d d' : Decoded} {opcodes : List Byte}
    (uses : ∀ opc ∈ opcodes, RowUses p opc Agree) (sameOpcode : d'.opc = d.opc) (mem : d.opc ∈ opcodes)
    (agree : Agree d d') : d'.instr? p = d.instr? p := by
  obtain ⟨make, row, congruent⟩ := uses d.opc mem
  rw [row d rfl, row d' sameOpcode, congruent d d' agree]

/-! ## The statements -/

/-- Settles O54: the bytes are the instruction's own. -/
theorem decodeOfEncodeIsIdentity : Obligations.DecodeOfEncodeIsIdentity := by
  intro p i rest valid wf
  obtain ⟨length, decodes⟩ := decodesTo_encode valid wf
  exact ⟨length, decodes rest⟩

/-- Settles O55: by induction over the program, with nothing after it. -/
theorem decodeProgramOfEncodedInstructions : Obligations.DecodeProgramOfEncodedInstructions := by
  intro p is valid wf
  obtain ⟨ds, fuel, standAll, -, decoded⟩ := decodeProgram_flatMap_encode valid wf []
  refine ⟨ds, ?_, standAll⟩
  rw [← List.append_nil (is.flatMap (encode p)), decoded, decodeLoop_nil]
  simp [Except.map]

/-- Settles O56: no base row repeats, and Params.Valid keeps the three extension bytes apart from each other and from
the base rows. -/
theorem opcodeMapHasNoOverlap : Obligations.OpcodeMapHasNoOverlap := by
  intro p valid
  obtain ⟨-, -, -, -, -, -, invokeLog, invokeReturn, logReturn, invokeFresh, logFresh, returnFresh⟩ := valid
  have baseDistinct : (baseOpcodeRows.map Prod.fst).Nodup := by decide
  have extDistinct : ((extOpcodeRows p).map Prod.fst).Nodup := by
    simp [extOpcodeRows, invokeLog, invokeReturn, logReturn]
  have extFresh : ∀ opc ∈ (extOpcodeRows p).map Prod.fst, opc ∉ baseOpcodeRows.map Prod.fst := by
    exact List.forall_mem_cons.2
      ⟨invokeFresh, List.forall_mem_cons.2 ⟨logFresh, List.forall_mem_singleton.2 returnFresh⟩⟩
  have distinct : ((opcodeMap p).map Prod.fst).Nodup := by
    rw [opcodeMap, List.map_append, List.nodup_append']
    exact ⟨baseDistinct, extDistinct, fun opc inBase inExt => extFresh opc inExt inBase⟩
  exact ⟨rfl, List.pairwise_map.1 distinct⟩

/-- Settles O57: each check of DecodeOne in its order, then the program decoder on a stream that fails at its head,
alone and after well-formed instructions. -/
theorem decodeFailureOrder : Obligations.DecodeFailureOrder := by
  intro p b0 b1 tail bytes
  refine ⟨?short, ?wideShort, ?whole, rfl, fun e => decodeProgram_of_error, ?later⟩
  case short =>
    intro short
    cases bytes with
    | nil => rfl
    | cons b rest =>
      have := eight_le_opcodeLength b
      exact decodeOne_of_truncated ((decodeFields_eq_none b rest).2 (by simp at short; omega))
  case wideShort =>
    rintro rfl rfl short
    exact decodeOne_of_truncated ((decodeFields_eq_none _ _).2 short)
  case whole =>
    rintro rfl least wideLeast
    have inside : ¬ (b1 :: tail).length + 1 < opcodeLength b0 := by
      unfold opcodeLength
      split
      · exact Nat.not_lt.2 (wideLeast ‹_›)
      · exact Nat.not_lt.2 least
    obtain ⟨d, whole⟩ := Option.ne_none_iff_exists'.1 (mt (decodeFields_eq_none b0 (b1 :: tail)).1 inside)
    obtain ⟨rfl, dstField, srcField⟩ := decodeFields_some whole
    have dstOk : regIdOk d.dst = true ↔ b1.toNat % 16 ≤ 10 := by rw [regIdOk_iff_le, dstField, toNat_low_nibble]
    have srcOk : regIdOk d.src = true ↔ b1.toNat / 16 ≤ 10 := by rw [regIdOk_iff_le, srcField, toNat_high_nibble]
    have badRegister (bad : 10 < b1.toNat % 16 ∨ 10 < b1.toNat / 16) :
        ¬ (regIdOk d.dst = true ∧ regIdOk d.src = true) := by
      rw [dstOk, srcOk]
      omega
    refine ⟨fun bad => decodeOne_of_bad_register whole (badRegister bad), fun dstIn srcIn => ⟨?unknown, ?known⟩⟩
    case unknown => exact decodeOne_of_unknown_opcode whole (dstOk.2 dstIn) (srcOk.2 srcIn)
    case known =>
      intro known
      refine ⟨d, decodeOne_of_known_opcode whole (dstOk.2 dstIn) (srcOk.2 srcIn) known, rfl, ?_, ?_⟩
      · rw [dstField, toNat_low_nibble]
      · rw [srcField, toNat_high_nibble]
  case later =>
    intro is e valid wf nonempty failed
    obtain ⟨ds, fuel, -, enough, decoded⟩ := decodeProgram_flatMap_encode valid wf bytes
    have positive : 0 < fuel := lt_of_lt_of_le (List.length_pos_iff.2 nonempty) enough
    obtain ⟨fuel, rfl⟩ := Nat.exists_eq_succ_of_ne_zero positive.ne'
    rw [decoded, decodeLoop_of_error nonempty failed]
    rfl

/-- Settles O58: every base row is a format, and a format reads its own fields only; the decoder builds the wide record
from bytes 8 to 15. -/
theorem unusedFieldsAreIgnored : Obligations.UnusedFieldsAreIgnored := by
  constructor
  case right =>
    intro b1 b2 b3 b4 b5 b6 b7 c4 c5 c6 c7 rest
    simp only [decodeFields, wideOpcode, if_true]
  case left =>
    intro p d d' sameOpcode
    refine ⟨?dstImm, ?dstSrc, ?dst, ?dstSrcOff, ?dstOffImm, ?off, ?imm, ?none⟩
    case dstImm =>
      intro mem dst imm
      refine instr?_eq_of_rowUses (fun d d' => d'.dst = d.dst ∧ d'.imm = d.imm) ?_ sameOpcode mem ⟨dst, imm⟩
      intro opc row
      fin_cases row <;> exact .of_base rfl fun _ _ agree => by
        simp only [formatAluImm, formatLdImm64, formatLdAbs, Decoded.imm32, agree]
    case dstSrc =>
      intro mem dst src
      refine instr?_eq_of_rowUses (fun d d' => d'.dst = d.dst ∧ d'.src = d.src) ?_ sameOpcode mem ⟨dst, src⟩
      intro opc row
      fin_cases row <;> exact .of_base rfl fun _ _ agree => by simp only [formatAluReg, agree]
    case dst =>
      intro opcode dst
      refine instr?_eq_of_rowUses (fun d d' => d'.dst = d.dst) ?_ sameOpcode (List.mem_singleton.2 opcode) dst
      exact List.forall_mem_singleton.2 (.of_base rfl fun _ _ agree => by simp only [formatAluUnary, agree])
    case dstSrcOff =>
      intro mem dst src off
      refine instr?_eq_of_rowUses (fun d d' => d'.dst = d.dst ∧ d'.src = d.src ∧ d'.off = d.off) ?_ sameOpcode mem
        ⟨dst, src, off⟩
      intro opc row
      fin_cases row <;> exact .of_base rfl fun _ _ agree => by
        simp only [formatLdx, formatStx, formatJmpReg, Decoded.off16, agree]
    case dstOffImm =>
      intro mem dst off imm
      refine instr?_eq_of_rowUses (fun d d' => d'.dst = d.dst ∧ d'.off = d.off ∧ d'.imm = d.imm) ?_ sameOpcode mem
        ⟨dst, off, imm⟩
      intro opc row
      fin_cases row <;> exact .of_base rfl fun _ _ agree => by
        simp only [formatJmpImm, Decoded.off16, Decoded.imm32, agree]
    case off =>
      intro opcode off
      refine instr?_eq_of_rowUses (fun d d' => d'.off = d.off) ?_ sameOpcode (List.mem_singleton.2 opcode) off
      exact List.forall_mem_singleton.2 (.of_base rfl fun _ _ agree => by simp only [formatJa, Decoded.off16, agree])
    case imm =>
      intro opcode imm
      refine instr?_eq_of_rowUses (fun d d' => d'.imm = d.imm) ?_ sameOpcode (List.mem_singleton.2 opcode) imm
      exact List.forall_mem_singleton.2 (.of_base rfl fun _ _ agree => by simp only [formatCall, Decoded.imm32, agree])
    case none =>
      intro opcode
      refine instr?_eq_of_rowUses (fun _ _ => True) ?_ sameOpcode (List.mem_singleton.2 opcode) trivial
      exact List.forall_mem_singleton.2 (.of_base rfl fun _ _ _ => rfl)

/-- Settles O59: the decoder is run on the seven words. -/
theorem sourceExampleWordsDecode : Obligations.SourceExampleWordsDecode := by
  unfold Obligations.SourceExampleWordsDecode
  decide

end Sys2Proof.Machine
end

