-- ==== Sys2Proof/Proofs/RegistersAndMemory.lean ====
section
/-! SUPPORT. The register file's contract (10_state.md R21) and the read of a part of a word just stored (20_memory.md
R65). -/

namespace Sys2Proof.Machine

/-! ## Reading back a part of what was written -/

/-- Of the bytes a write left, a read inside them answers those of the value (20_memory.md R65). -/
theorem Memory.readLE_inside_writeLE {m : Memory} (canonical : Memory.wf m = true) (a : Nat) {k n w : Nat}
    (inside : k + n ≤ w) (v : Word) :
    Memory.readLE (Memory.writeLE m a w v) (a + k) n = (v.extractLsb' (8 * k) (8 * n)).setWidth 64 := by
  apply BitVec.eq_of_getLsbD_eq
  intro i hi
  rw [Memory.getLsbD_readLE, Memory.get_writeLE canonical, BitVec.getLsbD_setWidth, BitVec.getLsbD_extractLsb']
  by_cases within : i < 8 * n
  case neg => simp [within]
  case pos =>
    have written : a ≤ a + k + i / 8 ∧ a + k + i / 8 < a + w := by omega
    have byteBit : i % 8 < 8 := by omega
    have bit : 8 * (a + k + i / 8 - a) + i % 8 = 8 * k + i := by omega
    rw [if_pos written, BitVec.getLsbD_setWidth, BitVec.getLsbD_ushiftRight, bit]
    simp [within, hi, byteBit]

/-- An address inside a memory of at most 2^64 bytes does not wrap (20_memory.md R67). -/
theorem toNat_add_ofNat_of_lt {addr : Word} {k : Nat} (fits : addr.toNat + k < 2 ^ 64) :
    (addr + BitVec.ofNat 64 k).toNat = addr.toNat + k := by
  have small : k % 2 ^ 64 = k := Nat.mod_eq_of_lt (by omega)
  rw [BitVec.toNat_add, BitVec.toNat_ofNat, small, Nat.mod_eq_of_lt fits]

/-! ## The statements -/

/-- Settles O18: the id's range decides, and a read after the write is the register file's own. -/
theorem registerFileContract : Obligations.RegisterFileContract := by
  intro s r q v
  constructor
  · intro inRange
    have rOk := regIdOk_iff_le.2 inRange
    refine ⟨readReg_ok.2 ⟨rOk, rfl⟩, RegFile.set s.regs r v, writeReg_ok.2 ⟨rOk, rfl⟩, fun qInRange => ?_⟩
    exact readReg_ok.2 ⟨regIdOk_iff_le.2 qInRange, (RegFile.get_set s.regs rOk v q).symm⟩
  · intro above
    have bad : regIdOk r = false := Bool.eq_false_iff.2 (mt regIdOk_iff_le.1 (by omega))
    exact ⟨readReg_error.2 ⟨bad, rfl⟩, writeReg_error.2 ⟨bad, rfl⟩⟩

/-- Settles O21: both reads lie inside the eight bytes written. -/
theorem mixedWidthReadBack : Obligations.MixedWidthReadBack := by
  intro s t addr v k canonical capacity written small
  obtain ⟨bounds, rfl⟩ := memWrite_ok.1 written
  have inside : addr.toNat + 8 ≤ s.params.memCapacity := inBounds_iff.1 bounds
  have byteAddress : (addr + BitVec.ofNat 64 k).toNat = addr.toNat + k := toNat_add_ofNat_of_lt (by omega)
  constructor
  case left =>
    refine memRead_ok.2 ⟨inBounds_iff.2 ?_, ?_⟩
    · rw [byteAddress]
      exact le_trans (by simp [Width.bytes]; omega) inside
    · rw [byteAddress]
      exact (Memory.readLE_inside_writeLE canonical addr.toNat (n := 1) (w := 8) (by omega) v).symm
  case right =>
    refine memRead_ok.2 ⟨inBounds_iff.2 (le_trans ?_ inside), ?_⟩
    · simp [Width.bytes]
    · exact (Memory.readLE_inside_writeLE canonical addr.toNat (k := 0) (n := 4) (w := 8) (by omega) v).symm

end Sys2Proof.Machine
end

