-- ==== Sys2Proof/Proofs/Instructions.lean ====
section
/-! SUPPORT. What every instruction has in common: it always answers, its frame, what a failure leaves, that an id out
of range is a failure, and that guest state alone decides the guest's next state. -/

namespace Sys2Proof.Machine

/-! ## Every instruction answers -/

theorem finish_answers (s : State) (r : Except Raised State) : ∃ t, finish s r = .next t := by
  cases r with
  | ok t => exact ⟨t, rfl⟩
  | error e => exact ⟨haltFailure e s, rfl⟩

/-- Every arm of the dispatch ends in `finish`. -/
theorem exec_answers (i : Instr) (s : State) : ∃ t, exec i s = .next t := by
  cases i with
  | ja | exit | log => exact ⟨_, rfl⟩
  | _ => exact finish_answers s _

theorem engineStep_of_no_row {s : State} {d : Decoded} (below : s.stepCount.toNat < s.params.maxSteps)
    (fetched : fetch s = some d) (noRow : d.instr? s.params = none) :
    engineStep s = .next (haltFailure (.plain .invalidOpcode) s) := by
  simp [engineStep, below, fetched, noRow]

theorem meterAndRun_answers (i : Instr) (s : State) : ∃ t, meterAndRun i s = .next t := by
  cases charged : charge (chargeOf s.meter.cfg i).1 (chargeOf s.meter.cfg i).2 s with
  | error e => exact ⟨_, meterAndRun_of_charge_error charged⟩
  | ok t =>
    rw [meterAndRun_of_charge_ok charged]
    exact exec_answers i (countStep t)

theorem engineStep_answers (s : State) : ∃ t, engineStep s = .next t := by
  by_cases below : s.stepCount.toNat < s.params.maxSteps
  case neg => exact ⟨_, engineStep_of_ceiling (Nat.not_lt.1 below)⟩
  case pos =>
    cases fetched : fetch s with
    | none => exact ⟨_, engineStep_of_fetch_none below fetched⟩
    | some d =>
      cases stands : d.instr? s.params with
      | none => exact ⟨_, engineStep_of_no_row below fetched stands⟩
      | some i =>
        rw [engineStep_of_fetch_some below fetched stands]
        exact meterAndRun_answers i s

theorem step_answers (s : State) : ∃ t, step s = .next t := by
  by_cases running : s.engState = .running
  · rw [step_of_running running]
    exact engineStep_answers s
  · exact ⟨hostTurn s, if_neg running⟩

/-! ## Ids out of range -/

/-- The id an operand reads, if it reads one, names a register (10_state.md R20). -/
def Operand.idOk : Operand → Bool
  | .imm _ => true
  | .reg r => regIdOk r

theorem operand_idOk_of_value {b : Operand} {s : State} {v : Word} (value : b.value s = .ok v) : b.idOk = true := by
  obtain ⟨imm, rfl, -⟩ | ⟨r, rfl, rOk, -⟩ := operand_value_ok.1 value
  · rfl
  · exact rOk

section
variable {s t : State} {dst src : RegId} {b : Operand}

theorem aluBinary_idsOk {f : Word → Word → Except Raised Word} (done : aluBinary f dst b s = .ok t) :
    (regIdOk dst && b.idOk) = true := by
  obtain ⟨dstOk, y, r, value, -, -⟩ := aluBinary_ok.1 done
  exact Bool.and_eq_true_iff.2 ⟨dstOk, operand_idOk_of_value value⟩

theorem aluMove_idsOk (done : aluMove dst b s = .ok t) : (regIdOk dst && b.idOk) = true := by
  obtain ⟨dstOk, y, value, -⟩ := aluMove_ok.1 done
  exact Bool.and_eq_true_iff.2 ⟨dstOk, operand_idOk_of_value value⟩

theorem condJump_idsOk {cond : Word → Word → Bool} {off : BitVec 16} (done : condJump cond dst b off s = .ok t) :
    (regIdOk dst && b.idOk) = true := by
  obtain ⟨dstOk, y, value, -⟩ := condJump_ok.1 done
  exact Bool.and_eq_true_iff.2 ⟨dstOk, operand_idOk_of_value value⟩

theorem loadIndirect_idsOk {off : BitVec 16} {n : Width} (done : loadIndirect dst src off n s = .ok t) :
    (regIdOk dst && regIdOk src) = true := by
  obtain ⟨srcOk, loaded⟩ := loadIndirect_ok.1 done
  obtain ⟨dstOk, -, -⟩ := loadInto_ok.1 loaded
  exact Bool.and_eq_true_iff.2 ⟨dstOk, srcOk⟩

theorem storeIndirect_idsOk {off : BitVec 16} {n : Width} (done : storeIndirect dst src off n s = .ok t) :
    (regIdOk dst && regIdOk src) = true := by
  obtain ⟨dstOk, srcOk, -, -⟩ := storeIndirect_ok.1 done
  exact Bool.and_eq_true_iff.2 ⟨dstOk, srcOk⟩

end

/-- An instruction that completes only when a check holds halts when the check fails. -/
theorem finish_halts_of_check {s : State} {r : Except Raised State} {check : Bool}
    (needed : ∀ t, r = .ok t → check = true) (fails : check = false) : ∃ e, finish s r = .next (haltFailure e s) := by
  cases r with
  | error e => exact ⟨e, rfl⟩
  | ok t =>
    have holds := needed t rfl
    simp [fails] at holds

/-- Every template reads or writes each register its instruction names before it completes. -/
theorem exec_halts_of_illFormed {i : Instr} (s : State) (ill : i.wellFormed = false) :
    ∃ e, exec i s = .next (haltFailure e s) := by
  cases i with
  | add64Imm | add64Reg | sub64Imm | sub64Reg | mul64Imm | mul64Reg | div64Imm | div64Reg | or64Imm | or64Reg
  | and64Imm | and64Reg | lsh64Imm | lsh64Reg | rsh64Imm | rsh64Reg | mod64Imm | mod64Reg | xor64Imm | xor64Reg
  | arsh64Imm | arsh64Reg => exact finish_halts_of_check (fun _ => aluBinary_idsOk) ill
  | mov64Imm | mov64Reg => exact finish_halts_of_check (fun _ => aluMove_idsOk) ill
  | neg64 =>
    exact finish_halts_of_check (fun _ done => (aluNegate_ok.1 done).1) ((Bool.and_true _).symm.trans ill)
  | lddw =>
    exact finish_halts_of_check (fun _ done => (writeAdvance_ok.1 done).1) ((Bool.and_true _).symm.trans ill)
  | ldabsb | ldabsh | ldabsw | ldabsdw =>
    exact finish_halts_of_check (fun _ done => (loadInto_ok.1 done).1) ((Bool.and_true _).symm.trans ill)
  | ldxb | ldxh | ldxw | ldxdw => exact finish_halts_of_check (fun _ => loadIndirect_idsOk) ill
  | stxb | stxh | stxw | stxdw => exact finish_halts_of_check (fun _ => storeIndirect_idsOk) ill
  | jeqImm | jeqReg | jgtImm | jgtReg | jgeImm | jgeReg | jltImm | jltReg | jleImm | jleReg | jneImm | jneReg
  | jsgtImm | jsgtReg | jsgeImm | jsgeReg | jsltImm | jsltReg | jsleImm | jsleReg =>
    exact finish_halts_of_check (fun _ => condJump_idsOk) ill
  | ja | call | exit | invoke | log | cpiReturn => cases ill

/-! ## Guest state alone decides -/

theorem guestView_eq_iff {s s' : State} :
    guestView s = guestView s' ↔
      s.regs = s'.regs ∧ s.pc = s'.pc ∧ s.mem = s'.mem ∧ s.callStack = s'.callStack ∧ s.cpiDepth = s'.cpiDepth ∧
        s.engState = s'.engState ∧ s.params = s'.params := by
  simp only [guestView, Prod.mk.injEq]

/-- Two results that show the guest the same: the same failure, or states whose guest parts agree. -/
def SameGuest (r r' : Except Raised State) : Prop := r.map guestView = r'.map guestView

theorem SameGuest.ok {t t' : State} (same : guestView t = guestView t') : SameGuest (.ok t) (.ok t') :=
  congrArg Except.ok same

theorem SameGuest.bind {α : Type} {x : Except Raised α} {f f' : α → Except Raised State}
    (same : ∀ a, SameGuest (f a) (f' a)) : SameGuest (x >>= f) (x >>= f') := by
  cases x with
  | error e => rfl
  | ok a => exact same a

theorem SameGuest.ite {c : Prop} [Decidable c] {t t' : State} {e : Raised} (same : guestView t = guestView t') :
    SameGuest (if c then .error e else .ok t) (if c then .error e else .ok t') := by
  split
  · rfl
  · exact .ok same

section
variable {s s' : State} (agree : guestView s = guestView s')
include agree

theorem readReg_congr (r : RegId) : readReg r s = readReg r s' := by
  obtain ⟨regs, -⟩ := guestView_eq_iff.1 agree
  rw [readReg, readReg, regs]

theorem operand_value_congr (b : Operand) : b.value s = b.value s' := by
  cases b with
  | imm v => rfl
  | reg r => exact readReg_congr agree r

theorem memRead_congr (addr : Word) (n : Width) : memRead addr n s = memRead addr n s' := by
  obtain ⟨-, -, mem, -, -, -, params⟩ := guestView_eq_iff.1 agree
  rw [memRead, memRead, inBounds, inBounds, mem, params]

theorem advance_congr : guestView s.advance = guestView s'.advance := by
  obtain ⟨regs, pc, mem, callStack, cpiDepth, engState, params⟩ := guestView_eq_iff.1 agree
  exact guestView_eq_iff.2 ⟨regs, congrArg (· + 1) pc, mem, callStack, cpiDepth, engState, params⟩

theorem jumpBy_congr (d : Word) : guestView (s.jumpBy d) = guestView (s'.jumpBy d) := by
  obtain ⟨regs, pc, mem, callStack, cpiDepth, engState, params⟩ := guestView_eq_iff.1 agree
  exact guestView_eq_iff.2 ⟨regs, congrArg (· + d) pc, mem, callStack, cpiDepth, engState, params⟩

theorem haltFailure_congr (e e' : Raised) : guestView (haltFailure e s) = guestView (haltFailure e' s') := by
  obtain ⟨regs, pc, mem, callStack, cpiDepth, -, params⟩ := guestView_eq_iff.1 agree
  exact guestView_eq_iff.2 ⟨regs, pc, mem, callStack, cpiDepth, rfl, params⟩

theorem writeAdvance_congr (dst : RegId) (v : Word) : SameGuest (writeAdvance dst v s) (writeAdvance dst v s') := by
  obtain ⟨regs, pc, mem, callStack, cpiDepth, engState, params⟩ := guestView_eq_iff.1 agree
  unfold writeAdvance writeReg
  cases regIdOk dst with
  | false => rfl
  | true =>
    exact .ok (advance_congr (guestView_eq_iff.2
      ⟨congrArg (RegFile.set · dst v) regs, pc, mem, callStack, cpiDepth, engState, params⟩))

theorem aluBinary_congr (f : Word → Word → Except Raised Word) (dst : RegId) (b : Operand) :
    SameGuest (aluBinary f dst b s) (aluBinary f dst b s') := by
  rw [aluBinary, aluBinary, readReg_congr agree, operand_value_congr agree]
  exact .bind fun _ => .bind fun _ => .bind fun r => writeAdvance_congr agree dst r

theorem aluMove_congr (dst : RegId) (b : Operand) : SameGuest (aluMove dst b s) (aluMove dst b s') := by
  rw [aluMove, aluMove, operand_value_congr agree]
  exact .bind fun y => writeAdvance_congr agree dst y

theorem aluNegate_congr (dst : RegId) : SameGuest (aluNegate dst s) (aluNegate dst s') := by
  rw [aluNegate, aluNegate, readReg_congr agree]
  exact .bind fun x => writeAdvance_congr agree dst (0 - x)

theorem loadInto_congr (dst : RegId) (ea : Word) (n : Width) :
    SameGuest (loadInto dst ea n s) (loadInto dst ea n s') := by
  rw [loadInto, loadInto, memRead_congr agree]
  exact .bind fun v => writeAdvance_congr agree dst v

theorem loadIndirect_congr (dst src : RegId) (off : BitVec 16) (n : Width) :
    SameGuest (loadIndirect dst src off n s) (loadIndirect dst src off n s') := by
  rw [loadIndirect, loadIndirect, readReg_congr agree]
  exact .bind fun base => loadInto_congr agree dst (indAddress base off) n

theorem storeIndirect_congr (dst src : RegId) (off : BitVec 16) (n : Width) :
    SameGuest (storeIndirect dst src off n s) (storeIndirect dst src off n s') := by
  rw [storeIndirect, storeIndirect, readReg_congr agree, readReg_congr agree]
  refine .bind fun base => .bind fun v => ?_
  obtain ⟨regs, pc, mem, callStack, cpiDepth, engState, params⟩ := guestView_eq_iff.1 agree
  unfold memWrite inBounds
  rw [mem, params]
  split
  · exact .ok (advance_congr (guestView_eq_iff.2
      ⟨regs, pc, rfl, callStack, cpiDepth, engState, params⟩))
  · rfl

theorem condJump_congr (cond : Word → Word → Bool) (dst : RegId) (b : Operand) (off : BitVec 16) :
    SameGuest (condJump cond dst b off s) (condJump cond dst b off s') := by
  rw [condJump, condJump, readReg_congr agree, operand_value_congr agree]
  refine .bind fun x => .bind fun y => .ok ?_
  split
  · exact jumpBy_congr agree _
  · exact advance_congr agree

theorem callBy_congr (d : Word) : SameGuest (callBy d s) (callBy d s') := by
  obtain ⟨regs, pc, mem, callStack, cpiDepth, engState, params⟩ := guestView_eq_iff.1 agree
  have pushed : guestView (s.withCallStack (s'.pc :: s'.callStack)) =
      guestView (s'.withCallStack (s'.pc :: s'.callStack)) :=
    guestView_eq_iff.2 ⟨regs, pc, mem, rfl, cpiDepth, engState, params⟩
  unfold callBy
  rw [pc, callStack, params]
  exact .ite (jumpBy_congr pushed d)

theorem returnOrHalt_congr : guestView (returnOrHalt s) = guestView (returnOrHalt s') := by
  obtain ⟨regs, pc, mem, callStack, cpiDepth, engState, params⟩ := guestView_eq_iff.1 agree
  unfold returnOrHalt
  rw [callStack]
  cases s'.callStack with
  | nil => exact guestView_eq_iff.2 ⟨regs, pc, mem, callStack, cpiDepth, rfl, params⟩
  | cons top rest => exact guestView_eq_iff.2 ⟨regs, rfl, mem, rfl, cpiDepth, engState, params⟩

theorem openInvocation_congr : SameGuest (openInvocation s) (openInvocation s') := by
  obtain ⟨regs, pc, mem, callStack, cpiDepth, engState, params⟩ := guestView_eq_iff.1 agree
  unfold openInvocation
  rw [cpiDepth, params]
  exact .ite (advance_congr (guestView_eq_iff.2 ⟨regs, pc, mem, callStack, rfl, engState, params⟩))

theorem closeInvocation_congr : SameGuest (closeInvocation s) (closeInvocation s') := by
  obtain ⟨regs, pc, mem, callStack, cpiDepth, engState, params⟩ := guestView_eq_iff.1 agree
  unfold closeInvocation
  rw [cpiDepth]
  exact .ite (advance_congr (guestView_eq_iff.2 ⟨regs, pc, mem, callStack, rfl, engState, params⟩))

/-- A failure halts both states, whatever latches it leaves. -/
theorem finish_congr {r r' : Except Raised State} (same : SameGuest r r') {t t' : State}
    (ends : finish s r = .next t) (ends' : finish s' r' = .next t') : guestView t = guestView t' := by
  cases r with
  | error e =>
    cases r' with
    | error e' =>
      cases ends
      cases ends'
      exact haltFailure_congr agree e e'
    | ok u' => cases same
  | ok u =>
    cases r' with
    | error e' => cases same
    | ok u' =>
      cases ends
      cases ends'
      exact Except.ok.inj same

/-- Every template reads guest state only (60_exceptions.md R361). -/
theorem exec_congr {i : Instr} {t t' : State} (ends : exec i s = .next t) (ends' : exec i s' = .next t') :
    guestView t = guestView t' := by
  cases i with
  | add64Imm | add64Reg | sub64Imm | sub64Reg | mul64Imm | mul64Reg | div64Imm | div64Reg | or64Imm | or64Reg
  | and64Imm | and64Reg | lsh64Imm | lsh64Reg | rsh64Imm | rsh64Reg | mod64Imm | mod64Reg | xor64Imm | xor64Reg
  | arsh64Imm | arsh64Reg => exact finish_congr agree (aluBinary_congr agree _ _ _) ends ends'
  | mov64Imm | mov64Reg => exact finish_congr agree (aluMove_congr agree _ _) ends ends'
  | neg64 => exact finish_congr agree (aluNegate_congr agree _) ends ends'
  | lddw => exact finish_congr agree (writeAdvance_congr agree _ _) ends ends'
  | ldabsb | ldabsh | ldabsw | ldabsdw => exact finish_congr agree (loadInto_congr agree _ _ _) ends ends'
  | ldxb | ldxh | ldxw | ldxdw => exact finish_congr agree (loadIndirect_congr agree _ _ _ _) ends ends'
  | stxb | stxh | stxw | stxdw => exact finish_congr agree (storeIndirect_congr agree _ _ _ _) ends ends'
  | ja => exact finish_congr agree (.ok (jumpBy_congr agree _)) ends ends'
  | jeqImm | jeqReg | jgtImm | jgtReg | jgeImm | jgeReg | jltImm | jltReg | jleImm | jleReg | jneImm | jneReg
  | jsgtImm | jsgtReg | jsgeImm | jsgeReg | jsltImm | jsltReg | jsleImm | jsleReg =>
    exact finish_congr agree (condJump_congr agree _ _ _ _) ends ends'
  | call => exact finish_congr agree (callBy_congr agree _) ends ends'
  | exit => exact finish_congr agree (.ok (returnOrHalt_congr agree)) ends ends'
  | invoke => exact finish_congr agree (openInvocation_congr agree) ends ends'
  | log => exact finish_congr agree (.ok (advance_congr agree)) ends ends'
  | cpiReturn => exact finish_congr agree (closeInvocation_congr agree) ends ends'

end

/-! ## The statements -/

/-- Settles O6: the template's register write with the immediate taken whole. -/
theorem lddwResult : Obligations.LddwResult := by
  intro p s dst imm dstOk
  exact ⟨rowIs_of_baseOpcodeRows rfl p, finish_next.2 (.inl (writeAdvance_ok.2 ⟨dstOk, rfl⟩))⟩

/-- Settles O14: whether CALL_DEPTH is the bound decides between the push and the halt. -/
theorem callResult : Obligations.CallResult := by
  intro p s imm
  refine ⟨rowIs_of_baseOpcodeRows rfl p, fun below => ?_, fun atBound => ?_⟩
  · exact finish_next.2 (.inl (callBy_ok.2 ⟨below, rfl⟩))
  · exact finish_next.2 (.inr ⟨_, callBy_error.2 ⟨atBound, rfl⟩, rfl⟩)

/-- Settles O15: whether the call stack holds a frame decides between the return and the end of the program. -/
theorem exitResult : Obligations.ExitResult := by
  intro p s
  have exits : exec .exit s = .next (returnOrHalt s) := rfl
  refine ⟨rowIs_of_baseOpcodeRows rfl p, fun top rest frame => ?_, fun empty => ?_⟩
  · rw [exits, returnOrHalt, frame]
    rfl
  · rw [exits, returnOrHalt, empty]
    rfl

/-- Settles O16: the extension rows hold under Params.Valid, and each depth test decides between the level and the
halt. -/
theorem extensionResults : Obligations.ExtensionResults := by
  intro p s valid
  refine ⟨⟨rowIs_extInvoke valid, fun below => ?_, fun atBound => ?_⟩, ⟨rowIs_extLog valid, rfl⟩,
    rowIs_extReturn valid, fun above => ?_, fun atZero => ?_⟩
  · exact finish_next.2 (.inl (openInvocation_ok.2 ⟨below, rfl⟩))
  · exact finish_next.2 (.inr ⟨_, openInvocation_error.2 ⟨atBound, rfl⟩, rfl⟩)
  · exact finish_next.2 (.inl (closeInvocation_ok.2 ⟨above, rfl⟩))
  · exact finish_next.2 (.inr ⟨_, closeInvocation_error.2 ⟨atZero, rfl⟩, rfl⟩)

/-- Settles O24: every arm of the dispatch and every branch of the step answers. -/
theorem stepAlwaysAnswersNextState : Obligations.StepAlwaysAnswersNextState :=
  ⟨exec_answers, step_answers⟩

/-- Settles O28: each effect an instruction can have names the one part of guest state it changes beside pc. -/
theorem instructionFrame : Obligations.InstructionFrame := by
  intro i s t executed
  cases exec_effect executed with
  | reg dst v writes dstOk =>
    refine ⟨fun r other => ?_, fun _ _ => rfl, fun _ _ => rfl, fun _ _ => rfl⟩
    have different : r ≠ dst := fun same => other (same ▸ writes)
    exact (RegFile.get_set s.regs dstOk v r).trans (if_neg different)
  | store a n v stores inside =>
    exact ⟨fun _ _ => rfl, fun notStore => absurd stores (by simp [notStore]), fun _ _ => rfl, fun _ _ => rfl⟩
  | jump target => exact ⟨fun _ _ => rfl, fun _ _ => rfl, fun _ _ => rfl, fun _ _ => rfl⟩
  | call imm isCall =>
    exact ⟨fun _ _ => rfl, fun _ _ => rfl, fun _ notCall => absurd isCall (notCall imm), fun _ _ => rfl⟩
  | ret top rest isExit =>
    exact ⟨fun _ _ => rfl, fun _ _ => rfl, fun notExit => absurd isExit notExit, fun _ _ => rfl⟩
  | success => exact ⟨fun _ _ => rfl, fun _ _ => rfl, fun _ _ => rfl, fun _ _ => rfl⟩
  | opened isInvoke =>
    exact ⟨fun _ _ => rfl, fun _ _ => rfl, fun _ _ => rfl, fun notInvoke => absurd isInvoke notInvoke⟩
  | closed isReturn =>
    exact ⟨fun _ _ => rfl, fun _ _ => rfl, fun _ _ => rfl, fun _ notReturn => absurd isReturn notReturn⟩
  | failure e => exact ⟨fun _ _ => rfl, fun _ _ => rfl, fun _ _ => rfl, fun _ _ => rfl⟩

/-- What no instruction writes: the whole host side in every effect, the latches in all but the two halts. -/
theorem Effect.hostSide_eq {i : Instr} {s t : State} (effect : Effect i s t) : hostSide t = hostSide s := by
  cases effect <;> rfl

/-- A Running state halts or keeps its latches. -/
theorem Effect.running_cases {i : Instr} {s t : State} (effect : Effect i s t) (running : s.engState = .running) :
    (t.engState = .running ∧ t.latches = s.latches) ∨ t = haltSuccess (s.x 0) s ∨
      ∃ e : Raised, e.kind ≠ .insufficientBudget ∧ t = haltFailure e s := by
  cases effect with
  | success => exact .inr (.inl rfl)
  | failure e notBudget => exact .inr (.inr ⟨e, notBudget, rfl⟩)
  | reg | store | jump | call | ret | opened | closed => exact .inl ⟨running, rfl⟩

/-- Settles O29: a halt of a Running state is a change of the engine state. -/
theorem guestCannotWriteHostSide : Obligations.GuestCannotWriteHostSide := by
  intro i s t executed
  have effect := exec_effect executed
  refine ⟨effect.hostSide_eq, fun unchanged running => ?_⟩
  obtain ⟨-, kept⟩ | rfl | ⟨e, -, rfl⟩ := effect.running_cases running
  · exact kept
  · cases unchanged.trans running
  · cases unchanged.trans running

/-- Settles O30: each template reads guest state only. -/
theorem guestReadsOnlyGuestState : Obligations.GuestReadsOnlyGuestState :=
  fun _ _ _ _ _ agree ends ends' => exec_congr agree ends ends'

/-- Settles O31: from a Running state only the failure effect ends in HaltedFailure. -/
theorem failingInstructionIsPrecise : Obligations.FailingInstructionIsPrecise := by
  intro i s t running executed failed
  obtain ⟨stillRunning, -⟩ | rfl | ⟨e, -, rfl⟩ := (exec_effect executed).running_cases running
  · cases stillRunning.symm.trans failed
  · cases failed
  · exact ⟨rfl, rfl⟩

/-- Settles O32: an effect that sets pc otherwise belongs to a control instruction or to a halt. -/
theorem defaultAdvanceOfCompletedInstruction : Obligations.DefaultAdvanceOfCompletedInstruction := by
  intro i s t notControl running executed stillRunning
  cases exec_effect executed with
  | reg | store | opened | closed => rfl
  | jump target target? =>
    obtain control | next := target?
    · cases notControl.symm.trans control
    · exact next
  | call imm isCall =>
    subst isCall
    cases notControl
  | ret top rest isExit =>
    subst isExit
    cases notControl
  | success => cases stillRunning
  | failure e => cases stillRunning

/-- Settles O33: a template that completes has checked every id the instruction names. -/
theorem illFormedInstructionHalts : Obligations.IllFormedInstructionHalts :=
  fun _ s ill => exec_halts_of_illFormed s ill

/-- Settles O38: the charge table, row by row. -/
theorem chargeTableOfInstructions : Obligations.ChargeTableOfInstructions := by
  intro cfg dst src imm imm64 off
  refine ⟨?arith, ?memory, ?control, rfl, rfl, rfl⟩
  case arith => intro i row; fin_cases row <;> rfl
  case memory => intro i row; fin_cases row <;> rfl
  case control => intro i row; fin_cases row <;> rfl

/-- Settles O60: the load reads back the four bytes the store wrote at the same address. -/
theorem storeThenLoadAbsoluteWord : Obligations.StoreThenLoadAbsoluteWord := by
  intro s t base src q off imm baseOk srcOk qOk canonical sameAddress inside stored
  have bounds : inBounds (absAddress imm) .w s = true := inBounds_iff.2 inside
  have address : indAddress (s.x base) off = absAddress imm := sameAddress
  have storing : exec (.stxw base src off) s =
      .next (memWritten s (Memory.writeLE s.mem (absAddress imm).toNat 4 (s.x src))) := by
    refine finish_next.2 (.inl (storeIndirect_ok.2 ⟨baseOk, srcOk, ?_⟩))
    rw [address]
    exact ⟨bounds, rfl⟩
  rw [storing] at stored
  cases stored
  have readBack : Memory.readLE (Memory.writeLE s.mem (absAddress imm).toNat 4 (s.x src)) (absAddress imm).toNat 4 =
      ((s.x src).setWidth 32).setWidth 64 := Memory.readLE_writeLE canonical (absAddress imm).toNat 4 (s.x src)
  rw [← readBack]
  exact finish_next.2 (.inl (loadInto_ok.2 ⟨qOk, bounds, rfl⟩))

end Sys2Proof.Machine
end

