-- ==== Sys2Proof/Proofs/HostPort.lean ====
section
/-! SUPPORT. The host port (70_reset_and_hazards.md R395 to R401): what a command can do, said once; which command is
taken when; that an error changes nothing; and the answers of RUN, CREATE_CHECKPOINT and the unit ports. -/

namespace Sys2Proof.Machine

/-! ## The engine's turn

What the queues and the rest of the host side see of an engine step. -/

theorem hostSide_eq_iff {s t : State} :
    hostSide t = hostSide s ↔
      t.params = s.params ∧ t.prog = s.prog ∧ t.progBytes = s.progBytes ∧ t.stepCount = s.stepCount ∧
        t.meter = s.meter ∧ t.ckpt = s.ckpt ∧ t.log = s.log ∧ t.accounts = s.accounts ∧ t.hostIn = s.hostIn ∧
        t.hostOut = s.hostOut ∧ t.runPending = s.runPending := by
  simp only [hostSide, Prod.mk.injEq]

/-- The automatic rollback is the body of ROLLBACK_TRANSACTION, or nothing with no transaction open (46_checkpoint.md
R321, log 21). -/
theorem autoRollback_cases (s : State) :
    (s.ckpt.txnBase = none ∧ autoRollback s = s) ∨
      ∃ base, s.ckpt.txnBase = some base ∧
        autoRollback s =
          (restore base s).withCkpt { (restore base s).ckpt with stack := [], txnBase := none, dirty := false } := by
  cases base? : s.ckpt.txnBase with
  | none => exact .inl ⟨rfl, autoRollback_of_closed base?⟩
  | some base => exact .inr ⟨base, rfl, autoRollback_of_open base?⟩

/-- A rollback leaves the parameters, STEP_COUNT and the queues, which no snapshot holds (46_checkpoint.md R310). -/
theorem autoRollback_frame (s : State) :
    (autoRollback s).params = s.params ∧ (autoRollback s).stepCount = s.stepCount ∧
      (autoRollback s).hostIn = s.hostIn ∧ (autoRollback s).hostOut = s.hostOut ∧
      (autoRollback s).runPending = s.runPending := by
  obtain ⟨-, same⟩ | ⟨base, -, rolledBack⟩ := autoRollback_cases s
  · rw [same]
    exact ⟨rfl, rfl, rfl, rfl, rfl⟩
  · rw [rolledBack]
    exact ⟨rfl, rfl, rfl, rfl, rfl⟩

/-- No engine step reaches the queues or returns a RUN (41_engine.md R144). -/
theorem EngineEffect.queues_eq {s t : State} (effect : EngineEffect s t) :
    t.hostIn = s.hostIn ∧ t.hostOut = s.hostOut ∧ t.runPending = s.runPending := by
  cases effect with
  | early k => exact ⟨rfl, rfl, rfl⟩
  | overBudget i =>
    obtain ⟨-, -, queues⟩ := autoRollback_frame (haltFailure (.plain .insufficientBudget) s)
    exact queues
  | ran i _ below fits ran =>
    obtain ⟨-, -, -, -, -, -, -, -, queues⟩ := hostSide_eq_iff.1 ran.hostSide_eq
    exact queues

/-! ## The host's turn -/

theorem step_of_not_running {s : State} (notRunning : s.engState ≠ .running) : step s = .next (hostTurn s) :=
  if_neg notRunning

theorem hostTurn_of_pending {s : State} (pending : s.runPending = true) : hostTurn s = returnRun s := by
  simp [hostTurn, pending]

theorem hostTurn_of_no_command {s : State} (returned : s.runPending = false) (empty : s.hostIn = []) :
    hostTurn s = s := by
  simp [hostTurn, returned, empty]

theorem hostTurn_of_command {s : State} {c : HostCommand} {rest : List HostCommand} (returned : s.runPending = false)
    (issued : s.hostIn = c :: rest) : hostTurn s = takeCommand c rest s := by
  simp [hostTurn, returned, issued]

/-! ## RUN -/

section
variable {s : State} {bytes : List Byte}

theorem runCommand_of_closed (closed : s.txnOpen = false) :
    runCommand bytes s = (some (.error .noCheckpointAvailable), s) := by
  simp [runCommand, closed]

theorem runCommand_of_decode_error {e : DecodeError} (opened : s.txnOpen = true)
    (rejected : decodeProgram s.params bytes = .error e) : runCommand bytes s = (some .done, decodeHalt e s) := by
  simp [runCommand, opened, rejected]

theorem runCommand_of_decode_ok {prog : List Decoded} (opened : s.txnOpen = true)
    (decoded : decodeProgram s.params bytes = .ok prog) :
    runCommand bytes s = (none, { startRun prog bytes.length s with runPending := true }) := by
  simp [runCommand, opened, decoded]

end

/-! ## CREATE_CHECKPOINT -/

section
variable {s : State}

theorem createCommand_of_ok {id : Word} {t : State} (created : createCheckpoint s = .ok (id, t)) :
    createCommand s = (some (.value id), t) := by
  simp [createCommand, created]

theorem createCommand_of_error {k : FailKind} (refused : createCheckpoint s = .error k) :
    createCommand s = (some (.error k), s) := by
  simp [createCommand, refused]

theorem createCheckpoint_of_closed (closed : s.txnOpen = false) :
    createCheckpoint s = .error .noCheckpointAvailable := by
  simp [createCheckpoint, closed]

theorem createCheckpoint_of_full (opened : s.txnOpen = true) (full : s.ckptDepth = s.params.maxCheckpoints) :
    createCheckpoint s = .error .stackOverflow := by
  simp [createCheckpoint, opened, full]

theorem createCheckpoint_of_charge_error {e : Raised} (opened : s.txnOpen = true)
    (room : s.ckptDepth ≠ s.params.maxCheckpoints)
    (unaffordable : charge .checkpoint s.meter.cfg.checkpointUnits.toNat s = .error e) :
    createCheckpoint s = .error .insufficientBudget := by
  obtain ⟨-, rfl⟩ := charge_error.1 unaffordable
  simp [createCheckpoint, opened, room, unaffordable, Raised.plain]

end

/-! ## The unit ports -/

section
variable {α : Type} {r : Except Raised α}

theorem asCommandError_of_ok {a : α} (done : r = .ok a) : asCommandError r = .ok a := by rw [done]; rfl

theorem asCommandError_of_error {e : Raised} (failed : r = .error e) : asCommandError r = .error e.kind := by
  rw [failed]; rfl

theorem asCommandError_ok_iff {a : α} : asCommandError r = .ok a ↔ r = .ok a := by
  cases r <;> simp [asCommandError]

end

theorem answerValue_of_ok (s : State) {v : Word} {r : Except FailKind Word} (done : r = .ok v) :
    answerValue s r = (some (.value v), s) := by rw [done]; rfl

theorem answerValue_of_error (s : State) {k : FailKind} {r : Except FailKind Word} (refused : r = .error k) :
    answerValue s r = (some (.error k), s) := by rw [refused]; rfl

/-- The numbers of the categories are 0 to 7, one each (40_compute_meter.md R112). -/
theorem category_ofNum?_num (c : Category) : Category.ofNum? c.num = some c := by
  cases c <;> rfl

theorem exists_category_num {n : Nat} (small : n ≤ 7) : ∃ c : Category, c.num = n := by
  interval_cases n
  exacts [⟨.arith, rfl⟩, ⟨.memory, rfl⟩, ⟨.control, rfl⟩, ⟨.hash, rfl⟩, ⟨.sigverify, rfl⟩, ⟨.cpi, rfl⟩,
    ⟨.syscall, rfl⟩, ⟨.checkpoint, rfl⟩]

theorem chargeCommand_of_no_category {category units : Word} (s : State) (large : 7 < category.toNat) :
    chargeCommand category units s = .error .invalidRegister := by
  have none : Category.ofNum? category.toNat = none := List.getElem?_eq_none_iff.2 large
  simp [chargeCommand, none]

theorem chargeCommand_of_category {category units : Word} {c : Category} (s : State)
    (number : c.num = category.toNat) :
    chargeCommand category units s = asCommandError (charge c units.toNat s) := by
  simp [chargeCommand, ← number, category_ofNum?_num]

/-! ## What a command can do -/

/-- The states a host command can leave. -/
inductive CommandEffect (s : State) : State → Prop where
  /-- a read, or an error (60_exceptions.md R351) -/
  | same : CommandEffect s s
  /-- RUN on a stream that decodes (41_engine.md R143) -/
  | started (bytes : List Byte) (prog : List Decoded) (opened : s.txnOpen = true)
      (decoded : decodeProgram s.params bytes = .ok prog) :
      CommandEffect s { startRun prog bytes.length s with runPending := true }
  /-- RUN on a stream that does not (41_engine.md R142) -/
  | rejected (e : DecodeError) : CommandEffect s (decodeHalt e s)
  /-- the meter's configuration or its dynamic factors written (10_state.md R46, 40_compute_meter.md R120) -/
  | configured (cfg : MeterConfig) (mp cl : BitVec 32) :
      CommandEffect s (s.withMeter { s.meter with cfg := cfg, memPressure := mp, proofComplexity := cl })
  /-- CHARGE (40_compute_meter.md R123) -/
  | charged (c : Category) (units : Nat) (fits : chargeFits s.meter c units = true) :
      CommandEffect s (s.withMeter (commitCharge s.meter c units))
  /-- REG_WRITE -/
  | regs (v : RegFile) : CommandEffect s (s.withRegs v)
  /-- MEM_WRITE -/
  | mem (addr : Word) (n : Width) (v : Word) (inside : inBounds addr n s = true) :
      CommandEffect s (s.withMem (Memory.writeLE s.mem addr.toNat n.bytes v))
  /-- BEGIN_TRANSACTION (46_checkpoint.md R313) -/
  | began (cu cyc : Word) (t : State) (began : beginTransaction cu cyc s = .ok t) : CommandEffect s t
  /-- COMMIT_TRANSACTION (46_checkpoint.md R314) -/
  | committed (t : State) (committed : commitTransaction s = .ok t) : CommandEffect s t
  /-- ROLLBACK_TRANSACTION (46_checkpoint.md R315) -/
  | rolledBack (t : State) (rolledBack : rollbackTransaction s = .ok t) : CommandEffect s t
  /-- CREATE_CHECKPOINT (46_checkpoint.md R316) -/
  | created (id : Word) (t : State) (created : createCheckpoint s = .ok (id, t)) : CommandEffect s t
  /-- COMMIT_CHECKPOINT (46_checkpoint.md R317) -/
  | kept (id : Word) (t : State) (kept : commitCheckpoint id s = .ok t) : CommandEffect s t
  /-- ROLLBACK_CHECKPOINT (46_checkpoint.md R318) -/
  | restored (id : Word) (t : State) (restored : rollbackCheckpoint id s = .ok t) : CommandEffect s t
  /-- LOG_APPEND -/
  | logged (e : LogEntry) : CommandEffect s { s with log := s.log ++ [e] }
  /-- ACCOUNT_WRITE -/
  | accounts (a : AccountState) : CommandEffect s { s with accounts := a }

theorem CommandEffect.of_answer {s : State} {r : Except FailKind State} (done : ∀ t, r = .ok t → CommandEffect s t) :
    CommandEffect s (answer s r).2 := by
  cases r with
  | error k => exact .same
  | ok t => exact done t rfl

theorem CommandEffect.of_answerValue (s : State) (r : Except FailKind Word) : CommandEffect s (answerValue s r).2 := by
  cases r with
  | error k => exact .same
  | ok v => exact .same

theorem CommandEffect.of_run (bytes : List Byte) (s : State) : CommandEffect s (runCommand bytes s).2 := by
  cases opened : s.txnOpen with
  | false => rw [runCommand_of_closed opened]; exact .same
  | true =>
    cases decoded : decodeProgram s.params bytes with
    | error e => rw [runCommand_of_decode_error opened decoded]; exact .rejected e
    | ok prog => rw [runCommand_of_decode_ok opened decoded]; exact .started bytes prog opened decoded

theorem CommandEffect.of_create (s : State) : CommandEffect s (createCommand s).2 := by
  cases created : createCheckpoint s with
  | error k => rw [createCommand_of_error created]; exact .same
  | ok r => rw [createCommand_of_ok created]; exact .created r.1 r.2 created

theorem CommandEffect.of_charge {category units : Word} {s t : State} (done : chargeCommand category units s = .ok t) :
    CommandEffect s t := by
  by_cases small : category.toNat ≤ 7
  case neg =>
    rw [chargeCommand_of_no_category s (by omega)] at done
    cases done
  case pos =>
    obtain ⟨c, number⟩ := exists_category_num small
    rw [chargeCommand_of_category s number, asCommandError_ok_iff] at done
    obtain ⟨fits, rfl⟩ := charge_ok.1 done
    exact .charged c units.toNat fits

/-- Whatever a host command leaves is one of the effects. -/
theorem hostCommand_effect (c : HostCommand) (s : State) : CommandEffect s (hostCommand c s).2 := by
  cases c with
  | run bytes => exact .of_run bytes s
  | csrRead | regRead | memRead => exact .of_answerValue s _
  | csrWrite i v =>
    refine .of_answer fun t done => ?_
    obtain ⟨write, -, rfl⟩ := csrWrite_ok.1 done
    exact .configured _ s.meter.memPressure s.meter.proofComplexity
  | regWrite id v =>
    refine .of_answer fun t done => ?_
    obtain ⟨-, rfl⟩ := writeReg_ok.1 (asCommandError_ok_iff.1 done)
    exact .regs _
  | memWrite addr n v =>
    refine .of_answer fun t done => ?_
    obtain ⟨inside, rfl⟩ := memWrite_ok.1 (asCommandError_ok_iff.1 done)
    exact .mem addr n v inside
  | charge category units => exact .of_answer fun _ => .of_charge
  | updateFactors mp cl => exact .configured s.meter.cfg mp cl
  | beginTransaction cu cyc => exact .of_answer (.began cu cyc)
  | commitTransaction => exact .of_answer .committed
  | rollbackTransaction => exact .of_answer .rolledBack
  | createCheckpoint => exact .of_create s
  | commitCheckpoint id => exact .of_answer (.kept id)
  | rollbackCheckpoint id => exact .of_answer (.restored id)
  | logAppend e => exact .logged e
  | accountWrite a => exact .accounts a
  | logRead | accountRead => exact .same

/-! ## Errors -/

theorem answer_error_unchanged {s : State} {r : Except FailKind State} {k : FailKind}
    (refused : (answer s r).1 = some (.error k)) : (answer s r).2 = s := by
  cases r with
  | error e => rfl
  | ok t => cases refused

theorem answerValue_unchanged (s : State) (r : Except FailKind Word) : (answerValue s r).2 = s := by
  cases r <;> rfl

theorem runCommand_error_unchanged {bytes : List Byte} {s : State} {k : FailKind}
    (refused : (runCommand bytes s).1 = some (.error k)) : (runCommand bytes s).2 = s := by
  cases opened : s.txnOpen with
  | false => rw [runCommand_of_closed opened]
  | true =>
    cases decoded : decodeProgram s.params bytes with
    | error e => rw [runCommand_of_decode_error opened decoded] at refused; cases refused
    | ok prog => rw [runCommand_of_decode_ok opened decoded] at refused; cases refused

theorem createCommand_error_unchanged {s : State} {k : FailKind} (refused : (createCommand s).1 = some (.error k)) :
    (createCommand s).2 = s := by
  cases created : createCheckpoint s with
  | error e => rw [createCommand_of_error created]
  | ok r => rw [createCommand_of_ok created] at refused; cases refused

/-! ## The statements -/

/-- Settles O25: with no RUN to return and no command issued the host's turn is empty. -/
theorem idleWithoutCommandsStays : Obligations.IdleWithoutCommandsStays := by
  intro s notRunning returned empty
  rw [step_of_not_running notRunning, hostTurn_of_no_command returned empty]

/-- Settles O26: an engine step leaves the queues alone; the host's turn returns a RUN before it takes a command. -/
theorem hostCommandsTakenInOrder : Obligations.HostCommandsTakenInOrder := by
  intro s
  refine ⟨?running, ?pending, ?command⟩
  case running =>
    intro running t stepped
    rw [step_of_running running] at stepped
    exact (engineStep_effect stepped).queues_eq
  case pending =>
    intro notRunning pending
    rw [step_of_not_running notRunning, hostTurn_of_pending pending]
    rfl
  case command =>
    intro notRunning returned c rest issued
    rw [step_of_not_running notRunning, hostTurn_of_command returned issued]
    rfl

/-- Settles O27: an error is answered beside the state the command found. -/
theorem hostErrorsChangeNothing : Obligations.HostErrorsChangeNothing := by
  intro c s k refused
  cases c with
  | run bytes => exact runCommand_error_unchanged refused
  | csrRead | regRead | memRead => exact answerValue_unchanged s _
  | csrWrite | regWrite | memWrite | charge | beginTransaction | commitTransaction | rollbackTransaction
  | commitCheckpoint | rollbackCheckpoint => exact answer_error_unchanged refused
  | createCheckpoint => exact createCommand_error_unchanged refused
  | updateFactors | logAppend | accountWrite => cases refused
  | logRead | accountRead => rfl

/-- Settles O41: the transaction and then the decoder decide between the refusal, the halt and the start. -/
theorem runCommandStartsOrRejects : Obligations.RunCommandStartsOrRejects := by
  intro s bytes
  refine ⟨runCommand_of_closed, fun opened e rejected => ?_, fun opened prog decoded => ?_⟩
  · refine (runCommand_of_decode_error opened rejected).trans ?_
    obtain ⟨kind, offset, index⟩ := e
    cases kind <;> rfl
  · exact runCommand_of_decode_ok opened decoded

/-- Settles O44: the checks in their order; the charge that fits writes the meter only, so the stack pushed on is the
one found. -/
theorem createCheckpointCommand : Obligations.CreateCheckpointCommand := by
  intro s
  refine ⟨?closed, ?full, fun opened room => ⟨?unaffordable, ?created⟩⟩
  case closed =>
    intro closed
    exact createCommand_of_error (createCheckpoint_of_closed (State.txnOpen_eq_false_iff.2 closed))
  case full => exact fun opened full => createCommand_of_error (createCheckpoint_of_full opened full)
  case unaffordable =>
    exact fun e unaffordable => createCommand_of_error (createCheckpoint_of_charge_error opened room unaffordable)
  case created =>
    intro t charged
    obtain ⟨-, rfl⟩ := charge_ok.1 charged
    exact createCommand_of_ok (createCheckpoint_ok.2 ⟨opened, room, rfl, _, charged, rfl⟩)

/-- Settles O47: each port passes on its unit's answer, or the kind of its unit's failure. -/
theorem registerMemoryAndChargePorts : Obligations.RegisterMemoryAndChargePorts := by
  intro s r addr v category units n
  refine ⟨?badRegister, ?register, ?outside, ?inside, ?noCategory, ?category⟩
  case badRegister =>
    intro above
    have bad : regIdOk r = false := Bool.eq_false_iff.2 (mt regIdOk_iff_le.1 (by omega))
    exact ⟨answerValue_of_error s (asCommandError_of_error (readReg_error.2 ⟨bad, rfl⟩)),
      answer_of_error s (asCommandError_of_error (writeReg_error.2 ⟨bad, rfl⟩))⟩
  case register =>
    intro inRange
    have rOk := regIdOk_iff_le.2 inRange
    have written : writeReg r v s = .ok _ := writeReg_ok.2 ⟨rOk, rfl⟩
    exact ⟨answerValue_of_ok s (asCommandError_of_ok (readReg_ok.2 ⟨rOk, rfl⟩)), _, written,
      answer_of_ok s (asCommandError_of_ok written)⟩
  case outside =>
    intro outside
    have bad := inBounds_eq_false_iff.2 outside
    exact ⟨answerValue_of_error s (asCommandError_of_error (memRead_error.2 ⟨bad, rfl⟩)),
      answer_of_error s (asCommandError_of_error (memWrite_error.2 ⟨bad, rfl⟩))⟩
  case inside =>
    intro inside
    have read : memRead addr n s = .ok _ := memRead_ok.2 ⟨inBounds_iff.2 inside, rfl⟩
    have written : memWrite addr n v s = .ok _ := memWrite_ok.2 ⟨inBounds_iff.2 inside, rfl⟩
    exact ⟨⟨_, read, answerValue_of_ok s (asCommandError_of_ok read)⟩, _, written,
      answer_of_ok s (asCommandError_of_ok written)⟩
  case noCategory => exact fun large => answer_of_error s (chargeCommand_of_no_category s large)
  case category =>
    intro small
    obtain ⟨c, number⟩ := exists_category_num small
    have port := chargeCommand_of_category (units := units) s number
    refine ⟨c, number, fun t charged => ?_, fun e unaffordable => ?_⟩
    · exact answer_of_ok s (port.trans (asCommandError_of_ok charged))
    · obtain ⟨-, rfl⟩ := charge_error.1 unaffordable
      exact answer_of_error s (port.trans (asCommandError_of_error unaffordable))

end Sys2Proof.Machine
end

