-- ==== Sys2Proof/Proofs/CsrPort.lean ====
section
/-! SUPPORT. The CSR port (10_state.md R45, R46): the 14 RW registers as one family, read and written at their indexes,
and the other registers, which read no configuration. -/

namespace Sys2Proof.Machine

/-! ## The configuration registers -/

/-- The RW registers of 10_state.md R45. -/
inductive ConfigRegister where
  | baseRate
  | cyclesPerCu
  | invokeUnits
  | logUnits
  | returnUnits
  | checkpointUnits
  | mult (c : Category)
deriving DecidableEq

/-- The index of a configuration register (10_state.md R45). -/
def ConfigRegister.index : ConfigRegister → BitVec 8
  | .baseRate => 0x20
  | .cyclesPerCu => 0x21
  | .invokeUnits => 0x22
  | .logUnits => 0x23
  | .returnUnits => 0x24
  | .checkpointUnits => 0x25
  | .mult c => BitVec.ofNat 8 (0x28 + c.num)

/-- What a configuration register holds. -/
def ConfigRegister.get (cfg : MeterConfig) : ConfigRegister → BitVec 32
  | .baseRate => cfg.baseRate
  | .cyclesPerCu => cfg.cyclesPerCu
  | .invokeUnits => cfg.invokeUnits
  | .logUnits => cfg.logUnits
  | .returnUnits => cfg.returnUnits
  | .checkpointUnits => cfg.checkpointUnits
  | .mult c => multOf cfg c

/-- The configuration with one register written. -/
def ConfigRegister.set (cfg : MeterConfig) (v : BitVec 32) : ConfigRegister → MeterConfig
  | .baseRate => { cfg with baseRate := v }
  | .cyclesPerCu => { cfg with cyclesPerCu := v }
  | .invokeUnits => { cfg with invokeUnits := v }
  | .logUnits => { cfg with logUnits := v }
  | .returnUnits => { cfg with returnUnits := v }
  | .checkpointUnits => { cfg with checkpointUnits := v }
  | .mult c => setMult c cfg v

theorem Category.num_lt (c : Category) : c.num < 8 := by cases c <;> decide

theorem Category.num_injective {c d : Category} (same : c.num = d.num) : c = d := by
  have found : some c = some d := by rw [← category_ofNum?_num, ← category_ofNum?_num, same]
  exact Option.some.inj found

theorem multOf_setMult (cfg : MeterConfig) (c d : Category) (v : BitVec 32) :
    multOf (setMult c cfg v) d = if d = c then v else multOf cfg d := by
  by_cases same : d = c
  · subst same
    simp [multOf, setMult, d.num_lt]
  · have different : c.num ≠ d.num := fun h => same (Category.num_injective h).symm
    simp [multOf, setMult, same, different, d.num_lt]

/-- A configuration register reads what was last written to it, whatever is written to the others. -/
theorem ConfigRegister.get_set (cfg : MeterConfig) (v : BitVec 32) (r q : ConfigRegister) :
    q.get (r.set cfg v) = if q = r then v else q.get cfg := by
  cases r with
  | mult c =>
    cases q with
    | mult d => simpa [ConfigRegister.get, ConfigRegister.set] using multOf_setMult cfg c d v
    | _ => rfl
  | _ => cases q <;> rfl

/-- Every configuration register, in the order of the indexes. -/
def configRegisters : List ConfigRegister :=
  [.baseRate, .cyclesPerCu, .invokeUnits, .logUnits, .returnUnits, .checkpointUnits, .mult .arith, .mult .memory,
    .mult .control, .mult .hash, .mult .sigverify, .mult .cpi, .mult .syscall, .mult .checkpoint]

theorem mem_configRegisters (r : ConfigRegister) : r ∈ configRegisters := by
  cases r with
  | mult c => cases c <;> decide
  | _ => decide

theorem ConfigRegister.index_injective {r q : ConfigRegister} (same : r.index = q.index) : r = q := by
  have distinct : (configRegisters.map ConfigRegister.index).Nodup := by decide
  exact List.inj_on_of_nodup_map distinct (mem_configRegisters r) (mem_configRegisters q) same

/-! ## The port at a configuration register -/

theorem csrRead_config (r : ConfigRegister) (s : State) :
    csrRead r.index s = .ok ((r.get s.meter.cfg).setWidth 64) := by
  cases r with
  | mult c => cases c <;> rfl
  | _ => rfl

theorem csrWrite_config (r : ConfigRegister) (v : Word) (s : State) :
    csrWrite r.index v s = .ok { s with meter := { s.meter with cfg := r.set s.meter.cfg (v.setWidth 32) } } := by
  cases r with
  | mult c => cases c <;> rfl
  | _ => rfl

theorem setMult_eq_set (c : Category) (cfg : MeterConfig) (v : BitVec 32) :
    setMult c cfg v = { cfg with mult := cfg.mult.set c.num v c.num_lt } := by
  have sameVector : cfg.mult.setIfInBounds c.num v = cfg.mult.set c.num v c.num_lt := by
    ext i hi
    simp [Vector.getElem_set, Vector.getElem_setIfInBounds]
  rw [setMult, sameVector]

theorem csrWrite_mult (c : Category) (v : Word) (s : State) :
    csrWrite (ConfigRegister.mult c).index v s =
      .ok { s with
            meter :=
              { s.meter with
                cfg := { s.meter.cfg with mult := s.meter.cfg.mult.set c.num (v.setWidth 32) c.num_lt } } } := by
  rw [csrWrite_config, ConfigRegister.set, setMult_eq_set]

/-! ## The port at the other registers -/

/-- The rows before the first RW register read no configuration. -/
theorem csrReadRows_ignore_config (s : State) (cfg : MeterConfig) :
    ∀ row ∈ csrReadRows.take 24, row.2 { s with meter := { s.meter with cfg := cfg } } = row.2 s := by
  simp [csrReadRows, statusWord, State.txnOpen, State.ckptDepth, State.ckptTopId]

/-- An index that no RW register has reads the same under every configuration. -/
theorem csrRead_ignores_config {j : BitVec 8} (other : j ∉ configRegisters.map ConfigRegister.index) (s : State)
    (cfg : MeterConfig) : csrRead j { s with meter := { s.meter with cfg := cfg } } = csrRead j s := by
  have noConfigRow : (csrReadRows.drop 24).lookup j = none := lookup_eq_none_iff_not_mem.2 other
  have stateRow : csrReadRows.lookup j = (csrReadRows.take 24).lookup j := by
    conv_lhs => rw [← List.take_append_drop 24 csrReadRows, List.lookup_append, noConfigRow, Option.or_none]
  cases found : (csrReadRows.take 24).lookup j with
  | none => simp [csrRead, stateRow, found]
  | some read =>
    obtain ⟨before, after, rows, -⟩ := List.lookup_eq_some_iff.1 found
    have mem : (j, read) ∈ csrReadRows.take 24 := by simp [rows]
    simpa [csrRead, stateRow, found] using csrReadRows_ignore_config s cfg (j, read) mem

theorem ckptTopId_eq (s : State) : s.ckptTopId = (s.ckpt.stack.head?.map Checkpoint.id).getD 0 := by
  unfold State.ckptTopId
  cases s.ckpt.stack <;> rfl

theorem csrWrite_of_unmapped {i : BitVec 8} (unmapped : i ∉ csrWriteRows.map Prod.fst) (v : Word) (s : State) :
    csrWrite i v s = .error .invalidRegister := by
  simp [csrWrite, lookup_eq_none_iff_not_mem.2 unmapped]

theorem csrRead_of_unmapped {i : BitVec 8} (unmapped : i ∉ csrReadRows.map Prod.fst) (s : State) :
    csrRead i s = .error .invalidRegister := by
  simp [csrRead, lookup_eq_none_iff_not_mem.2 unmapped]

theorem csrRead_of_mapped {i : BitVec 8} (mapped : i ∈ csrReadRows.map Prod.fst) (s : State) :
    ∃ w, csrRead i s = .ok w := by
  cases found : csrReadRows.lookup i with
  | none => exact absurd mapped (lookup_eq_none_iff_not_mem.1 found)
  | some read => exact ⟨read s, by simp [csrRead, found]⟩

/-- The mapped indexes of 10_state.md R45, as its ranges. -/
theorem mapped_iff (i : BitVec 8) :
    i ∈ csrReadRows.map Prod.fst ↔
      i.toNat ≤ 0x15 ∨ i = 0x18 ∨ i = 0x19 ∨ (0x20 ≤ i.toNat ∧ i.toNat ≤ 0x25) ∨
        (0x28 ≤ i.toNat ∧ i.toNat ≤ 0x2f) := by
  revert i
  decide

/-! ## The statement -/

/-- Settles O39: each row is the map's; the RW registers are one family, of which a write changes one; the indexes are
those of the map's rows. -/
theorem csrPortAccess : Obligations.CsrPortAccess := by
  intro s i v
  refine ⟨?reads, ?writes, ?readsBack, ?readOnly, ?mapped, ?unmapped⟩
  case reads =>
    rw [← ckptTopId_eq s]
    intro row mem
    fin_cases mem <;> rfl
  case writes =>
    intro row mem
    fin_cases mem
    exacts [csrWrite_config .baseRate v s, csrWrite_config .cyclesPerCu v s, csrWrite_config .invokeUnits v s,
      csrWrite_config .logUnits v s, csrWrite_config .returnUnits v s, csrWrite_config .checkpointUnits v s,
      csrWrite_mult .arith v s, csrWrite_mult .memory v s, csrWrite_mult .control v s, csrWrite_mult .hash v s,
      csrWrite_mult .sigverify v s, csrWrite_mult .cpi v s, csrWrite_mult .syscall v s, csrWrite_mult .checkpoint v s]
  case readsBack =>
    intro writable
    obtain ⟨r, -, rfl⟩ := List.mem_map.1 (show i ∈ configRegisters.map ConfigRegister.index from writable)
    refine ⟨r.set s.meter.cfg (v.setWidth 32), csrWrite_config r v s, fun j => ?_⟩
    by_cases config : j ∈ configRegisters.map ConfigRegister.index
    case pos =>
      obtain ⟨q, -, rfl⟩ := List.mem_map.1 config
      rw [csrRead_config, csrRead_config, ConfigRegister.get_set]
      by_cases same : q = r
      · rw [if_pos same, if_pos (congrArg _ same)]
      · rw [if_neg same, if_neg (mt ConfigRegister.index_injective same)]
    case neg =>
      have different : j ≠ r.index := fun same => config (same ▸ List.mem_map_of_mem (mem_configRegisters r))
      rw [if_neg different, csrRead_ignores_config config]
  case readOnly => exact fun notWritable => csrWrite_of_unmapped notWritable v s
  case mapped => exact fun inRange => csrRead_of_mapped ((mapped_iff i).2 inRange) s
  case unmapped => exact fun outside => csrRead_of_unmapped (mt (mapped_iff i).1 outside) s

end Sys2Proof.Machine
end

