-- ==== Sys2Proof/Proofs/MeteredSteps.lean ====
section
/-! SUPPORT. Charges over engine steps (40_compute_meter.md R122, R125): a free charge, the counters of a step, the step
of a placed instruction, and the number of steps of a run. -/

namespace Sys2Proof.Machine

/-! ## One charge -/

/-- A meter within its limits takes a charge of cost 0 and stays as it is (40_compute_meter.md R125). -/
theorem commitCharge_of_cost_zero {m : Meter} {c : Category} {units : Nat} (free : costCu m c units = 0) :
    commitCharge m c units = m := by
  simp [commitCharge, costCyc, free]

theorem chargeFits_of_cost_zero {m : Meter} {c : Category} {units : Nat} (within : MeterOk m)
    (free : costCu m c units = 0) : chargeFits m c units = true := by
  obtain ⟨cu, cyc⟩ := within
  exact chargeFits_iff.2 ⟨by simpa [free] using BitVec.le_def.1 cu, by simpa [costCyc, free] using BitVec.le_def.1 cyc⟩

theorem commitCharge_used_le {m : Meter} {c : Category} {units : Nat} (fits : chargeFits m c units = true) :
    m.cuUsed ≤ (commitCharge m c units).cuUsed ∧ m.cycUsed ≤ (commitCharge m c units).cycUsed := by
  obtain ⟨cu, cyc⟩ := commitCharge_exact fits
  exact ⟨BitVec.le_def.2 (by omega), BitVec.le_def.2 (by omega)⟩

/-! ## The placed instruction -/

/-- Placing an instruction that decodes changes no parameter and no configuration, and starts the engine on its record
(log 7). -/
theorem placeInstruction_of_ok {s : State} {bytes : List Byte} {d : Decoded} {n : Nat}
    (accepted : decodeOne s.params bytes = .ok (d, n)) :
    (placeInstruction bytes s).params = s.params ∧ (placeInstruction bytes s).meter.cfg = s.meter.cfg ∧
      (placeInstruction bytes s).engState = .running ∧ (placeInstruction bytes s).stepCount = 0 ∧
      fetch (placeInstruction bytes s) = some d := by
  unfold placeInstruction
  rw [accepted]
  cases s.txnOpen with
  | false => exact ⟨rfl, rfl, rfl, rfl, rfl⟩
  | true => exact ⟨rfl, rfl, rfl, rfl, rfl⟩

/-! ## The length of a run -/

/-- A step of a Running state halts it or charges and counts one more instruction (41_engine.md R148, R153). -/
theorem EngineEffect.halts_or_counts {s t : State} (effect : EngineEffect s t) (running : s.engState = .running)
    (valid : s.params.Valid) (below : s.stepCount.toNat ≤ s.params.maxSteps) :
    t.params = s.params ∧ t.stepCount.toNat ≤ t.params.maxSteps ∧
      (halted t ∨ t.engState = .running ∧ t.stepCount.toNat = s.stepCount.toNat + 1) := by
  cases effect with
  | early k => exact ⟨rfl, below, .inl (.inr rfl)⟩
  | overBudget i =>
    obtain ⟨params, stepCount, -⟩ := autoRollback_frame (haltFailure (.plain .insufficientBudget) s)
    rw [params, stepCount]
    exact ⟨rfl, below, .inl (.inr (autoRollback_engState _))⟩
  | ran i _ room fits ran =>
    obtain ⟨-, -, -, -, bound, -⟩ := valid
    obtain ⟨params, -, -, stepCount, -⟩ := hostSide_eq_iff.1 ran.hostSide_eq
    have counted : t.stepCount.toNat = s.stepCount.toNat + 1 := by
      rw [stepCount, countStep_stepCount, State.withMeter_stepCount, BitVec.toNat_add]
      exact Nat.mod_eq_of_lt (by simp; omega)
    have paramsKept : t.params = s.params := params
    refine ⟨paramsKept, by rw [counted, paramsKept]; exact room, ?_⟩
    obtain ⟨stillRunning, -⟩ | rfl | ⟨e, -, rfl⟩ := ran.running_cases running
    · exact .inr ⟨stillRunning, counted⟩
    · exact .inl (.inl rfl)
    · exact .inl (.inr rfl)

theorem runToHalt_of_not_running {s : State} (notRunning : s.engState ≠ .running) (n : Nat) : runToHalt n s = s := by
  cases n with
  | zero => rfl
  | succ n => simp [runToHalt, notRunning]

theorem runToHalt_of_step {s t : State} (running : s.engState = .running) (stepped : step s = .next t) (n : Nat) :
    runToHalt (n + 1) s = runToHalt n t := by
  simp [runToHalt, running, stepped]

theorem not_running_of_halted {s : State} (ended : halted s) : s.engState ≠ .running := by
  obtain success | failure := ended
  · simp [success]
  · simp [failure]

/-- At the ceiling the step halts (41_engine.md R145). -/
theorem EngineEffect.count_lt_of_running {s t : State} (effect : EngineEffect s t) (running : t.engState = .running) :
    s.stepCount.toNat < s.params.maxSteps := by
  cases effect with
  | early k => cases running
  | overBudget i below => exact below
  | ran i _ below => exact below

/-- With n counted steps left to the ceiling a run halts within n + 1 steps, by induction on n (41_engine.md R156). -/
theorem halted_runToHalt {n : Nat} {s : State} (valid : s.params.Valid) (running : s.engState = .running)
    (below : s.stepCount.toNat ≤ s.params.maxSteps) (left : s.params.maxSteps - s.stepCount.toNat ≤ n) :
    halted (runToHalt (n + 1) s) ∧ (runToHalt (n + 1) s).stepCount.toNat ≤ s.params.maxSteps := by
  induction n generalizing s with
  | zero =>
    obtain ⟨t, stepped⟩ := step_answers s
    have effect := engineStep_effect ((step_of_running running).symm.trans stepped)
    obtain ⟨params, bound, ended | ⟨stillRunning, -⟩⟩ := effect.halts_or_counts running valid below
    · rw [runToHalt_of_step running stepped]
      exact ⟨ended, params ▸ bound⟩
    · have := effect.count_lt_of_running stillRunning
      omega
  | succ n ih =>
    obtain ⟨t, stepped⟩ := step_answers s
    have effect := engineStep_effect ((step_of_running running).symm.trans stepped)
    rw [runToHalt_of_step running stepped]
    obtain ⟨params, bound, ended | ⟨stillRunning, counted⟩⟩ := effect.halts_or_counts running valid below
    · rw [runToHalt_of_not_running (not_running_of_halted ended)]
      exact ⟨ended, params ▸ bound⟩
    · rw [← params]
      exact ih (params ▸ valid) stillRunning bound (by rw [params, counted]; omega)

/-! ## The statements -/

/-- Settles O35: the charge fits, and the sums committed are the counters themselves. -/
theorem zeroCostChargeChangesNothing : Obligations.ZeroCostChargeChangesNothing := by
  intro s c units within free
  refine charge_ok.2 ⟨chargeFits_of_cost_zero within free, ?_⟩
  rw [commitCharge_of_cost_zero free]
  rfl

/-- Settles O36: a halt before the charge leaves the meter, an instruction runs on the meter the charge left, and the
budget halt is the one excluded. -/
theorem engineStepNeverLowersUsedCounters : Obligations.EngineStepNeverLowersUsedCounters := by
  intro s t running stepped notBudget
  cases engineStep_effect ((step_of_running running).symm.trans stepped) with
  | early k => exact ⟨BitVec.le_refl _, BitVec.le_refl _⟩
  | overBudget i =>
    rw [autoRollback_latches] at notBudget
    exact absurd rfl notBudget
  | ran i _ below fits ran =>
    obtain ⟨-, -, -, -, meter, -⟩ := hostSide_eq_iff.1 ran.hostSide_eq
    rw [meter]
    exact commitCharge_used_le fits

/-- Settles O23: the placed record is fetched at pc 0, stands for the instruction, and is below the ceiling. -/
theorem stepRunsPlacedInstruction : Obligations.StepRunsPlacedInstruction := by
  intro s i rest valid wf
  obtain ⟨-, decodes⟩ := decodesTo_encode valid wf
  obtain ⟨d, accepted, stands⟩ := decodes rest
  obtain ⟨params, cfg, running, stepCount, fetched⟩ := placeInstruction_of_ok accepted
  refine ⟨running, fun t charged => ?_⟩
  obtain ⟨-, bound, -⟩ := valid
  have room : (placeInstruction (encode s.params i ++ rest) s).stepCount.toNat <
      (placeInstruction (encode s.params i ++ rest) s).params.maxSteps := by
    rw [params, stepCount]
    exact lt_of_le_of_lt (Nat.zero_le _) bound
  rw [← params] at stands
  rw [← cfg] at charged
  rw [step_of_running running, engineStep_of_fetch_some room fetched stands, meterAndRun_of_charge_ok charged,
    countStep_of_charge_ok charged, stepCount]
  rfl

/-- Settles O51: MAX_STEPS less STEP_COUNT counted steps are left, and the step after the last halts. -/
theorem everyRunTerminates : Obligations.EveryRunTerminates :=
  fun _ valid running below => halted_runToHalt valid running below le_rfl

end Sys2Proof.Machine
end

