-- ==== Sys2Proof/Proofs/Invariant.lean ====
section
/-! SUPPORT. The invariant (10_state.md R29 to R44, 46_checkpoint.md R319 to R324): what each operation keeps of it, and
so every effect of an instruction, of the engine and of a command. -/

namespace Sys2Proof.Machine

/-! ## The parts -/

theorem FailKind.code_ne_zero (k : FailKind) : k.code ≠ 0 := by cases k <;> decide

theorem FailKind.code_le (k : FailKind) : k.code ≤ 11 := by cases k <;> decide

theorem FailKind.code_memoryOutOfBounds {k : FailKind} (oob : k = .memoryOutOfBounds) : k.code = 2 := by rw [oob]; rfl

/-- A failure halt writes the latches as 10_state.md R33 reads them. -/
theorem latchesOk_haltFailure (e : Raised) (s : State) : LatchesOk (haltFailure e s) := by
  refine ⟨fun _ => rfl, iff_of_true rfl e.kind.code_ne_zero, e.kind.code_le, fun notOob => ?_, fun noAddress => ?_⟩
  · exact if_neg (mt FailKind.code_memoryOutOfBounds notOob)
  · have notOob : e.kind.code ≠ 2 := fun oob => noAddress (by simp [oob])
    exact if_neg (mt FailKind.code_memoryOutOfBounds notOob)

theorem latchesOk_haltSuccess (code : Word) (s : State) : LatchesOk (haltSuccess code s) :=
  ⟨fun notSuccess => absurd rfl notSuccess, iff_of_false nofun (by simp), by simp, fun _ => rfl, fun _ => rfl⟩

theorem latchesOk_decodeHalt (e : DecodeError) (s : State) : LatchesOk (decodeHalt e s) := by
  obtain ⟨kind, offset, index⟩ := e
  have addressed : (DecodeFailure.failKind kind).code ∈ [2, 3, 4, 9] := by cases kind <;> decide
  exact ⟨fun _ => rfl, iff_of_true rfl (FailKind.code_ne_zero _), FailKind.code_le _, fun _ => rfl,
    fun noAddress => absurd addressed noAddress⟩

theorem meterOk_commitCharge {m : Meter} {c : Category} {units : Nat} (fits : chargeFits m c units = true) :
    MeterOk (commitCharge m c units) := by
  obtain ⟨cu, cyc⟩ := commitCharge_exact fits
  obtain ⟨cuFits, cycFits⟩ := chargeFits_iff.1 fits
  exact ⟨BitVec.le_def.2 (cu ▸ cuFits), BitVec.le_def.2 (cyc ▸ cycFits)⟩

/-- Snapshots stay restorable while their limits stay and the log does not shrink. -/
theorem SnapshotOk.mono {s t : State} {snap : Snapshot} (ok : SnapshotOk s snap) (params : t.params = s.params)
    (cuLimit : t.meter.cuLimit = s.meter.cuLimit) (cycLimit : t.meter.cycLimit = s.meter.cycLimit)
    (log : s.log.length ≤ t.log.length) : SnapshotOk t snap := by
  obtain ⟨memory, cu, cyc, logLen⟩ := ok
  exact ⟨params ▸ memory, cuLimit ▸ cu, cycLimit ▸ cyc, logLen.trans log⟩

theorem SnapshotsOk.mono {s t : State} (ok : SnapshotsOk s) (ckpt : liveSnapshots t.ckpt = liveSnapshots s.ckpt)
    (params : t.params = s.params) (cuLimit : t.meter.cuLimit = s.meter.cuLimit)
    (cycLimit : t.meter.cycLimit = s.meter.cycLimit) (log : s.log.length ≤ t.log.length) : SnapshotsOk t := by
  obtain ⟨restorable, ordered⟩ := ok
  unfold SnapshotsOk
  rw [ckpt]
  exact ⟨fun snap live => (restorable snap live).mono params cuLimit cycLimit log, ordered⟩

theorem SnapshotOk.logLen_le {s : State} {snap : Snapshot} (ok : SnapshotOk s snap) : snap.logLen ≤ s.log.length := by
  obtain ⟨-, -, -, logLen⟩ := ok
  exact logLen

theorem capture_snapshotOk {s : State} (memory : MemoryOk s.params s.mem) (meter : MeterOk s.meter) :
    SnapshotOk s (capture s) :=
  ⟨memory, meter.1, meter.2, le_rfl⟩

/-- With no transaction open no checkpoint is (46_checkpoint.md R319). -/
theorem TransactionOk.stack_eq_nil {s : State} (ok : TransactionOk s) (closed : s.txnOpen = false) :
    s.ckpt.stack = [] := by
  by_contra nonempty
  simp [ok.1 nonempty] at closed

theorem decodeProgram_ok {p : Params} {bytes : List Byte} {prog : List Decoded}
    (decoded : decodeProgram p bytes = .ok prog) :
    (∀ d ∈ prog, (d.instr? p).isSome = true ∧ regIdOk d.dst = true ∧ regIdOk d.src = true) ∧
      (prog.map fun d => opcodeLength d.opc).sum = bytes.length :=
  decodeLoop_ok decoded

/-! ## Operations -/

section
variable {s : State} (inv : Inv s)
include inv

/-- The model's queues and pending RUN are no part of the invariant (log 5). -/
theorem Inv.withQueues (hostIn : List HostCommand) (hostOut : List HostResponse) (runPending : Bool) :
    Inv { s with hostIn := hostIn, hostOut := hostOut, runPending := runPending } :=
  { inv with }

theorem Inv.withMeter {m : Meter} (cuLimit : m.cuLimit = s.meter.cuLimit) (cycLimit : m.cycLimit = s.meter.cycLimit)
    (ok : MeterOk m) : Inv (s.withMeter m) :=
  { inv with
    meter := ok
    snapshots := inv.snapshots.mono rfl rfl cuLimit cycLimit le_rfl }

theorem Inv.charge {c : Category} {units : Nat} (fits : chargeFits s.meter c units = true) :
    Inv (s.withMeter (commitCharge s.meter c units)) :=
  inv.withMeter rfl rfl (meterOk_commitCharge fits)

theorem Inv.countStep (below : s.stepCount.toNat < s.params.maxSteps) : Inv (countStep s) := by
  obtain ⟨call, cpi, -, ckpt⟩ := inv.bounds
  obtain ⟨-, -, -, -, bound, -⟩ := inv.params
  have counted : (s.stepCount + 1).toNat = s.stepCount.toNat + 1 := toNat_add_ofNat_of_lt (k := 1) (by omega)
  exact { inv with bounds := ⟨call, cpi, counted.trans_le below, ckpt⟩ }

theorem Inv.store {a : Word} {n : Width} (inside : inBounds a n s = true) (v : Word) :
    Inv (s.withMem (Memory.writeLE s.mem a.toNat n.bytes v)) :=
  { inv with memory := memWrite_memoryOk (memWrite_ok.2 ⟨inside, rfl⟩) inv.memory }

theorem Inv.haltFailure (e : Raised) : Inv (haltFailure e s) :=
  { inv with
    latches := latchesOk_haltFailure e s
    transaction := ⟨inv.transaction.1, nofun⟩ }

theorem Inv.haltSuccess (code : Word) : Inv (haltSuccess code s) :=
  { inv with
    latches := latchesOk_haltSuccess code s
    transaction := ⟨inv.transaction.1, nofun⟩ }

/-- The body of ROLLBACK_TRANSACTION on an engine that does not run (46_checkpoint.md R315). -/
theorem Inv.rollbackBase {base : Snapshot} (opened : s.ckpt.txnBase = some base) (notRunning : s.engState ≠ .running) :
    Inv ((restore base s).withCkpt { (restore base s).ckpt with stack := [], txnBase := none, dirty := false }) := by
  have live : base ∈ liveSnapshots s.ckpt := by simp [liveSnapshots, opened]
  obtain ⟨memory, cu, cyc, -⟩ := inv.snapshots.1 base live
  obtain ⟨call, cpi, count, -⟩ := inv.bounds
  exact { inv with
    memory := memory
    meter := ⟨cu, cyc⟩
    bounds := ⟨call, cpi, count, Nat.zero_le _⟩
    snapshots := ⟨nofun, .nil⟩
    transaction := ⟨fun nonempty => absurd rfl nonempty, fun running => absurd running notRunning⟩ }

theorem Inv.autoRollback (notRunning : s.engState ≠ .running) : Inv (autoRollback s) := by
  obtain ⟨-, same⟩ | ⟨base, opened, rolledBack⟩ := autoRollback_cases s
  · rw [same]
    exact inv
  · rw [rolledBack]
    exact inv.rollbackBase opened notRunning

theorem Inv.startRun {bytes : List Byte} {prog : List Decoded} (opened : s.txnOpen = true)
    (decoded : decodeProgram s.params bytes = .ok prog) : Inv (startRun prog bytes.length s) := by
  obtain ⟨records, length⟩ := decodeProgram_ok decoded
  obtain ⟨-, -, -, ckpt⟩ := inv.bounds
  exact { inv with
    bounds := ⟨Nat.zero_le _, Nat.zero_le _, Nat.zero_le _, ckpt⟩
    program := ⟨records, congrArg countWord length.symm⟩
    latches := ⟨fun _ => rfl, iff_of_false nofun (by simp [Machine.startRun]), by simp [Machine.startRun], fun _ => rfl,
      fun _ => rfl⟩
    transaction := ⟨inv.transaction.1, fun _ => opened⟩ }

theorem Inv.decodeHalt (e : DecodeError) : Inv (decodeHalt e s) := by
  obtain ⟨call, cpi, -, ckpt⟩ := inv.bounds
  exact { inv with
    bounds := ⟨call, cpi, Nat.zero_le _, ckpt⟩
    program := ⟨nofun, rfl⟩
    latches := latchesOk_decodeHalt e s
    transaction := ⟨inv.transaction.1, nofun⟩ }

theorem Inv.beginTransaction {cu cyc : Word} {t : State} (began : beginTransaction cu cyc s = .ok t) : Inv t := by
  obtain ⟨closed, rfl⟩ := beginTransaction_ok.1 began
  have noCheckpoint := inv.transaction.stack_eq_nil closed
  have live (base : Snapshot) : liveSnapshots { s.ckpt with dirty := false, txnBase := some base } = [base] := by
    simp [liveSnapshots, noCheckpoint]
  have zeroLe (v : Word) : 0 ≤ v := BitVec.le_def.2 (Nat.zero_le _)
  refine { inv with
    meter := ⟨zeroLe cu, zeroLe cyc⟩
    snapshots := ?_
    transaction := ⟨fun _ => rfl, fun _ => rfl⟩ }
  unfold SnapshotsOk
  rw [live]
  exact ⟨List.forall_mem_singleton.2 ⟨inv.memory, zeroLe cu, zeroLe cyc, le_rfl⟩, List.pairwise_singleton _ _⟩

theorem Inv.commitTransaction {t : State} (committed : commitTransaction s = .ok t)
    (notRunning : s.engState ≠ .running) : Inv t := by
  obtain ⟨-, noCheckpoint, rfl⟩ := commitTransaction_ok.1 committed
  have live : liveSnapshots { s.ckpt with txnBase := none, dirty := false } = [] := by
    simp [liveSnapshots, noCheckpoint]
  refine { inv with
    snapshots := ?_
    transaction := ⟨fun nonempty => absurd noCheckpoint nonempty, fun running => absurd running notRunning⟩ }
  unfold SnapshotsOk
  rw [State.withCkpt_ckpt, live]
  exact ⟨nofun, .nil⟩

theorem Inv.createCheckpoint {id : Word} {t : State} (created : createCheckpoint s = .ok (id, t)) : Inv t := by
  obtain ⟨opened, room, -, _, charged, rfl⟩ := createCheckpoint_ok.1 created
  obtain ⟨fits, rfl⟩ := charge_ok.1 charged
  have paid := inv.charge fits
  obtain ⟨restorable, ordered⟩ := inv.snapshots
  obtain ⟨call, cpi, count, ckpt⟩ := inv.bounds
  have ckptRoom : s.ckpt.stack.length + 1 ≤ s.params.maxCheckpoints := lt_of_le_of_ne ckpt room
  exact { paid with
    bounds := ⟨call, cpi, count, ckptRoom⟩
    snapshots := ⟨List.forall_mem_cons.2 ⟨capture_snapshotOk inv.memory inv.meter, restorable⟩,
      List.pairwise_cons.2 ⟨fun older live => (restorable older live).logLen_le, ordered⟩⟩
    transaction := ⟨fun _ => opened, inv.transaction.2⟩ }

theorem Inv.commitCheckpoint {id : Word} {t : State} (kept : commitCheckpoint id s = .ok t) : Inv t := by
  obtain ⟨top, rest, stack, -, rfl⟩ := commitCheckpoint_ok.1 kept
  obtain ⟨restorable, ordered⟩ := inv.snapshots
  obtain ⟨call, cpi, count, ckpt⟩ := inv.bounds
  have live : liveSnapshots s.ckpt = top.snap :: liveSnapshots { s.ckpt with stack := rest, dirty := true } := by
    simp [liveSnapshots, stack]
  rw [live] at restorable ordered
  rw [stack] at ckpt
  exact { inv with
    bounds := ⟨call, cpi, count, (Nat.le_succ _).trans ckpt⟩
    snapshots := ⟨(List.forall_mem_cons.1 restorable).2, (List.pairwise_cons.1 ordered).2⟩
    transaction := ⟨fun _ => inv.transaction.1 (by simp [stack]), inv.transaction.2⟩ }

/-- The log is cut to the snapshot's length, which no older snapshot exceeds (46_checkpoint.md R324). -/
theorem Inv.rollbackCheckpoint {id : Word} {t : State} (restored : rollbackCheckpoint id s = .ok t) : Inv t := by
  obtain ⟨top, rest, stack, -, rfl⟩ := rollbackCheckpoint_ok.1 restored
  obtain ⟨restorable, ordered⟩ := inv.snapshots
  obtain ⟨call, cpi, count, ckpt⟩ := inv.bounds
  have live : liveSnapshots s.ckpt =
      top.snap :: liveSnapshots { s.ckpt with stack := rest, dirty := top.snap.dirty } := by
    simp [liveSnapshots, stack]
  rw [live] at restorable ordered
  rw [stack] at ckpt
  obtain ⟨⟨memory, cu, cyc, logLen⟩, restRestorable⟩ := List.forall_mem_cons.1 restorable
  obtain ⟨olderShorter, restOrdered⟩ := List.pairwise_cons.1 ordered
  have cut : (s.log.take top.snap.logLen).length = top.snap.logLen := List.length_take_of_le logLen
  exact { inv with
    memory := memory
    meter := ⟨cu, cyc⟩
    bounds := ⟨call, cpi, count, (Nat.le_succ _).trans ckpt⟩
    snapshots := ⟨fun older isLive =>
      let ⟨olderMemory, olderCu, olderCyc, _⟩ := restRestorable older isLive
      ⟨olderMemory, olderCu, olderCyc, (olderShorter older isLive).trans_eq cut.symm⟩, restOrdered⟩
    transaction := ⟨fun _ => inv.transaction.1 (by simp [stack]), inv.transaction.2⟩ }

theorem Inv.logAppend (e : LogEntry) : Inv { s with log := s.log ++ [e] } :=
  { inv with snapshots := inv.snapshots.mono rfl rfl rfl rfl (by simp) }

end

/-! ## Steps -/

theorem Inv.effect {i : Instr} {s t : State} (inv : Inv s) (effect : Effect i s t) : Inv t := by
  obtain ⟨call, cpi, count, ckpt⟩ := inv.bounds
  cases effect with
  | reg => exact { inv with }
  | store a n v stores inside => exact { inv.store inside v with }
  | jump => exact { inv with }
  | call imm isCall room => exact { inv with bounds := ⟨lt_of_le_of_ne call room, cpi, count, ckpt⟩ }
  | ret top rest isExit frame =>
    rw [frame] at call
    exact { inv with bounds := ⟨(Nat.le_succ _).trans call, cpi, count, ckpt⟩ }
  | success => exact inv.haltSuccess _
  | opened isInvoke room =>
    obtain ⟨-, -, -, -, -, bound, -⟩ := inv.params
    have deeper : s.cpiDepth.toNat + 1 ≤ s.params.maxCpiDepth := lt_of_le_of_ne cpi room
    have counted : (s.cpiDepth + 1).toNat = s.cpiDepth.toNat + 1 := toNat_add_ofNat_of_lt (k := 1) (by omega)
    exact { inv with bounds := ⟨call, counted.trans_le deeper, count, ckpt⟩ }
  | closed isReturn level =>
    have shallower : (s.cpiDepth - 1).toNat ≤ s.cpiDepth.toNat := by
      have positive : s.cpiDepth.toNat ≠ 0 := fun zero => level (BitVec.eq_of_toNat_eq zero)
      bv_omega
    exact { inv with bounds := ⟨call, shallower.trans cpi, count, ckpt⟩ }
  | failure e => exact inv.haltFailure e

theorem Inv.engineEffect {s t : State} (inv : Inv s) (effect : EngineEffect s t) : Inv t := by
  cases effect with
  | early k => exact inv.haltFailure _
  | overBudget i => exact (inv.haltFailure _).autoRollback nofun
  | ran i _ below fits ran => exact ((inv.charge fits).countStep below).effect ran

theorem Inv.commandEffect {s t : State} (inv : Inv s) (notRunning : s.engState ≠ .running)
    (effect : CommandEffect s t) : Inv t := by
  cases effect with
  | same => exact inv
  | started bytes prog opened decoded => exact (inv.startRun opened decoded).withQueues s.hostIn s.hostOut true
  | rejected e => exact inv.decodeHalt e
  | configured cfg mp cl => exact inv.withMeter rfl rfl inv.meter
  | charged c units fits => exact inv.charge fits
  | regs v => exact { inv with }
  | mem addr n v inside => exact inv.store inside v
  | began cu cyc _ began => exact inv.beginTransaction began
  | committed _ committed => exact inv.commitTransaction committed notRunning
  | rolledBack _ rolledBack =>
    obtain ⟨base, opened, rfl⟩ := rollbackTransaction_ok.1 rolledBack
    exact inv.rollbackBase opened notRunning
  | created id _ created => exact inv.createCheckpoint created
  | kept id _ kept => exact inv.commitCheckpoint kept
  | restored id _ restored => exact inv.rollbackCheckpoint restored
  | logged e => exact inv.logAppend e
  | accounts a => exact { inv with }

theorem EngineEffect.params_eq {s t : State} (effect : EngineEffect s t) : t.params = s.params := by
  cases effect with
  | early k => rfl
  | overBudget i =>
    obtain ⟨params, -⟩ := autoRollback_frame (haltFailure (.plain .insufficientBudget) s)
    exact params
  | ran i _ below fits ran => exact (hostSide_eq_iff.1 ran.hostSide_eq).1

theorem CommandEffect.params_eq {s t : State} (effect : CommandEffect s t) : t.params = s.params := by
  cases effect with
  | same | started | rejected | configured | charged | regs | mem | logged | accounts => rfl
  | began cu cyc _ began =>
    obtain ⟨-, rfl⟩ := beginTransaction_ok.1 began
    rfl
  | committed _ committed =>
    obtain ⟨-, -, rfl⟩ := commitTransaction_ok.1 committed
    rfl
  | rolledBack _ rolledBack =>
    obtain ⟨base, -, rfl⟩ := rollbackTransaction_ok.1 rolledBack
    rfl
  | created id _ created =>
    obtain ⟨-, -, -, _, charged, rfl⟩ := createCheckpoint_ok.1 created
    obtain ⟨-, rfl⟩ := charge_ok.1 charged
    rfl
  | kept id _ kept =>
    obtain ⟨_, _, -, -, rfl⟩ := commitCheckpoint_ok.1 kept
    rfl
  | restored id _ restored =>
    obtain ⟨_, _, -, -, rfl⟩ := rollbackCheckpoint_ok.1 restored
    rfl

/-! ## The statements -/

/-- Settles O48: every effect of the engine and of a command keeps the invariant, and the queues are no part of it. -/
theorem everyStepKeepsTheInvariant : Obligations.EveryStepKeepsTheInvariant := by
  intro s t inv stepped
  obtain ⟨-, effect⟩ | ⟨notRunning, rfl⟩ := step_cases stepped
  · exact ⟨inv.engineEffect effect, effect.params_eq⟩
  · obtain ⟨-, returned⟩ | ⟨-, -, stays⟩ | ⟨c, rest, -, -, taken⟩ := hostTurn_cases s
    · rw [returned]
      exact ⟨inv.withQueues _ _ _, rfl⟩
    · rw [stays]
      exact ⟨inv, rfl⟩
    · rw [taken]
      have effect := hostCommand_effect c { s with hostIn := rest }
      exact ⟨((inv.withQueues rest s.hostOut s.runPending).commandEffect notRunning effect).withQueues _ _ _,
        effect.params_eq⟩

/-- Settles O49: every count is 0, every store is empty, and no checkpoint or transaction is open. -/
theorem powerOnMeetsTheInvariant : Obligations.PowerOnMeetsTheInvariant := by
  refine ⟨fun p valid => ⟨?inv, ?ids⟩, by decide⟩
  case inv =>
    exact {
      params := valid
      memory := ⟨rfl, rfl⟩
      meter := ⟨BitVec.le_refl _, BitVec.le_refl _⟩
      bounds := ⟨Nat.zero_le _, Nat.zero_le _, Nat.zero_le _, Nat.zero_le _⟩
      program := ⟨nofun, rfl⟩
      latches := ⟨fun _ => rfl, iff_of_false nofun (by simp [State.powerOn]), by simp [State.powerOn], fun _ => rfl,
        fun _ => rfl⟩
      snapshots := ⟨nofun, .nil⟩
      transaction := ⟨fun nonempty => absurd rfl nonempty, nofun⟩ }
  case ids => exact ⟨.nil, nofun, le_rfl⟩

end Sys2Proof.Machine
end

