-- ==== Sys2Proof/Proofs/Rollback.lean ====
section
/-! SUPPORT. Checkpoints over many steps (46_checkpoint.md R319 to R324): what a step does to the checkpoint stack and
the log, that ids rise, that a checkpoint rolled back restores what its creation captured, and that a budget halt
restores the base of its transaction. -/

namespace Sys2Proof.Machine

/-! ## What a step does to the checkpoint stack and the log -/

/-- The checkpoint stack, CKPT_NEXT_ID and the log after a step, beside those before it. -/
inductive StackEffect (s t : State) : Prop where
  /-- the stack is as it was; the log may have grown -/
  | kept (stack : t.ckpt.stack = s.ckpt.stack) (nextId : t.ckpt.nextId = s.ckpt.nextId) (log : s.log <+: t.log)
  /-- a transaction rolled back (46_checkpoint.md R315) -/
  | cleared (stack : t.ckpt.stack = []) (nextId : t.ckpt.nextId = s.ckpt.nextId)
  /-- a checkpoint created (46_checkpoint.md R316) -/
  | pushed (stack : t.ckpt.stack = { id := s.ckpt.nextId, snap := capture s } :: s.ckpt.stack)
      (nextId : t.ckpt.nextId = s.ckpt.nextId + 1) (log : t.log = s.log)
  /-- a checkpoint committed (46_checkpoint.md R317) -/
  | committed (top : Checkpoint) (stack : s.ckpt.stack = top :: t.ckpt.stack) (nextId : t.ckpt.nextId = s.ckpt.nextId)
      (log : t.log = s.log)
  /-- a checkpoint rolled back (46_checkpoint.md R318) -/
  | restored (top : Checkpoint) (stack : s.ckpt.stack = top :: t.ckpt.stack) (nextId : t.ckpt.nextId = s.ckpt.nextId)
      (log : t.log = s.log.take top.snap.logLen)

theorem EngineEffect.stackEffect {s t : State} (effect : EngineEffect s t) : StackEffect s t := by
  cases effect with
  | early k => exact .kept rfl rfl (List.prefix_refl _)
  | overBudget i =>
    obtain ⟨-, same⟩ | ⟨base, -, rolledBack⟩ := autoRollback_cases (haltFailure (.plain .insufficientBudget) s)
    · rw [same]
      exact .kept rfl rfl (List.prefix_refl _)
    · rw [rolledBack]
      exact .cleared rfl rfl
  | ran i _ below fits ran =>
    obtain ⟨-, -, -, -, -, ckpt, log, -⟩ := hostSide_eq_iff.1 ran.hostSide_eq
    exact .kept (congrArg CkptManager.stack ckpt) (congrArg CkptManager.nextId ckpt) (log ▸ List.prefix_refl _)

theorem CommandEffect.stackEffect {s t : State} (effect : CommandEffect s t) : StackEffect s t := by
  cases effect with
  | same | started | rejected | configured | charged | regs | mem | accounts => exact .kept rfl rfl (List.prefix_refl _)
  | began cu cyc _ began =>
    obtain ⟨-, rfl⟩ := beginTransaction_ok.1 began
    exact .kept rfl rfl (List.prefix_refl _)
  | committed _ committed =>
    obtain ⟨-, -, rfl⟩ := commitTransaction_ok.1 committed
    exact .kept rfl rfl (List.prefix_refl _)
  | rolledBack _ rolledBack =>
    obtain ⟨base, -, rfl⟩ := rollbackTransaction_ok.1 rolledBack
    exact .cleared rfl rfl
  | created id _ created =>
    obtain ⟨-, -, -, _, charged, rfl⟩ := createCheckpoint_ok.1 created
    obtain ⟨-, rfl⟩ := charge_ok.1 charged
    exact .pushed rfl rfl rfl
  | kept id _ kept =>
    obtain ⟨top, rest, stack, -, rfl⟩ := commitCheckpoint_ok.1 kept
    exact .committed top stack rfl rfl
  | restored id _ restored =>
    obtain ⟨top, rest, stack, -, rfl⟩ := rollbackCheckpoint_ok.1 restored
    exact .restored top stack rfl rfl
  | logged e => exact .kept rfl rfl (List.prefix_append _ _)

/-- The model's queues are no part of the stack or the log (log 5). -/
theorem StackEffect.withQueues {s t : State} {hostIn : List HostCommand} (effect : StackEffect { s with hostIn } t)
    (hostOut : List HostResponse) : StackEffect s { t with hostOut } := by
  cases effect with
  | kept stack nextId log => exact .kept stack nextId log
  | cleared stack nextId => exact .cleared stack nextId
  | pushed stack nextId log => exact .pushed stack nextId log
  | committed top stack nextId log => exact .committed top stack nextId log
  | restored top stack nextId log => exact .restored top stack nextId log

theorem step_stackEffect {s t : State} (stepped : step s = .next t) : StackEffect s t := by
  obtain ⟨-, effect⟩ | ⟨-, rfl⟩ := step_cases stepped
  · exact effect.stackEffect
  · obtain ⟨-, returned⟩ | ⟨-, -, stays⟩ | ⟨c, rest, -, -, taken⟩ := hostTurn_cases s
    · rw [returned]
      exact .kept rfl rfl (List.prefix_refl _)
    · rw [stays]
      exact .kept rfl rfl (List.prefix_refl _)
    · rw [taken]
      exact (hostCommand_effect c { s with hostIn := rest }).stackEffect.withQueues _

/-! ## Ids -/

theorem ne_allOnes_iff {v : Word} : v ≠ BitVec.allOnes 64 ↔ v.toNat + 1 < 2 ^ 64 := by
  have := v.isLt
  rw [ne_eq, ← BitVec.toNat_inj, BitVec.toNat_allOnes]
  omega

theorem toNat_add_one_of_ne_allOnes {v : Word} (below : v ≠ BitVec.allOnes 64) : (v + 1).toNat = v.toNat + 1 :=
  toNat_add_ofNat_of_lt (k := 1) (ne_allOnes_iff.1 below)

/-- CKPT_NEXT_ID rises by at most one in a step. -/
theorem StackEffect.nextId_bounds {s t : State} (effect : StackEffect s t)
    (below : s.ckpt.nextId ≠ BitVec.allOnes 64) :
    s.ckpt.nextId.toNat ≤ t.ckpt.nextId.toNat ∧ t.ckpt.nextId.toNat ≤ s.ckpt.nextId.toNat + 1 := by
  have grown := toNat_add_one_of_ne_allOnes below
  cases effect with
  | pushed stack nextId =>
    rw [nextId]
    omega
  | kept stack nextId | cleared stack nextId | committed top stack nextId | restored top stack nextId =>
    rw [nextId]
    omega

theorem IdsOk.of_pop {s t : State} {top : Checkpoint} (ids : IdsOk s) (stack : s.ckpt.stack = top :: t.ckpt.stack)
    (nextId : t.ckpt.nextId = s.ckpt.nextId) : IdsOk t := by
  obtain ⟨rising, range, positive⟩ := ids
  rw [stack] at rising range
  unfold IdsOk
  rw [nextId]
  exact ⟨(List.pairwise_cons.1 rising).2, (List.forall_mem_cons.1 range).2, positive⟩

theorem IdsOk.stackEffect {s t : State} (ids : IdsOk s) (below : s.ckpt.nextId ≠ BitVec.allOnes 64)
    (effect : StackEffect s t) : IdsOk t := by
  cases effect with
  | kept stack nextId =>
    unfold IdsOk
    rw [stack, nextId]
    exact ids
  | cleared stack nextId =>
    obtain ⟨-, -, positive⟩ := ids
    unfold IdsOk
    rw [stack, nextId]
    exact ⟨.nil, nofun, positive⟩
  | pushed stack nextId =>
    obtain ⟨rising, range, positive⟩ := ids
    have grown := toNat_add_one_of_ne_allOnes below
    unfold IdsOk
    rw [stack, nextId, grown]
    refine ⟨List.pairwise_cons.2 ⟨fun c older => (range c older).2, rising⟩,
      List.forall_mem_cons.2 ⟨⟨positive, Nat.lt_succ_self _⟩, fun c older => ?_⟩, by omega⟩
    obtain ⟨least, greatest⟩ := range c older
    exact ⟨least, by omega⟩
  | committed top stack nextId => exact ids.of_pop stack nextId
  | restored top stack nextId => exact ids.of_pop stack nextId

/-! ## Many steps -/

theorem after_succ {s t : State} (stepped : step s = .next t) (n : Nat) : after (n + 1) s = after n t := by
  simp [after, stepped]

/-- What every step keeps holds after any number of them. -/
theorem after_keeps {P : State → Prop} (keeps : ∀ s t, P s → step s = .next t → P t) (n : Nat) {s : State}
    (holds : P s) : P (after n s) := by
  induction n generalizing s with
  | zero => exact holds
  | succ n ih =>
    obtain ⟨t, stepped⟩ := step_answers s
    rw [after_succ stepped]
    exact ih (keeps s t holds stepped)

/-! ## A checkpoint rolled back -/

/-- Where the checkpoint that `s` created stands in a later state `u`: gone for good, as its id is not given again, or
still on the stack over those of `s`, with the log of `s` in front of every log since (46_checkpoint.md R319, R324). -/
structure Tracked (s u : State) : Prop where
  idGiven : s.ckpt.nextId.toNat < u.ckpt.nextId.toNat
  place : (∀ c ∈ u.ckpt.stack, c.id ≠ s.ckpt.nextId) ∨
    s.log <+: u.log ∧ ∃ above : List Checkpoint,
      u.ckpt.stack = above ++ { id := s.ckpt.nextId, snap := capture s } :: s.ckpt.stack ∧
        ∀ c ∈ above, c.id ≠ s.ckpt.nextId ∧ s.log.length ≤ c.snap.logLen

theorem IdsOk.nextId_fresh {s : State} (ids : IdsOk s) : ∀ c ∈ s.ckpt.stack, c.id ≠ s.ckpt.nextId := by
  obtain ⟨-, range, -⟩ := ids
  intro c mem same
  have := (range c mem).2
  rw [same] at this
  omega

/-- A popped stack: the checkpoint is gone when it was the top, and stands where it stood otherwise. -/
theorem Tracked.of_pop {s u t : State} {top : Checkpoint} (tracked : Tracked s u) (ids : IdsOk s)
    (stack : u.ckpt.stack = top :: t.ckpt.stack) (nextId : t.ckpt.nextId = u.ckpt.nextId)
    (log : s.log <+: u.log → s.log.length ≤ top.snap.logLen → s.log <+: t.log) : Tracked s t := by
  refine ⟨nextId ▸ tracked.idGiven, ?_⟩
  obtain gone | ⟨isPrefix, above, stands, later⟩ := tracked.place
  · rw [stack] at gone
    exact .inl (List.forall_mem_cons.1 gone).2
  · cases above with
    | nil =>
      rw [stack] at stands
      obtain ⟨-, rest⟩ := List.cons.inj stands
      exact .inl (rest ▸ ids.nextId_fresh)
    | cons first above =>
      rw [stack] at stands
      obtain ⟨rfl, rest⟩ := List.cons.inj stands
      obtain ⟨⟨-, longer⟩, laterRest⟩ := List.forall_mem_cons.1 later
      exact .inr ⟨log isPrefix longer, above, rest, laterRest⟩

theorem Tracked.stackEffect {s u t : State} (tracked : Tracked s u) (ids : IdsOk s)
    (below : u.ckpt.nextId ≠ BitVec.allOnes 64) (effect : StackEffect u t) : Tracked s t := by
  have risen := (effect.nextId_bounds below).1
  have given := tracked.idGiven.trans_le risen
  cases effect with
  | kept stack nextId log =>
    refine ⟨given, ?_⟩
    rw [stack]
    exact tracked.place.imp_right fun ⟨isPrefix, stands⟩ => ⟨isPrefix.trans log, stands⟩
  | cleared stack nextId => exact ⟨given, .inl (by simp [stack])⟩
  | pushed stack nextId log =>
    have newId : u.ckpt.nextId ≠ s.ckpt.nextId := fun same => absurd tracked.idGiven (by simp [same])
    refine ⟨given, ?_⟩
    rw [stack, log]
    refine tracked.place.imp (fun gone => List.forall_mem_cons.2 ⟨newId, gone⟩) ?_
    rintro ⟨isPrefix, above, stands, later⟩
    exact ⟨isPrefix, _ :: above, by rw [stands]; rfl, List.forall_mem_cons.2 ⟨⟨newId, isPrefix.length_le⟩, later⟩⟩
  | committed top stack nextId log => exact tracked.of_pop ids stack nextId fun isPrefix _ => log ▸ isPrefix
  | restored top stack nextId log =>
    exact tracked.of_pop ids stack nextId fun isPrefix longer => log ▸ List.prefix_take_iff.2 ⟨isPrefix, longer⟩

/-- While CKPT_NEXT_ID does not wrap the checkpoint is tracked through every step (log 16). -/
theorem Tracked.after {s u : State} {n : Nat} (tracked : Tracked s u) (ids : IdsOk s)
    (noWrap : u.ckpt.nextId.toNat + n < 2 ^ 64) : Tracked s (after n u) := by
  induction n generalizing u with
  | zero => exact tracked
  | succ n ih =>
    obtain ⟨t, stepped⟩ := step_answers u
    have effect := step_stackEffect stepped
    have below : u.ckpt.nextId ≠ BitVec.allOnes 64 := ne_allOnes_iff.2 (by omega)
    have bounds := effect.nextId_bounds below
    rw [after_succ stepped]
    exact ih (tracked.stackEffect ids below effect) (by omega)

theorem tracked_of_create {s t : State} {k : Word} (below : s.ckpt.nextId ≠ BitVec.allOnes 64)
    (created : createCheckpoint s = .ok (k, t)) :
    k = s.ckpt.nextId ∧ t.ckpt.nextId.toNat = s.ckpt.nextId.toNat + 1 ∧ Tracked s t := by
  obtain ⟨-, -, rfl, _, charged, rfl⟩ := createCheckpoint_ok.1 created
  obtain ⟨-, rfl⟩ := charge_ok.1 charged
  have grown := toNat_add_one_of_ne_allOnes below
  exact ⟨rfl, grown, Nat.lt_of_lt_of_eq (Nat.lt_succ_self _) grown.symm,
    .inr ⟨List.prefix_refl _, [], rfl, nofun⟩⟩

/-- A tracked checkpoint rolled back is the top one, and its snapshot is what its creation captured. -/
theorem Tracked.rollback {s u t : State} (tracked : Tracked s u)
    (restored : rollbackCheckpoint s.ckpt.nextId u = .ok t) : capture t = capture s ∧ t.log = s.log := by
  obtain ⟨top, rest, stack, isTop, rfl⟩ := rollbackCheckpoint_ok.1 restored
  obtain gone | ⟨isPrefix, above, stands, later⟩ := tracked.place
  · rw [stack] at gone
    exact absurd isTop.symm (List.forall_mem_cons.1 gone).1
  · cases above with
    | cons first above =>
      rw [stack] at stands
      obtain ⟨rfl, -⟩ := List.cons.inj stands
      obtain ⟨⟨different, -⟩, -⟩ := List.forall_mem_cons.1 later
      exact absurd isTop.symm different
    | nil =>
      rw [stack] at stands
      obtain ⟨rfl, -⟩ := List.cons.inj stands
      have cut : u.log.take s.log.length = s.log := (List.prefix_iff_eq_take.1 isPrefix).symm
      refine ⟨?_, cut⟩
      simp [capture, cut]

/-! ## A budget halt -/

/-- TXN_BASE of a transaction begun in a state: what it captures once the used counters and DIRTY are 0
(46_checkpoint.md R313). -/
def baseOf (s : State) : Snapshot := { capture s with cuUsed := 0, cycUsed := 0, dirty := false }

/-- Nothing is left of what happened since a transaction was begun in `s`. -/
def RolledBackTo (s t : State) : Prop :=
  t.regs = s.regs ∧ t.pc = s.pc ∧ t.mem = s.mem ∧ t.log = s.log ∧ t.accounts = s.accounts ∧
    t.meter.cuUsed = 0 ∧ t.meter.cycUsed = 0 ∧ t.ckpt.stack = [] ∧ t.txnOpen = false

/-- The last run of a transaction begun in `s`, still going. -/
structure InRun (s u : State) : Prop where
  running : u.engState = .running
  base : u.ckpt.txnBase = some (baseOf s)
  log : u.log = s.log
  noCommand : u.hostIn = []

/-- The last run of a transaction begun in `s`, halted, its effects gone if the budget was the reason. -/
structure RunEnded (s u : State) : Prop where
  notRunning : u.engState ≠ .running
  noCommand : u.hostIn = []
  rolledBack : u.latches.failCode = FailKind.insufficientBudget.code → RolledBackTo s u

theorem FailKind.code_insufficientBudget {k : FailKind} (same : k.code = FailKind.insufficientBudget.code) :
    k = .insufficientBudget := by
  cases k with
  | insufficientBudget => rfl
  | _ => cases same

theorem DecodeFailure.failKind_ne_insufficientBudget (f : DecodeFailure) :
    DecodeFailure.failKind f ≠ .insufficientBudget := by
  cases f <;> decide

theorem RunEnded.of_haltFailure {s u : State} (noCommand : u.hostIn = []) {e : Raised}
    (notBudget : e.kind ≠ .insufficientBudget) : RunEnded s (haltFailure e u) :=
  ⟨nofun, noCommand, fun same => absurd (FailKind.code_insufficientBudget same) notBudget⟩

/-- A restored base is the state the transaction began in (46_checkpoint.md R315, R321). -/
theorem InRun.rolledBackTo {s u : State} (run : InRun s u) (e : Raised) :
    RolledBackTo s (autoRollback (haltFailure e u)) := by
  have opened : (haltFailure e u).ckpt.txnBase = some (baseOf s) := run.base
  have cut : u.log.take s.log.length = s.log := by rw [run.log, List.take_length]
  rw [autoRollback_of_open opened]
  exact ⟨rfl, rfl, rfl, cut, rfl, rfl, rfl, rfl, rfl⟩

theorem InRun.engineEffect {s u t : State} (run : InRun s u) (effect : EngineEffect u t) :
    InRun s t ∨ RunEnded s t := by
  obtain ⟨hostIn, -⟩ := effect.queues_eq
  have noCommand := hostIn.trans run.noCommand
  cases effect with
  | early k reason =>
    refine .inr (.of_haltFailure run.noCommand ?_)
    obtain rfl | rfl | rfl := reason <;> decide
  | overBudget i =>
    have notRunning : (autoRollback (haltFailure (.plain .insufficientBudget) u)).engState ≠ .running := by
      rw [autoRollback_engState]
      nofun
    exact .inr ⟨notRunning, noCommand, fun _ => run.rolledBackTo _⟩
  | ran i _ below fits ran =>
    obtain ⟨-, -, -, -, -, ckpt, log, -⟩ := hostSide_eq_iff.1 ran.hostSide_eq
    obtain ⟨stillRunning, -⟩ | rfl | ⟨e, notBudget, rfl⟩ := ran.running_cases run.running
    · exact .inl ⟨stillRunning, by rw [ckpt]; exact run.base, log.trans run.log, noCommand⟩
    · exact .inr ⟨nofun, noCommand, nofun⟩
    · exact .inr (.of_haltFailure (by simpa using noCommand) notBudget)

/-- With no command issued only the return of the RUN is left. -/
theorem RunEnded.step {s u t : State} (ended : RunEnded s u) (stepped : step u = .next t) : RunEnded s t := by
  rw [step_of_not_running ended.notRunning] at stepped
  cases stepped
  cases pending : u.runPending with
  | false =>
    rw [hostTurn_of_no_command pending ended.noCommand]
    exact ended
  | true =>
    rw [hostTurn_of_pending pending]
    exact ⟨ended.notRunning, ended.noCommand, ended.rolledBack⟩

theorem inRun_or_runEnded_step {s : State} (u t : State) (phase : InRun s u ∨ RunEnded s u)
    (stepped : step u = .next t) : InRun s t ∨ RunEnded s t := by
  obtain run | ended := phase
  · exact run.engineEffect (engineStep_effect ((step_of_running run.running).symm.trans stepped))
  · exact .inr (ended.step stepped)

/-- The step that takes BEGIN_TRANSACTION (46_checkpoint.md R313). -/
theorem step_of_begin {s : State} {cu cyc : Word} {rest : List HostCommand} (notRunning : s.engState ≠ .running)
    (returned : s.runPending = false) (closed : s.txnOpen = false)
    (issued : s.hostIn = .beginTransaction cu cyc :: rest) :
    ∃ t, Machine.step s = .next t ∧ t.engState = s.engState ∧ t.runPending = false ∧ t.hostIn = rest ∧
      t.log = s.log ∧ t.ckpt.txnBase = some (baseOf s) := by
  have began : hostCommand (.beginTransaction cu cyc) { s with hostIn := rest } = _ :=
    answer_of_ok { s with hostIn := rest } (beginTransaction_ok.2 ⟨closed, rfl⟩)
  rw [step_of_not_running notRunning, hostTurn_of_command returned issued, takeCommand, began]
  exact ⟨_, rfl, rfl, returned, rfl, rfl, rfl⟩

/-- The step that takes a RUN with no command after it, the transaction open (41_engine.md R142, R143). -/
theorem step_of_run {s u : State} {bytes : List Byte} (notRunning : u.engState ≠ .running)
    (returned : u.runPending = false) (issued : u.hostIn = [.run bytes]) (log : u.log = s.log)
    (base : u.ckpt.txnBase = some (baseOf s)) : ∃ t, Machine.step u = .next t ∧ (InRun s t ∨ RunEnded s t) := by
  have opened : ({ u with hostIn := [] } : State).txnOpen = true := by rw [State.txnOpen, base]; rfl
  rw [step_of_not_running notRunning, hostTurn_of_command returned issued]
  refine ⟨_, rfl, ?_⟩
  unfold takeCommand
  cases decoded : decodeProgram u.params bytes with
  | error e =>
    have rejected : hostCommand (.run bytes) { u with hostIn := [] } = _ := runCommand_of_decode_error opened decoded
    rw [rejected]
    exact .inr ⟨nofun, rfl, fun same =>
      absurd (FailKind.code_insufficientBudget same) (DecodeFailure.failKind_ne_insufficientBudget e.kind)⟩
  | ok prog =>
    have started : hostCommand (.run bytes) { u with hostIn := [] } = _ := runCommand_of_decode_ok opened decoded
    rw [started]
    exact .inl ⟨rfl, base, log, rfl⟩

/-! ## The statements -/

/-- Settles O50: a step keeps the stack, pops it, clears it, or pushes the next id. -/
theorem everyStepKeepsCheckpointIdsRising : Obligations.EveryStepKeepsCheckpointIdsRising := by
  intro s t ids below stepped
  have effect := step_stackEffect stepped
  exact ⟨ids.stackEffect below effect, BitVec.le_def.2 (effect.nextId_bounds below).1⟩

/-- Settles O52: the checkpoint is tracked from its creation through the n steps to its rollback. -/
theorem checkpointRollbackIsARoundTrip : Obligations.CheckpointRollbackIsARoundTrip := by
  intro s s1 u k n ids noWrap created restored
  have below : s.ckpt.nextId ≠ BitVec.allOnes 64 := ne_allOnes_iff.2 (by omega)
  obtain ⟨rfl, grown, tracked⟩ := tracked_of_create below created
  exact (tracked.after ids (by omega)).rollback restored

/-- Settles O53: after the two commands the run goes on or has ended, and a budget halt restored the base. -/
theorem budgetExhaustionRestoresTheTransactionBase : Obligations.BudgetExhaustionRestoresTheTransactionBase := by
  rintro s t cu cyc bytes n notRunning returned closed - issued rfl failed exhausted
  obtain ⟨u, begins, engState, uReturned, uIssued, log, base⟩ := step_of_begin notRunning returned closed issued
  obtain ⟨v, runs, phase⟩ := step_of_run (s := s) (engState ▸ notRunning) uReturned uIssued log base
  rw [after_succ begins, after_succ runs] at failed exhausted ⊢
  obtain run | ended := after_keeps inRun_or_runEnded_step n phase
  · cases run.running.symm.trans failed
  · exact ended.rolledBack exhausted

end Sys2Proof.Machine
end
